-- ==== Sys2Proof/Word.lean ====
section
/-! DEFINITION. The words of bit_packer_unpacker: one storage or payload byte (00_scope.md R8) and one
command or response word of 128 bits (30_encoding.md R60, R64). -/

namespace Sys2Proof

/-- One byte of storage or of a payload: 8 bits (00_scope.md R8). -/
abbrev Byte := BitVec 8

/-- One command word or response word: 128 bits, bit 0 the least significant (30_encoding.md R60, R64). -/
abbrev Word128 := BitVec 128

end Sys2Proof
end

