-- ==== Sys2Proof/Syntax.lean ====
section
/-! DEFINITION. The commands of bit_packer_unpacker (command set BPU-1): one constructor per row of
spec/opcode_table.json, holding exactly the fields 30_encoding.md R61 says the command reads. A field that
R61 marks "-" has no place here: the decoder drops it (R62, U10) and the encoder writes zero (R73). -/

namespace Sys2Proof

/-- One command (30_encoding.md R66). `bits` and `count` are the unsigned 8-bit NBITS field, legal or not
(an illegal count is answered OutOfBounds, 60_exceptions.md R241). -/
inductive Instr where
  -- buffer and cursor (40_buffer_cursor.md)
  /-- CREATE, OP 0x00, R91. -/
  | create (byteLength : BitVec 64)
  /-- INTO_BYTES, OP 0x01, R92. -/
  | intoBytes
  /-- GET_BIT_POS, OP 0x02, R93. -/
  | getBitPos
  /-- GET_BYTE_POS, OP 0x03, R94. -/
  | getBytePos
  /-- GET_CAP_BITS, OP 0x04, R95. -/
  | getCapBits
  /-- SEEK, OP 0x05, R96. -/
  | seek (offset : BitVec 64)
  -- bounds predicates (46_bounds_predicates.md)
  /-- CAN_WR_BITS, OP 0x10, R231. -/
  | canWrBits (n : BitVec 64)
  /-- CAN_RD_BITS, OP 0x11, R232. -/
  | canRdBits (n : BitVec 64)
  /-- CAN_WR_BYTES, OP 0x12, R233. -/
  | canWrBytes (n : BitVec 64)
  /-- CAN_RD_BYTES, OP 0x13, R234. -/
  | canRdBytes (n : BitVec 64)
  -- primitive bit engine (41_bit_engine.md)
  /-- WR_BITS, OP 0x20, R118. -/
  | wrBits (value : Byte) (count : BitVec 8)
  /-- RD_BITS, OP 0x21, R119. -/
  | rdBits (count : BitVec 8)
  -- bool codec (42_bool_codec.md)
  /-- WR_BOOL, OP 0x22, R131. -/
  | wrBool (value : Bool)
  /-- RD_BOOL, OP 0x23, R132. -/
  | rdBool
  -- integer codecs (43_integer_codecs.md)
  /-- WR_U8, OP 0x40, R151. -/
  | wrU8 (value : BitVec 8)
  /-- WR_I8, OP 0x41, R152. -/
  | wrI8 (value : BitVec 8)
  /-- WR_U16, OP 0x42, R153. -/
  | wrU16 (value : BitVec 16)
  /-- WR_I16, OP 0x43, R154. -/
  | wrI16 (value : BitVec 16)
  /-- WR_U32, OP 0x44, R155. -/
  | wrU32 (value : BitVec 32)
  /-- WR_I32, OP 0x45, R156. -/
  | wrI32 (value : BitVec 32)
  /-- WR_U64, OP 0x46, R157. -/
  | wrU64 (value : BitVec 64)
  /-- WR_I64, OP 0x47, R158. -/
  | wrI64 (value : BitVec 64)
  /-- WR_U8_PART, OP 0x48, R159. -/
  | wrU8Part (value : BitVec 8) (bits : BitVec 8)
  /-- WR_I8_PART, OP 0x49, R160. -/
  | wrI8Part (value : BitVec 8) (bits : BitVec 8)
  /-- WR_U16_PART, OP 0x4A, R161. -/
  | wrU16Part (value : BitVec 16) (bits : BitVec 8)
  /-- WR_I16_PART, OP 0x4B, R162. -/
  | wrI16Part (value : BitVec 16) (bits : BitVec 8)
  /-- WR_U32_PART, OP 0x4C, R163. -/
  | wrU32Part (value : BitVec 32) (bits : BitVec 8)
  /-- WR_I32_PART, OP 0x4D, R164. -/
  | wrI32Part (value : BitVec 32) (bits : BitVec 8)
  /-- WR_U64_PART, OP 0x4E, R165. -/
  | wrU64Part (value : BitVec 64) (bits : BitVec 8)
  /-- WR_I64_PART, OP 0x4F, R166. -/
  | wrI64Part (value : BitVec 64) (bits : BitVec 8)
  /-- RD_U8, OP 0x50, R167. -/
  | rdU8
  /-- RD_I8, OP 0x51, R168. -/
  | rdI8
  /-- RD_U16, OP 0x52, R169. -/
  | rdU16
  /-- RD_I16, OP 0x53, R170. -/
  | rdI16
  /-- RD_U32, OP 0x54, R171. -/
  | rdU32
  /-- RD_I32, OP 0x55, R172. -/
  | rdI32
  /-- RD_U64, OP 0x56, R173. -/
  | rdU64
  /-- RD_I64, OP 0x57, R174. -/
  | rdI64
  /-- RD_U8_PART, OP 0x58, R175. -/
  | rdU8Part (bits : BitVec 8)
  /-- RD_I8_PART, OP 0x59, R176. -/
  | rdI8Part (bits : BitVec 8)
  /-- RD_U16_PART, OP 0x5A, R177. -/
  | rdU16Part (bits : BitVec 8)
  /-- RD_I16_PART, OP 0x5B, R178. -/
  | rdI16Part (bits : BitVec 8)
  /-- RD_U32_PART, OP 0x5C, R179. -/
  | rdU32Part (bits : BitVec 8)
  /-- RD_I32_PART, OP 0x5D, R180. -/
  | rdI32Part (bits : BitVec 8)
  /-- RD_U64_PART, OP 0x5E, R181. -/
  | rdU64Part (bits : BitVec 8)
  /-- RD_I64_PART, OP 0x5F, R182. -/
  | rdI64Part (bits : BitVec 8)
  -- float codecs (44_float_codecs.md)
  /-- WR_F32, OP 0x60, R201. -/
  | wrF32 (pattern : BitVec 32)
  /-- WR_F64, OP 0x61, R202. -/
  | wrF64 (pattern : BitVec 64)
  /-- RD_F32, OP 0x62, R203. -/
  | rdF32
  /-- RD_F64, OP 0x63, R204. -/
  | rdF64
  -- byte sequences and strings (45_bytes_string_codecs.md)
  /-- WR_BYTES, OP 0x70, R212: its LEN is the number of payload bytes (R63). -/
  | wrBytes (payload : List Byte)
  /-- RD_BYTES, OP 0x71, R213. -/
  | rdBytes (len : BitVec 32)
  /-- WR_STR, OP 0x72, R216: its LEN is the number of payload bytes (R63). -/
  | wrStr (payload : List Byte)
  /-- RD_STR, OP 0x73, R217. -/
  | rdStr
deriving DecidableEq, Repr

end Sys2Proof
end

