-- ==== Sys2Proof/WellFormed.lean ====
section
/-! DEFINITION. Which terms of `Instr` are commands the host can present. Every field of fixed width is
legal at every value (30_encoding.md R61; an NBITS out of range is answered, not ill-formed); the one check is
that a payload's length fits the 32-bit LEN field (R60, R63, 45_bytes_string_codecs.md R214). -/

namespace Sys2Proof

/-- A payload's byte count is the command's LEN field, 32 bits wide (30_encoding.md R60, R63). -/
abbrev PayloadFits (payload : List Byte) : Prop := payload.length < 2 ^ 32

/-- A command the host can present. -/
abbrev Instr.WellFormed : Instr → Prop
  | .wrBytes payload => PayloadFits payload
  | .wrStr payload => PayloadFits payload
  | _ => True

/-- `Instr.WellFormed` as a Bool that can be computed. -/
def Instr.wellFormed : Instr → Bool
  | .wrBytes payload => decide (PayloadFits payload)
  | .wrStr payload => decide (PayloadFits payload)
  | _ => true

end Sys2Proof
end

