-- ==== Sys2Proof/Decode.lean ====
section
/-! DEFINITION. Decoding a command (a 128-bit word and its payload bytes) and encoding one, both from the
one format of 30_encoding.md R60 and the opcode map of R66. Decoding is total and rejects by name (R69). -/

namespace Sys2Proof

/-! ## The fields of the command word (R60) -/

/-- OP, bits 7:0. -/
def opField (w : Word128) : BitVec 8 := w.extractLsb' 0 8

/-- NBITS, bits 15:8. -/
def nbitsField (w : Word128) : BitVec 8 := w.extractLsb' 8 8

/-- RSVD, bits 31:16: must be zero (R62). -/
def rsvdField (w : Word128) : BitVec 16 := w.extractLsb' 16 16

/-- LEN, bits 63:32. -/
def lenField (w : Word128) : BitVec 32 := w.extractLsb' 32 32

/-- ARG, bits 127:64. -/
def argField (w : Word128) : BitVec 64 := w.extractLsb' 64 64

/-- The value operand of a command of width `W`: `ARG[W-1:0]`, the higher ARG bits ignored (R61, R67). -/
def valueOf (W : Nat) (w : Word128) : BitVec W := (argField w).setWidth W

/-! ## Commands -/

/-- A command at the level of the model: the command word and its payload bytes (R63). -/
structure Command where
  /-- The 128-bit command word. -/
  word : Word128
  /-- The payload bytes, `PAY[0]` first. -/
  payload : List Byte
deriving DecidableEq, Repr

/-- Why a pair of word and bytes is not a command. -/
inductive DecodeError where
  /-- RSVD, bits 31:16, is not zero: an illegal word (R62). Checked first; both illegal cases are answered alike (R69). -/
  | reservedBits (rsvd : BitVec 16)
  /-- OP is none of the 54 of R66: an illegal word (R69). -/
  | reservedOpcode (op : BitVec 8)
  /-- The payload does not hold the number of bytes R71 asks for: no pair the model forms (U13). The step never
  forms one, because it collects exactly that number. -/
  | payloadLength (wanted got : Nat)
deriving DecidableEq, Repr

/-- Whether OP is one of the two operations that have a payload: WR_BYTES 0x70, WR_STR 0x72 (R71). -/
def takesPayload (op : BitVec 8) : Bool := op == 0x70#8 || op == 0x72#8

/-- How many payload bytes follow a command word (R71): LEN for a legal WR_BYTES or WR_STR word, else 0 (an
illegal word has no payload, R69). -/
def payloadCount (w : Word128) : Nat :=
  if rsvdField w = 0 ∧ takesPayload (opField w) = true then (lenField w).toNat else 0

/-- The opcode map of R66: the command a word with this OP value stands for, its fields picked out of the word as R61
says, or none for the 202 reserved values (R69). -/
def decodeOpcode (op : Nat) (w : Word128) (payload : List Byte) : Option Instr :=
  match op with
  | 0x00 => some (.create (argField w))
  | 0x01 => some .intoBytes
  | 0x02 => some .getBitPos
  | 0x03 => some .getBytePos
  | 0x04 => some .getCapBits
  | 0x05 => some (.seek (argField w))
  | 0x10 => some (.canWrBits (argField w))
  | 0x11 => some (.canRdBits (argField w))
  | 0x12 => some (.canWrBytes (argField w))
  | 0x13 => some (.canRdBytes (argField w))
  | 0x20 => some (.wrBits (valueOf 8 w) (nbitsField w))
  | 0x21 => some (.rdBits (nbitsField w))
  | 0x22 => some (.wrBool ((argField w).getLsbD 0))
  | 0x23 => some .rdBool
  | 0x40 => some (.wrU8 (valueOf 8 w))
  | 0x41 => some (.wrI8 (valueOf 8 w))
  | 0x42 => some (.wrU16 (valueOf 16 w))
  | 0x43 => some (.wrI16 (valueOf 16 w))
  | 0x44 => some (.wrU32 (valueOf 32 w))
  | 0x45 => some (.wrI32 (valueOf 32 w))
  | 0x46 => some (.wrU64 (valueOf 64 w))
  | 0x47 => some (.wrI64 (valueOf 64 w))
  | 0x48 => some (.wrU8Part (valueOf 8 w) (nbitsField w))
  | 0x49 => some (.wrI8Part (valueOf 8 w) (nbitsField w))
  | 0x4A => some (.wrU16Part (valueOf 16 w) (nbitsField w))
  | 0x4B => some (.wrI16Part (valueOf 16 w) (nbitsField w))
  | 0x4C => some (.wrU32Part (valueOf 32 w) (nbitsField w))
  | 0x4D => some (.wrI32Part (valueOf 32 w) (nbitsField w))
  | 0x4E => some (.wrU64Part (valueOf 64 w) (nbitsField w))
  | 0x4F => some (.wrI64Part (valueOf 64 w) (nbitsField w))
  | 0x50 => some .rdU8
  | 0x51 => some .rdI8
  | 0x52 => some .rdU16
  | 0x53 => some .rdI16
  | 0x54 => some .rdU32
  | 0x55 => some .rdI32
  | 0x56 => some .rdU64
  | 0x57 => some .rdI64
  | 0x58 => some (.rdU8Part (nbitsField w))
  | 0x59 => some (.rdI8Part (nbitsField w))
  | 0x5A => some (.rdU16Part (nbitsField w))
  | 0x5B => some (.rdI16Part (nbitsField w))
  | 0x5C => some (.rdU32Part (nbitsField w))
  | 0x5D => some (.rdI32Part (nbitsField w))
  | 0x5E => some (.rdU64Part (nbitsField w))
  | 0x5F => some (.rdI64Part (nbitsField w))
  | 0x60 => some (.wrF32 (valueOf 32 w))
  | 0x61 => some (.wrF64 (valueOf 64 w))
  | 0x62 => some .rdF32
  | 0x63 => some .rdF64
  | 0x70 => some (.wrBytes payload)
  | 0x71 => some (.rdBytes (lenField w))
  | 0x72 => some (.wrStr payload)
  | 0x73 => some .rdStr
  | _ => none

/-- The decoder: total on every 128-bit word with any bytes after it (R69). -/
def decode (c : Command) : Except DecodeError Instr :=
  if rsvdField c.word ≠ 0 then .error (.reservedBits (rsvdField c.word))
  else
    match decodeOpcode (opField c.word).toNat c.word c.payload with
    | none => .error (.reservedOpcode (opField c.word))
    | some i =>
      if c.payload.length = payloadCount c.word then .ok i
      else .error (.payloadLength (payloadCount c.word) c.payload.length)

/-! ## The encoder -/

/-- A command word with RSVD zero: `ARG, LEN, RSVD, NBITS, OP` from bit 127 down (R60). -/
def packWord (op nbits : BitVec 8) (len : BitVec 32) (arg : BitVec 64) : Word128 :=
  arg ++ len ++ (0#16) ++ nbits ++ op

/-- The OP value of a command (R66). -/
def opcode : Instr → BitVec 8
  | .create _ => 0x00
  | .intoBytes => 0x01
  | .getBitPos => 0x02
  | .getBytePos => 0x03
  | .getCapBits => 0x04
  | .seek _ => 0x05
  | .canWrBits _ => 0x10
  | .canRdBits _ => 0x11
  | .canWrBytes _ => 0x12
  | .canRdBytes _ => 0x13
  | .wrBits _ _ => 0x20
  | .rdBits _ => 0x21
  | .wrBool _ => 0x22
  | .rdBool => 0x23
  | .wrU8 _ => 0x40
  | .wrI8 _ => 0x41
  | .wrU16 _ => 0x42
  | .wrI16 _ => 0x43
  | .wrU32 _ => 0x44
  | .wrI32 _ => 0x45
  | .wrU64 _ => 0x46
  | .wrI64 _ => 0x47
  | .wrU8Part _ _ => 0x48
  | .wrI8Part _ _ => 0x49
  | .wrU16Part _ _ => 0x4A
  | .wrI16Part _ _ => 0x4B
  | .wrU32Part _ _ => 0x4C
  | .wrI32Part _ _ => 0x4D
  | .wrU64Part _ _ => 0x4E
  | .wrI64Part _ _ => 0x4F
  | .rdU8 => 0x50
  | .rdI8 => 0x51
  | .rdU16 => 0x52
  | .rdI16 => 0x53
  | .rdU32 => 0x54
  | .rdI32 => 0x55
  | .rdU64 => 0x56
  | .rdI64 => 0x57
  | .rdU8Part _ => 0x58
  | .rdI8Part _ => 0x59
  | .rdU16Part _ => 0x5A
  | .rdI16Part _ => 0x5B
  | .rdU32Part _ => 0x5C
  | .rdI32Part _ => 0x5D
  | .rdU64Part _ => 0x5E
  | .rdI64Part _ => 0x5F
  | .wrF32 _ => 0x60
  | .wrF64 _ => 0x61
  | .rdF32 => 0x62
  | .rdF64 => 0x63
  | .wrBytes _ => 0x70
  | .rdBytes _ => 0x71
  | .wrStr _ => 0x72
  | .rdStr => 0x73

/-- The command word of a command: the fields R61 lists, every other field zero (R73). A value narrower than ARG
is zero-extended into it. -/
def encodeWord : Instr → Word128
  | .create a => packWord 0x00 0 0 a
  | .intoBytes => packWord 0x01 0 0 0
  | .getBitPos => packWord 0x02 0 0 0
  | .getBytePos => packWord 0x03 0 0 0
  | .getCapBits => packWord 0x04 0 0 0
  | .seek a => packWord 0x05 0 0 a
  | .canWrBits a => packWord 0x10 0 0 a
  | .canRdBits a => packWord 0x11 0 0 a
  | .canWrBytes a => packWord 0x12 0 0 a
  | .canRdBytes a => packWord 0x13 0 0 a
  | .wrBits v n => packWord 0x20 n 0 (v.setWidth 64)
  | .rdBits n => packWord 0x21 n 0 0
  | .wrBool b => packWord 0x22 0 0 ((BitVec.ofBool b).setWidth 64)
  | .rdBool => packWord 0x23 0 0 0
  | .wrU8 v => packWord 0x40 0 0 (v.setWidth 64)
  | .wrI8 v => packWord 0x41 0 0 (v.setWidth 64)
  | .wrU16 v => packWord 0x42 0 0 (v.setWidth 64)
  | .wrI16 v => packWord 0x43 0 0 (v.setWidth 64)
  | .wrU32 v => packWord 0x44 0 0 (v.setWidth 64)
  | .wrI32 v => packWord 0x45 0 0 (v.setWidth 64)
  | .wrU64 v => packWord 0x46 0 0 (v.setWidth 64)
  | .wrI64 v => packWord 0x47 0 0 (v.setWidth 64)
  | .wrU8Part v n => packWord 0x48 n 0 (v.setWidth 64)
  | .wrI8Part v n => packWord 0x49 n 0 (v.setWidth 64)
  | .wrU16Part v n => packWord 0x4A n 0 (v.setWidth 64)
  | .wrI16Part v n => packWord 0x4B n 0 (v.setWidth 64)
  | .wrU32Part v n => packWord 0x4C n 0 (v.setWidth 64)
  | .wrI32Part v n => packWord 0x4D n 0 (v.setWidth 64)
  | .wrU64Part v n => packWord 0x4E n 0 (v.setWidth 64)
  | .wrI64Part v n => packWord 0x4F n 0 (v.setWidth 64)
  | .rdU8 => packWord 0x50 0 0 0
  | .rdI8 => packWord 0x51 0 0 0
  | .rdU16 => packWord 0x52 0 0 0
  | .rdI16 => packWord 0x53 0 0 0
  | .rdU32 => packWord 0x54 0 0 0
  | .rdI32 => packWord 0x55 0 0 0
  | .rdU64 => packWord 0x56 0 0 0
  | .rdI64 => packWord 0x57 0 0 0
  | .rdU8Part n => packWord 0x58 n 0 0
  | .rdI8Part n => packWord 0x59 n 0 0
  | .rdU16Part n => packWord 0x5A n 0 0
  | .rdI16Part n => packWord 0x5B n 0 0
  | .rdU32Part n => packWord 0x5C n 0 0
  | .rdI32Part n => packWord 0x5D n 0 0
  | .rdU64Part n => packWord 0x5E n 0 0
  | .rdI64Part n => packWord 0x5F n 0 0
  | .wrF32 v => packWord 0x60 0 0 (v.setWidth 64)
  | .wrF64 v => packWord 0x61 0 0 (v.setWidth 64)
  | .rdF32 => packWord 0x62 0 0 0
  | .rdF64 => packWord 0x63 0 0 0
  | .wrBytes p => packWord 0x70 0 (BitVec.ofNat 32 p.length) 0
  | .rdBytes n => packWord 0x71 0 n 0
  | .wrStr p => packWord 0x72 0 (BitVec.ofNat 32 p.length) 0
  | .rdStr => packWord 0x73 0 0 0

/-- The payload of a command (R63). -/
def payloadOf : Instr → List Byte
  | .wrBytes p => p
  | .wrStr p => p
  | _ => []

/-- The encoder. -/
def encode (i : Instr) : Command := { word := encodeWord i, payload := payloadOf i }

/-! ## The host's question about the opcode table -/

/-- The command word whose low `nbits` bits are those of `w`, every other bit zero. -/
def tableWord (nbits w : Nat) : Word128 := BitVec.ofNat 128 (w % 2 ^ nbits)

/-- That word as a command: its payload bytes, where it has any, are zeros. -/
def tableCommand (nbits w : Nat) : Command :=
  { word := tableWord nbits w, payload := List.replicate (payloadCount (tableWord nbits w)) 0 }

/-- What the decoder reads from a row's word. -/
def decodeTableWord (nbits w : Nat) : Option Instr := (decode (tableCommand nbits w)).toOption

end Sys2Proof
end

