-- ==== Sys2Proof/Config.lean ====
section
/-! DEFINITION. What an implementation of the block fixes. The one open parameter is `MAX_BYTES`
(00_scope.md R9, decision D2); it is a field of the machine's state that nothing changes, so that a
statement over all states is a statement over all its values. -/

namespace Sys2Proof.Config

/-- The constraint of 00_scope.md R9 on the parameter: `1 <= MAX_BYTES <= 2^32 - 1`. -/
abbrev MaxBytesLegal (n : Nat) : Prop := 1 ≤ n ∧ n ≤ 2 ^ 32 - 1

/-- The value `State.reset` gives the parameter: the one the spec's vectors assume (00_scope.md R9).
DESIGN CHOICE (log 1), unsafe: the spec leaves the value open, so no statement may rest on it. -/
def vectorMaxBytes : Nat := 65536

/-- `CW = ceil(log2(8*MAX_BYTES + 1))`, the width of the cursor register (00_scope.md R9): the number of
binary digits of `8*MAX_BYTES`. The model holds the cursor as a natural number and this width is what its
invariant makes enough. -/
def cursorWidth (maxBytes : Nat) : Nat := (8 * maxBytes).log2 + 1

end Sys2Proof.Config
end

