-- ==== Sys2Proof/Machine/State.lean ====
section
/-! DEFINITION. The machine's state (10_state.md R20, 30_encoding.md R72), its reasons to stop, and the state
after reset (10_state.md R27, 70_reset_and_hazards.md R270). -/

namespace Sys2Proof.Machine

/-- Why the machine stops. -/
inductive Fault where
  /-- Raised by `memRead` and `memWrite` for a storage index at or above `length`: that byte does not exist
  (10_state.md R23). Safe: the model stops where the spec has no meaning, and 60_exceptions.md R243 says no
  command makes such an access. -/
  | noSuchByte (index : Nat)
deriving DecidableEq, Repr

/-- Why a command has no meaning. -/
inductive Refusal where
  /-- Raised by an arm of `exec` whose command has no meaning yet. Safe: nothing is claimed of it. No arm of
  this model raises it. -/
  | notModelled (mnemonic : String)
deriving DecidableEq, Repr

/-- A command word the block has taken while some of its payload has not arrived (30_encoding.md R71, R72;
93_implementation_defined.md U13). -/
structure InFlight where
  /-- The command word. -/
  word : Word128
  /-- The payload bytes taken so far, `PAY[0]` first. -/
  taken : List Byte
deriving DecidableEq, Repr

/-- The state: the four items of 10_state.md R20, the parameter of 00_scope.md R9, and the channels of
30_encoding.md R72. -/
structure State where
  /-- The parameter `MAX_BYTES` (00_scope.md R9). Nothing writes it. -/
  maxBytes : Nat
  /-- A Buffer exists (10_state.md R21). -/
  live : Bool
  /-- The Buffer's length in bytes (10_state.md R22). -/
  length : Nat
  /-- The Buffer's bytes, as the cells that are not zero (10_state.md R23; log 6). -/
  storage : List Host.Cell
  /-- The bit offset shared by reads and writes (10_state.md R25). -/
  cursor : Nat
  /-- The reset input (70_reset_and_hazards.md R270). The host drives it; no step writes it. -/
  rst : Bool
  /-- Command words the host offers on the command channel, oldest first (30_encoding.md R72). -/
  cmd : List Word128
  /-- Bytes the host offers on the write payload channel, oldest first (30_encoding.md R72). -/
  wp : List Byte
  /-- The command in flight that waits for payload (30_encoding.md R72). -/
  inFlight : Option InFlight
  /-- Response words transferred to the host, oldest first (30_encoding.md R64, R72). -/
  rsp : List Word128
  /-- Read-payload bytes transferred to the host, oldest first (30_encoding.md R65, R72). -/
  rp : List Byte
deriving DecidableEq, Repr

/-- The state right after reset, for a block whose parameter is `maxBytes`: no Buffer, no command in flight
(10_state.md R27, 70_reset_and_hazards.md R270), `rst` back at 0 and nothing on any channel. -/
def State.resetOf (maxBytes : Nat) : State :=
  { maxBytes := maxBytes, live := false, length := 0, storage := [], cursor := 0,
    rst := false, cmd := [], wp := [], inFlight := none, rsp := [], rp := [] }

/-- The state right after reset. The parameter's value is a DESIGN CHOICE (log 1). -/
def State.reset : State := State.resetOf Config.vectorMaxBytes

/-- The outcome of a command or of a step of this machine. -/
abbrev Out := Host.Outcome State Fault Refusal

end Sys2Proof.Machine
end

