-- ==== Sys2Proof/Machine/Flags.lean ====
section
/-! DEFINITION. The block has no flags and no condition codes (10_state.md R30): the outcome of a command is
the STATUS field of its own response (60_exceptions.md R240) and a predicate's answer is bit 0 of its RDATA
(46_bounds_predicates.md R230). This file holds both. -/

namespace Sys2Proof.Machine

/-- The error kinds (60_exceptions.md R240). -/
inductive ErrorKind where
  /-- The cursor would pass `capacity_bits`, or a bit count is 0 or above the width (R241). -/
  | outOfBounds
  /-- The bytes of a string read are not valid UTF-8 (R242). -/
  | invalidEncoding
  /-- CREATE's byte length is above `MAX_BYTES` (R244). -/
  | constructionError
  /-- A command other than CREATE while no Buffer exists (R247). -/
  | noBuffer
  /-- A reserved OP, or reserved bits not zero (R246). -/
  | illegalCommand
deriving DecidableEq, Repr

/-- STATUS of a command that did what its rule says (R240). -/
def statusOk : BitVec 8 := 0

/-- STATUS of an error (R240). -/
def ErrorKind.code : ErrorKind → BitVec 8
  | .outOfBounds => 1
  | .invalidEncoding => 2
  | .constructionError => 3
  | .noBuffer => 4
  | .illegalCommand => 5

/-- Whether `n` more bits fit: `cursor + n <= 8 * length`, exact on naturals (46_bounds_predicates.md R230, R235;
60_exceptions.md R243). -/
def fits (s : State) (n : Nat) : Bool := decide (s.cursor + n ≤ 8 * s.length)

/-- A predicate's answer as RDATA: 1 for yes, 0 for no (R230; 30_encoding.md R68). -/
def answer (yes : Bool) : BitVec 64 := if yes then 1 else 0

end Sys2Proof.Machine
end

