-- ==== Sys2Proof/Machine/Memory.lean ====
section
/-! DEFINITION. The storage array as plain data: a list of (index, byte) cells in one canonical form, and
the two memory primitives of 00_scope.md section 6, `MemRead(p, 1)` and `MemWrite(p, 1, b)`. -/

namespace Sys2Proof.Machine

/-- What an unlisted byte of storage reads as: zero, because CREATE zero-fills (10_state.md R23,
40_buffer_cursor.md R91). -/
def Memory.blank : Byte := 0

/-- One byte of the cells. -/
def Memory.read : List Host.Cell → Nat → Byte
  | [], _ => Memory.blank
  | (k, b) :: rest, p => if k = p then b else Memory.read rest p

/-- The cells without byte `p`. -/
def Memory.erase : List Host.Cell → Nat → List Host.Cell
  | [], _ => []
  | (k, b) :: rest, p => if k = p then Memory.erase rest p else (k, b) :: Memory.erase rest p

/-- The cells with a cell put in its place. -/
def Memory.insert : List Host.Cell → Nat → Byte → List Host.Cell
  | [], p, v => [(p, v)]
  | (k, b) :: rest, p, v => if p < k then (p, v) :: (k, b) :: rest else (k, b) :: Memory.insert rest p v

/-- The cells with byte `p` set to `v`; a cell that would hold what an unlisted byte reads as is left out. -/
def Memory.write (m : List Host.Cell) (p : Nat) (v : Byte) : List Host.Cell :=
  if v = Memory.blank then Memory.erase m p else Memory.insert (Memory.erase m p) p v

/-- The canonical form: indexes strictly rising, no cell equal to what an unlisted byte reads as. -/
abbrev Memory.wf (m : List Host.Cell) : Prop :=
  m.Pairwise (fun a b => a.1 < b.1) ∧ ∀ c ∈ m, c.2 ≠ Memory.blank

/-- `S[p] <- v` on the state. -/
def setByte (s : State) (p : Nat) (v : Byte) : State := { s with storage := Memory.write s.storage p v }

/-- `MemRead(p, 1)` (00_scope.md section 6): defined for `0 <= p < length` only. -/
def memRead (s : State) (p : Nat) : Except Fault Byte :=
  if p < s.length then .ok (Memory.read s.storage p) else .error (.noSuchByte p)

/-- `MemWrite(p, 1, v)` (00_scope.md section 6): defined for `0 <= p < length` only. -/
def memWrite (s : State) (p : Nat) (v : Byte) : Except Fault State :=
  if p < s.length then .ok (setByte s p v) else .error (.noSuchByte p)

end Sys2Proof.Machine
end

