-- ==== Sys2Proof/Machine/Operands.lean ====
section
/-! DEFINITION. How values enter a primitive call and how results sit in the response word: masks
(00_scope.md section 6), the bytes of a value (20_memory.md R41), `zext_64` and `sext_64` (30_encoding.md R68),
and the response word (R64). Values enter a command as the decoder's `valueOf` says (R61, R67). -/

namespace Sys2Proof.Machine

/-- `low(n) = 2^n - 1` as a byte (00_scope.md section 6). -/
def low (n : Nat) : Byte := BitVec.ofNat 8 (2 ^ n - 1)

/-- Byte `j` of a value, `v[8j+7 : 8j]` (43_integer_codecs.md R141). -/
def byteAt {W : Nat} (v : BitVec W) (j : Nat) : Byte := (v >>> (8 * j)).setWidth 8

/-- The first `n` bytes of a value, least significant first (20_memory.md R41). -/
def bytesOf {W : Nat} (n : Nat) (v : BitVec W) : List Byte := (List.range n).map (byteAt v)

/-- The value the bytes of a field make, least significant first: byte `i` is OR-ed in, shifted left by `8*(j+i)`
(43_integer_codecs.md R144, 44_float_codecs.md R203). -/
def orBytes (W : Nat) : Nat → List Byte → BitVec W
  | _, [] => 0
  | j, b :: rest => (b.setWidth W <<< (8 * j)) ||| orBytes W (j + 1) rest

/-- A bool as the value of a one-bit field: 1 for true (42_bool_codec.md R131). -/
def boolByte (b : Bool) : Byte := (BitVec.ofBool b).setWidth 8

/-- `zext_64`: how an unsigned, float or bool result sits in RDATA (30_encoding.md R68). -/
def zext64 {W : Nat} (v : BitVec W) : BitVec 64 := v.setWidth 64

/-- `sext_64`: how a signed result of width `W` sits in RDATA, extended from bit `W - 1` (30_encoding.md R68). -/
def sext64 {W : Nat} (v : BitVec W) : BitVec 64 := v.signExtend 64

/-- The response word: RDATA 127:64, RLEN 63:32, zero 31:8, STATUS 7:0 (30_encoding.md R64). -/
def responseWord (status : BitVec 8) (rlen : BitVec 32) (rdata : BitVec 64) : Word128 :=
  rdata ++ rlen ++ (0#24) ++ status

end Sys2Proof.Machine
end

