-- ==== Sys2Proof/Machine/Utf8.lean ====
section
/-! DEFINITION. Valid UTF-8, from the table of 45_bytes_string_codecs.md R215. -/

namespace Sys2Proof.Machine

/-- Whether a byte lies in an inclusive range. -/
def inRange (b : Byte) (r : Nat × Nat) : Bool := decide (r.1 ≤ b.toNat) && decide (b.toNat ≤ r.2)

/-- The nine rows of the table of R215: for each, the range of every byte of the pattern. -/
def utf8Rows : List (List (Nat × Nat)) :=
  [ [(0x00, 0x7F)],
    [(0xC2, 0xDF), (0x80, 0xBF)],
    [(0xE0, 0xE0), (0xA0, 0xBF), (0x80, 0xBF)],
    [(0xE1, 0xEC), (0x80, 0xBF), (0x80, 0xBF)],
    [(0xED, 0xED), (0x80, 0x9F), (0x80, 0xBF)],
    [(0xEE, 0xEF), (0x80, 0xBF), (0x80, 0xBF)],
    [(0xF0, 0xF0), (0x90, 0xBF), (0x80, 0xBF), (0x80, 0xBF)],
    [(0xF1, 0xF3), (0x80, 0xBF), (0x80, 0xBF), (0x80, 0xBF)],
    [(0xF4, 0xF4), (0x80, 0x8F), (0x80, 0xBF), (0x80, 0xBF)] ]

/-- The bytes after one pattern, if the bytes begin with it. -/
def afterRow : List (Nat × Nat) → List Byte → Option (List Byte)
  | [], bytes => some bytes
  | _ :: _, [] => none
  | r :: row, b :: bytes => if inRange b r then afterRow row bytes else none

/-- The bytes after the first of the patterns that the bytes begin with. -/
def afterAny : List (List (Nat × Nat)) → List Byte → Option (List Byte)
  | [], _ => none
  | row :: rows, bytes =>
    match afterRow row bytes with
    | some rest => some rest
    | none => afterAny rows bytes

/-- Takes patterns off the front, at most `fuel` of them, and answers whether nothing is left. -/
def utf8Check : Nat → List Byte → Bool
  | _, [] => true
  | 0, _ :: _ => false
  | fuel + 1, b :: bytes =>
    match afterAny utf8Rows (b :: bytes) with
    | some rest => utf8Check fuel rest
    | none => false

/-- `utf8_valid(B)`: the bytes are a concatenation of zero or more patterns of the table, and nothing else (R215).
Every pattern takes at least one byte, so the number of bytes is fuel enough. -/
def utf8Valid (bytes : List Byte) : Bool := utf8Check bytes.length bytes

end Sys2Proof.Machine
end

