-- ==== Sys2Proof/Machine/Ops.lean ====
section
/-! DEFINITION. The operations the commands share: answering, raising an error (60_exceptions.md R249; there is
no return from one, R251), the checks every command makes (R243, R248), the primitive bit engine
(41_bit_engine.md), the subroutines built on it (43_integer_codecs.md section 1), the Buffer's making and
unmaking, reset, and taking a command off the channels (30_encoding.md R71, R72). -/

namespace Sys2Proof.Machine

/-! ## Answering -/

/-- Transfers a response word and its read payload; RLEN is the number of payload bytes (30_encoding.md R64, R65,
R72). -/
def respond (s : State) (status : BitVec 8) (rdata : BitVec 64) (payload : List Byte) : State :=
  { s with
    rsp := s.rsp ++ [responseWord status (BitVec.ofNat 32 payload.length) rdata],
    rp := s.rp ++ payload }

/-- `raise E` (00_scope.md R10), the block's only exception entry (60_exceptions.md R249): the response carries the
code with RDATA and RLEN zero and no payload, and the state is what it was when the command began, which is
the state every caller passes here. Nothing is saved and nothing is sticky (R245, R252). -/
def raise (e : ErrorKind) (s : State) : Out := .next (respond s e.code 0 [])

/-- A command that ends without a `raise` responds OK (00_scope.md R10). -/
def finish (s : State) (rdata : BitVec 64) (payload : List Byte) : Out :=
  .next (respond s statusOk rdata payload)

/-- What a subroutine gives, handed to the rest of a command; a storage access out of range stops the
machine. -/
def andThen {α : Type} (r : Except Fault α) (k : α → Out) : Out :=
  match r with
  | .ok a => k a
  | .error f => .fault f

/-! ## The checks, in the order of 60_exceptions.md R248 -/

/-- `if live = 0: raise NO_BUFFER` (R247). -/
def needBuffer (s : State) (k : Out) : Out := if s.live then k else raise .noBuffer s

/-- `if n < 1 or n > width: raise OutOfBounds` (R241). -/
def needCount (n width : Nat) (s : State) (k : Out) : Out :=
  if n < 1 ∨ n > width then raise .outOfBounds s else k

/-- `if cursor + n > 8 * length: raise OutOfBounds` (R241, R243), exact on naturals. -/
def needRoom (n : Nat) (s : State) (k : Out) : Out := if fits s n then k else raise .outOfBounds s

/-! ## The primitive bit engine (41_bit_engine.md) -/

/-- `cursor <- cursor + n`. -/
def advance (s : State) (n : Nat) : State := { s with cursor := s.cursor + n }

/-- `write_bits(v, c)` (R111): the fit case R112 and the split case R113. -/
def writeBits (v : Byte) (c : Nat) (s : State) : Except Fault State :=
  let m := v &&& low c
  let p := s.cursor / 8
  let u := s.cursor % 8
  let f := 8 - u
  if c ≤ f then do
    let b ← memRead s p
    let s1 ← memWrite s p ((b &&& low u) ||| (m <<< u))
    .ok (advance s1 c)
  else do
    let b ← memRead s p
    let s1 ← memWrite s p ((b &&& low u) ||| (m <<< u))
    let b' ← memRead s1 (p + 1)
    let s2 ← memWrite s1 (p + 1) ((b' &&& ~~~(low (c - f))) ||| (m >>> f))
    .ok (advance s2 c)

/-- `read_bits(c)` (R114, split case R115): the value and the state with the cursor advanced. -/
def readBits (c : Nat) (s : State) : Except Fault (Byte × State) :=
  let p := s.cursor / 8
  let u := s.cursor % 8
  let f := 8 - u
  if u = 0 ∧ c = 8 then do
    let r ← memRead s p
    .ok (r, advance s c)
  else do
    let b ← memRead s p
    let a := b >>> u
    if c ≤ f then .ok (a &&& low c, advance s c)
    else do
      let b' ← memRead s (p + 1)
      .ok (a ||| ((b' &&& low (c - f)) <<< f), advance s c)

/-! ## The integer subroutines (43_integer_codecs.md section 1) -/

/-- The number of primitive calls that move `b` bits: `ceil(b / 8)` (R141). -/
def callCount (b : Nat) : Nat := (b + 7) / 8

/-- The count of call `j`: `min(8, b - 8*j)` (R142). -/
def callBits (b j : Nat) : Nat := min 8 (b - 8 * j)

/-- Calls `j`, `j+1`, … of `write_uW_part`, `n` of them (R141). -/
def writeCalls {W : Nat} (v : BitVec W) (b : Nat) : Nat → Nat → State → Except Fault State
  | 0, _, s => .ok s
  | n + 1, j, s => do
    let s1 ← writeBits (byteAt v j) (callBits b j) s
    writeCalls v b n (j + 1) s1

/-- `write_uW_part(v, b)` for `W` in 8, 16, 32 (R141). -/
def writePart {W : Nat} (v : BitVec W) (b : Nat) (s : State) : Except Fault State :=
  writeCalls v b (callCount b) 0 s

/-- `write_u64_part(v, b)` (R143). -/
def writePart64 (v : BitVec 64) (b : Nat) (s : State) : Except Fault State :=
  if b ≤ 32 then writePart (v.extractLsb' 0 32) b s
  else do
    let s1 ← writePart (v.extractLsb' 0 32) 32 s
    writePart (v.extractLsb' 32 32) (b - 32) s1

/-- Calls `j`, `j+1`, … of `read_uW_part`, `n` of them, OR-ed onto `r` (R144). -/
def readCalls (W b : Nat) : Nat → Nat → BitVec W → State → Except Fault (BitVec W × State)
  | 0, _, r, s => .ok (r, s)
  | n + 1, j, r, s => do
    let (x, s1) ← readBits (callBits b j) s
    readCalls W b n (j + 1) (r ||| (x.setWidth W <<< (8 * j))) s1

/-- `read_uW_part(b)` for `W` in 8, 16, 32 (R144). -/
def readPart (W b : Nat) (s : State) : Except Fault (BitVec W × State) :=
  readCalls W b (callCount b) 0 0 s

/-- `read_u64_part(b)` (R145). -/
def readPart64 (b : Nat) (s : State) : Except Fault (BitVec 64 × State) :=
  if b ≤ 32 then do
    let (lo, s1) ← readPart 32 b s
    .ok (lo.setWidth 64, s1)
  else do
    let (lo, s1) ← readPart 32 32 s
    let (hi, s2) ← readPart 32 (b - 32) s1
    .ok ((hi.setWidth 64 <<< 32) ||| lo.setWidth 64, s2)

/-! ## Whole bytes (44_float_codecs.md, 45_bytes_string_codecs.md) -/

/-- `for i: write_bits(PAY[i], 8)` (45_bytes_string_codecs.md R212). -/
def writeBytes : List Byte → State → Except Fault State
  | [], s => .ok s
  | b :: rest, s => do
    let s1 ← writeBits b 8 s
    writeBytes rest s1

/-- `for i in 0 .. n-1: B[i] = read_bits(8)` (45_bytes_string_codecs.md R213). -/
def readBytes : Nat → State → Except Fault (List Byte × State)
  | 0, s => .ok ([], s)
  | n + 1, s => do
    let (b, s1) ← readBits 8 s
    let (rest, s2) ← readBytes n s1
    .ok (b :: rest, s2)

/-! ## What a transfer command answers -/

/-- A write command answers OK with no data (30_encoding.md R61, R64). -/
def finishWrite (r : Except Fault State) : Out := andThen r fun t => finish t 0 []

/-- A read command answers OK with the value it read, presented as `present` says (30_encoding.md R68). -/
def finishRead {W : Nat} (present : BitVec W → BitVec 64) (r : Except Fault (BitVec W × State)) : Out :=
  andThen r fun x => finish x.2 (present x.1) []

/-! ## The Buffer -/

/-- The Buffer CREATE makes: `n` bytes, all zero, cursor 0 (40_buffer_cursor.md R91). A zero byte is an unlisted
one. -/
def makeBuffer (s : State) (n : Nat) : State :=
  { s with live := true, length := n, storage := [], cursor := 0 }

/-- No Buffer: what INTO_BYTES and reset leave (40_buffer_cursor.md R92, 10_state.md R27). That no cell stays listed is a
DESIGN CHOICE (log 6): the spec leaves the contents unspecified, and no command can see them. -/
def dropBuffer (s : State) : State :=
  { s with live := false, length := 0, storage := [], cursor := 0 }

/-- `for p: RPAY[p] <- MemRead(p, 1)`, `n` bytes from index `p` on (40_buffer_cursor.md R92). -/
def storageBytes (s : State) : Nat → Nat → Except Fault (List Byte)
  | 0, _ => .ok []
  | n + 1, p => do
    let b ← memRead s p
    let rest ← storageBytes s n (p + 1)
    .ok (b :: rest)

/-- `cursor <- offset` (40_buffer_cursor.md R96). -/
def moveCursor (s : State) (offset : Nat) : State := { s with cursor := offset }

/-! ## The channels -/

/-- Reset (70_reset_and_hazards.md R270, R271): no Buffer, and a command in flight is discarded without response.
The channels' contents belong to the host: nothing is taken and nothing is transferred. -/
def resetBlock (s : State) : State := { dropBuffer s with inFlight := none }

/-- The next command word taken off the command channel, `rest` still offered. -/
def takeWord (s : State) (rest : List Word128) : State := { s with cmd := rest }

/-- `n` payload bytes taken off the write payload channel, no command in flight any more. -/
def takePayload (s : State) (n : Nat) : State := { s with wp := s.wp.drop n, inFlight := none }

/-- Every payload byte offered taken, the command still in flight. -/
def holdPayload (s : State) (w : Word128) (taken : List Byte) : State :=
  { s with wp := [], inFlight := some { word := w, taken := taken ++ s.wp } }

/-- What the block finds on its channels at a step. -/
inductive Fetched where
  /-- Nothing to execute: the state the step leaves. -/
  | quiet (s : State)
  /-- A whole command, and the state with it taken off the channels. -/
  | command (c : Command) (s : State)

/-- Collects the payload of a command word of which `taken` has already been taken (30_encoding.md R71, R72): all the
bytes it still needs, or, when fewer are offered, those, and the command stays in flight. -/
def collect (w : Word128) (taken : List Byte) (s : State) : Fetched :=
  let missing := payloadCount w - taken.length
  if s.wp.length < missing then .quiet (holdPayload s w taken)
  else .command { word := w, payload := taken ++ s.wp.take missing } (takePayload s missing)

/-- Takes the next command off the channels: nothing while `rst` is high (70_reset_and_hazards.md R270); the command
in flight goes before any other (30_encoding.md R72); with no command offered the block idles
(60_exceptions.md R259). -/
def fetch (s : State) : Fetched :=
  if s.rst then .quiet (resetBlock s)
  else
    match s.inFlight with
    | some c => collect c.word c.taken s
    | none =>
      match s.cmd with
      | [] => .quiet s
      | w :: rest => collect w [] (takeWord s rest)

/-- `cmd_ready`: the block accepts a command word (30_encoding.md R72, 70_reset_and_hazards.md R270). -/
def cmdReady (s : State) : Bool := !s.rst && s.inFlight.isNone

/-- `wp_ready`: the block accepts payload bytes of a command whose word it has taken. -/
def wpReady (s : State) : Bool := !s.rst && s.inFlight.isSome

/-- The host offers commands, in order, each with its payload (30_encoding.md R72, 70_reset_and_hazards.md R273). -/
def offer (s : State) (commands : List Command) : State :=
  { s with cmd := s.cmd ++ commands.map (·.word), wp := s.wp ++ (commands.map (·.payload)).flatten }

end Sys2Proof.Machine
end

