-- ==== Sys2Proof/Machine/BitEngine.lean ====
section
/-! DEFINITION. The primitive bit engine as commands (41_bit_engine.md R118, R119). -/

namespace Sys2Proof.Machine

/-- WR_BITS (R118). -/
def execWrBits (value : Byte) (count : BitVec 8) (s : State) : Out :=
  needBuffer s <| needCount count.toNat 8 s <| needRoom count.toNat s <|
    finishWrite (writeBits value count.toNat s)

/-- RD_BITS (R119). -/
def execRdBits (count : BitVec 8) (s : State) : Out :=
  needBuffer s <| needCount count.toNat 8 s <| needRoom count.toNat s <|
    finishRead zext64 (readBits count.toNat s)

end Sys2Proof.Machine
end

