-- ==== Sys2Proof/Machine/BoolCodec.lean ====
section
/-! DEFINITION. The bool codec (42_bool_codec.md R130 to R132): one bit, 1 for true. -/

namespace Sys2Proof.Machine

/-- WR_BOOL (R131). -/
def execWrBool (value : Bool) (s : State) : Out :=
  needBuffer s <| needRoom 1 s <| finishWrite (writeBits (boolByte value) 1 s)

/-- RD_BOOL (R132). -/
def execRdBool (s : State) : Out :=
  needBuffer s <| needRoom 1 s <| finishRead zext64 (readBits 1 s)

end Sys2Proof.Machine
end

