-- ==== Sys2Proof/Machine/BufferCursor.lean ====
section
/-! DEFINITION. The Buffer and cursor commands (40_buffer_cursor.md R91 to R96). -/

namespace Sys2Proof.Machine

/-- CREATE (R91): a failed one leaves the old Buffer, a successful one replaces it (D6). -/
def execCreate (byteLength : BitVec 64) (s : State) : Out :=
  if byteLength.toNat > s.maxBytes then raise .constructionError s
  else finish (makeBuffer s byteLength.toNat) 0 []

/-- INTO_BYTES (R92): the whole storage, whatever the cursor is; no Buffer afterwards. -/
def execIntoBytes (s : State) : Out :=
  needBuffer s <| andThen (storageBytes s s.length 0) fun bytes => finish (dropBuffer s) 0 bytes

/-- GET_BIT_POS (R93). -/
def execGetBitPos (s : State) : Out :=
  needBuffer s <| finish s (BitVec.ofNat 64 s.cursor) []

/-- GET_BYTE_POS (R94): the division rounds down. -/
def execGetBytePos (s : State) : Out :=
  needBuffer s <| finish s (BitVec.ofNat 64 (s.cursor / 8)) []

/-- GET_CAP_BITS (R95). -/
def execGetCapBits (s : State) : Out :=
  needBuffer s <| finish s (BitVec.ofNat 64 (8 * s.length)) []

/-- SEEK (R96): `offset = capacity_bits` is legal. -/
def execSeek (offset : BitVec 64) (s : State) : Out :=
  needBuffer s <|
    if offset.toNat > 8 * s.length then raise .outOfBounds s
    else finish (moveCursor s offset.toNat) 0 []

end Sys2Proof.Machine
end

