-- ==== Sys2Proof/Machine/BytesString.lean ====
section
/-! DEFINITION. Byte sequences and strings (45_bytes_string_codecs.md R210 to R218). The whole size is checked before the first bit
moves (R211). -/

namespace Sys2Proof.Machine

/-- WR_BYTES (R212): LEN is the number of payload bytes. -/
def execWrBytes (payload : List Byte) (s : State) : Out :=
  needBuffer s <| needRoom (8 * payload.length) s <| finishWrite (writeBytes payload s)

/-- RD_BYTES (R213). -/
def execRdBytes (len : BitVec 32) (s : State) : Out :=
  needBuffer s <| needRoom (8 * len.toNat) s <|
    andThen (readBytes len.toNat s) fun x => finish x.2 0 x.1

/-- The body of WR_STR: the count LEN as a full 32-bit field, then the bytes (R214, R216). -/
def writeString (payload : List Byte) (s : State) : Except Fault State := do
  let s1 ← writePart (BitVec.ofNat 32 payload.length) 32 s
  writeBytes payload s1

/-- WR_STR (R216): the payload is not examined (D16). -/
def execWrStr (payload : List Byte) (s : State) : Out :=
  needBuffer s <| needRoom (32 + 8 * payload.length) s <| finishWrite (writeString payload s)

/-- RD_STR (R217): every `raise` is from the state on entry, so it restores the cursor (00_scope.md R10). -/
def execRdStr (s : State) : Out :=
  needBuffer s <| needRoom 32 s <|
    andThen (readPart 32 32 s) fun x =>
      if fits x.2 (8 * x.1.toNat) then
        andThen (readBytes x.1.toNat x.2) fun y =>
          if utf8Valid y.1 then finish y.2 0 y.1 else raise .invalidEncoding s
      else raise .outOfBounds s

end Sys2Proof.Machine
end

