-- ==== Sys2Proof/Machine/FloatCodec.lean ====
section
/-! DEFINITION. The float codecs (44_float_codecs.md R200 to R205): bit patterns moved as whole bytes, low byte first, and never looked
into. -/

namespace Sys2Proof.Machine

/-- WR_F32 (R201). -/
def execWrF32 (pattern : BitVec 32) (s : State) : Out :=
  needBuffer s <| needRoom 32 s <| finishWrite (writeBytes (bytesOf 4 pattern) s)

/-- WR_F64 (R202). -/
def execWrF64 (pattern : BitVec 64) (s : State) : Out :=
  needBuffer s <| needRoom 64 s <| finishWrite (writeBytes (bytesOf 8 pattern) s)

/-- RD_F32 (R203): zero-extended whatever the sign bit is. -/
def execRdF32 (s : State) : Out :=
  needBuffer s <| needRoom 32 s <|
    andThen (readBytes 4 s) fun x => finish x.2 (zext64 (orBytes 32 0 x.1)) []

/-- RD_F64 (R204). -/
def execRdF64 (s : State) : Out :=
  needBuffer s <| needRoom 64 s <|
    andThen (readBytes 8 s) fun x => finish x.2 (orBytes 64 0 x.1) []

end Sys2Proof.Machine
end

