-- ==== Sys2Proof/Machine/IntegerRead.lean ====
section
/-! DEFINITION. The integer read commands (43_integer_codecs.md R167 to R182), full width and part width. Signed and unsigned differ only
in how the pattern is presented (R146, 30_encoding.md R68): a part-width signed read extends from the
type's top bit, never from the field's (90_conflicts.md C1). -/

namespace Sys2Proof.Machine

/-- RD_U8 (R167). -/
def execRdU8 (s : State) : Out :=
  needBuffer s <| needRoom 8 s <| finishRead zext64 (readPart 8 8 s)

/-- RD_I8 (R168). -/
def execRdI8 (s : State) : Out :=
  needBuffer s <| needRoom 8 s <| finishRead sext64 (readPart 8 8 s)

/-- RD_U16 (R169). -/
def execRdU16 (s : State) : Out :=
  needBuffer s <| needRoom 16 s <| finishRead zext64 (readPart 16 16 s)

/-- RD_I16 (R170). -/
def execRdI16 (s : State) : Out :=
  needBuffer s <| needRoom 16 s <| finishRead sext64 (readPart 16 16 s)

/-- RD_U32 (R171). -/
def execRdU32 (s : State) : Out :=
  needBuffer s <| needRoom 32 s <| finishRead zext64 (readPart 32 32 s)

/-- RD_I32 (R172). -/
def execRdI32 (s : State) : Out :=
  needBuffer s <| needRoom 32 s <| finishRead sext64 (readPart 32 32 s)

/-- RD_U64 (R173). -/
def execRdU64 (s : State) : Out :=
  needBuffer s <| needRoom 64 s <| finishRead zext64 (readPart64 64 s)

/-- RD_I64 (R174). -/
def execRdI64 (s : State) : Out :=
  needBuffer s <| needRoom 64 s <| finishRead sext64 (readPart64 64 s)

/-- RD_U8_PART (R175). -/
def execRdU8Part (bits : BitVec 8) (s : State) : Out :=
  needBuffer s <| needCount bits.toNat 8 s <| needRoom bits.toNat s <|
    finishRead zext64 (readPart 8 bits.toNat s)

/-- RD_I8_PART (R176). -/
def execRdI8Part (bits : BitVec 8) (s : State) : Out :=
  needBuffer s <| needCount bits.toNat 8 s <| needRoom bits.toNat s <|
    finishRead sext64 (readPart 8 bits.toNat s)

/-- RD_U16_PART (R177). -/
def execRdU16Part (bits : BitVec 8) (s : State) : Out :=
  needBuffer s <| needCount bits.toNat 16 s <| needRoom bits.toNat s <|
    finishRead zext64 (readPart 16 bits.toNat s)

/-- RD_I16_PART (R178). -/
def execRdI16Part (bits : BitVec 8) (s : State) : Out :=
  needBuffer s <| needCount bits.toNat 16 s <| needRoom bits.toNat s <|
    finishRead sext64 (readPart 16 bits.toNat s)

/-- RD_U32_PART (R179). -/
def execRdU32Part (bits : BitVec 8) (s : State) : Out :=
  needBuffer s <| needCount bits.toNat 32 s <| needRoom bits.toNat s <|
    finishRead zext64 (readPart 32 bits.toNat s)

/-- RD_I32_PART (R180). -/
def execRdI32Part (bits : BitVec 8) (s : State) : Out :=
  needBuffer s <| needCount bits.toNat 32 s <| needRoom bits.toNat s <|
    finishRead sext64 (readPart 32 bits.toNat s)

/-- RD_U64_PART (R181). -/
def execRdU64Part (bits : BitVec 8) (s : State) : Out :=
  needBuffer s <| needCount bits.toNat 64 s <| needRoom bits.toNat s <|
    finishRead zext64 (readPart64 bits.toNat s)

/-- RD_I64_PART (R182). -/
def execRdI64Part (bits : BitVec 8) (s : State) : Out :=
  needBuffer s <| needCount bits.toNat 64 s <| needRoom bits.toNat s <|
    finishRead sext64 (readPart64 bits.toNat s)

end Sys2Proof.Machine
end

