-- ==== Sys2Proof/Machine/IntegerWrite.lean ====
section
/-! DEFINITION. The integer write commands (43_integer_codecs.md R151 to R166), full width and part width. A signed command is the unsigned
subroutine on the same bits (R146); the checks and their order are R184. -/

namespace Sys2Proof.Machine

/-- WR_U8 (R151). -/
def execWrU8 (value : BitVec 8) (s : State) : Out :=
  needBuffer s <| needRoom 8 s <| finishWrite (writePart value 8 s)

/-- WR_I8 (R152). -/
def execWrI8 (value : BitVec 8) (s : State) : Out :=
  needBuffer s <| needRoom 8 s <| finishWrite (writePart value 8 s)

/-- WR_U16 (R153). -/
def execWrU16 (value : BitVec 16) (s : State) : Out :=
  needBuffer s <| needRoom 16 s <| finishWrite (writePart value 16 s)

/-- WR_I16 (R154). -/
def execWrI16 (value : BitVec 16) (s : State) : Out :=
  needBuffer s <| needRoom 16 s <| finishWrite (writePart value 16 s)

/-- WR_U32 (R155). -/
def execWrU32 (value : BitVec 32) (s : State) : Out :=
  needBuffer s <| needRoom 32 s <| finishWrite (writePart value 32 s)

/-- WR_I32 (R156). -/
def execWrI32 (value : BitVec 32) (s : State) : Out :=
  needBuffer s <| needRoom 32 s <| finishWrite (writePart value 32 s)

/-- WR_U64 (R157). -/
def execWrU64 (value : BitVec 64) (s : State) : Out :=
  needBuffer s <| needRoom 64 s <| finishWrite (writePart64 value 64 s)

/-- WR_I64 (R158). -/
def execWrI64 (value : BitVec 64) (s : State) : Out :=
  needBuffer s <| needRoom 64 s <| finishWrite (writePart64 value 64 s)

/-- WR_U8_PART (R159). -/
def execWrU8Part (value : BitVec 8) (bits : BitVec 8) (s : State) : Out :=
  needBuffer s <| needCount bits.toNat 8 s <| needRoom bits.toNat s <|
    finishWrite (writePart value bits.toNat s)

/-- WR_I8_PART (R160). -/
def execWrI8Part (value : BitVec 8) (bits : BitVec 8) (s : State) : Out :=
  needBuffer s <| needCount bits.toNat 8 s <| needRoom bits.toNat s <|
    finishWrite (writePart value bits.toNat s)

/-- WR_U16_PART (R161). -/
def execWrU16Part (value : BitVec 16) (bits : BitVec 8) (s : State) : Out :=
  needBuffer s <| needCount bits.toNat 16 s <| needRoom bits.toNat s <|
    finishWrite (writePart value bits.toNat s)

/-- WR_I16_PART (R162). -/
def execWrI16Part (value : BitVec 16) (bits : BitVec 8) (s : State) : Out :=
  needBuffer s <| needCount bits.toNat 16 s <| needRoom bits.toNat s <|
    finishWrite (writePart value bits.toNat s)

/-- WR_U32_PART (R163). -/
def execWrU32Part (value : BitVec 32) (bits : BitVec 8) (s : State) : Out :=
  needBuffer s <| needCount bits.toNat 32 s <| needRoom bits.toNat s <|
    finishWrite (writePart value bits.toNat s)

/-- WR_I32_PART (R164). -/
def execWrI32Part (value : BitVec 32) (bits : BitVec 8) (s : State) : Out :=
  needBuffer s <| needCount bits.toNat 32 s <| needRoom bits.toNat s <|
    finishWrite (writePart value bits.toNat s)

/-- WR_U64_PART (R165). -/
def execWrU64Part (value : BitVec 64) (bits : BitVec 8) (s : State) : Out :=
  needBuffer s <| needCount bits.toNat 64 s <| needRoom bits.toNat s <|
    finishWrite (writePart64 value bits.toNat s)

/-- WR_I64_PART (R166). -/
def execWrI64Part (value : BitVec 64) (bits : BitVec 8) (s : State) : Out :=
  needBuffer s <| needCount bits.toNat 64 s <| needRoom bits.toNat s <|
    finishWrite (writePart64 value bits.toNat s)

end Sys2Proof.Machine
end

