-- ==== Sys2Proof/Machine/Predicates.lean ====
section
/-! DEFINITION. The bounds predicates (46_bounds_predicates.md R230 to R237). A "no" is an answer with STATUS OK. -/

namespace Sys2Proof.Machine

/-- CAN_WR_BITS (R231), exact on naturals (R235). -/
def execCanWrBits (n : BitVec 64) (s : State) : Out :=
  needBuffer s <| finish s (answer (fits s n.toNat)) []

/-- CAN_RD_BITS (R232), exact on naturals (R235). -/
def execCanRdBits (n : BitVec 64) (s : State) : Out :=
  needBuffer s <| finish s (answer (fits s n.toNat)) []

/-- CAN_WR_BYTES (R233), exact on naturals (R235). -/
def execCanWrBytes (n : BitVec 64) (s : State) : Out :=
  needBuffer s <| finish s (answer (fits s (8 * n.toNat))) []

/-- CAN_RD_BYTES (R234), exact on naturals (R235). -/
def execCanRdBytes (n : BitVec 64) (s : State) : Out :=
  needBuffer s <| finish s (answer (fits s (8 * n.toNat))) []

end Sys2Proof.Machine
end

