-- ==== Sys2Proof/Machine/Dispatch.lean ====
section
/-! DEFINITION. The meaning of each command: one arm per constructor of `Instr`. -/

namespace Sys2Proof.Machine

def exec (i : Instr) (s : State) : Host.Outcome State Fault Refusal :=
  match i with
  | .create byteLength => Sys2Proof.Machine.execCreate byteLength s
  | .intoBytes => Sys2Proof.Machine.execIntoBytes s
  | .getBitPos => Sys2Proof.Machine.execGetBitPos s
  | .getBytePos => Sys2Proof.Machine.execGetBytePos s
  | .getCapBits => Sys2Proof.Machine.execGetCapBits s
  | .seek offset => Sys2Proof.Machine.execSeek offset s
  | .canWrBits n => Sys2Proof.Machine.execCanWrBits n s
  | .canRdBits n => Sys2Proof.Machine.execCanRdBits n s
  | .canWrBytes n => Sys2Proof.Machine.execCanWrBytes n s
  | .canRdBytes n => Sys2Proof.Machine.execCanRdBytes n s
  | .wrBits value count => Sys2Proof.Machine.execWrBits value count s
  | .rdBits count => Sys2Proof.Machine.execRdBits count s
  | .wrBool value => Sys2Proof.Machine.execWrBool value s
  | .rdBool => Sys2Proof.Machine.execRdBool s
  | .wrU8 value => Sys2Proof.Machine.execWrU8 value s
  | .wrI8 value => Sys2Proof.Machine.execWrI8 value s
  | .wrU16 value => Sys2Proof.Machine.execWrU16 value s
  | .wrI16 value => Sys2Proof.Machine.execWrI16 value s
  | .wrU32 value => Sys2Proof.Machine.execWrU32 value s
  | .wrI32 value => Sys2Proof.Machine.execWrI32 value s
  | .wrU64 value => Sys2Proof.Machine.execWrU64 value s
  | .wrI64 value => Sys2Proof.Machine.execWrI64 value s
  | .wrU8Part value bits => Sys2Proof.Machine.execWrU8Part value bits s
  | .wrI8Part value bits => Sys2Proof.Machine.execWrI8Part value bits s
  | .wrU16Part value bits => Sys2Proof.Machine.execWrU16Part value bits s
  | .wrI16Part value bits => Sys2Proof.Machine.execWrI16Part value bits s
  | .wrU32Part value bits => Sys2Proof.Machine.execWrU32Part value bits s
  | .wrI32Part value bits => Sys2Proof.Machine.execWrI32Part value bits s
  | .wrU64Part value bits => Sys2Proof.Machine.execWrU64Part value bits s
  | .wrI64Part value bits => Sys2Proof.Machine.execWrI64Part value bits s
  | .rdU8 => Sys2Proof.Machine.execRdU8 s
  | .rdI8 => Sys2Proof.Machine.execRdI8 s
  | .rdU16 => Sys2Proof.Machine.execRdU16 s
  | .rdI16 => Sys2Proof.Machine.execRdI16 s
  | .rdU32 => Sys2Proof.Machine.execRdU32 s
  | .rdI32 => Sys2Proof.Machine.execRdI32 s
  | .rdU64 => Sys2Proof.Machine.execRdU64 s
  | .rdI64 => Sys2Proof.Machine.execRdI64 s
  | .rdU8Part bits => Sys2Proof.Machine.execRdU8Part bits s
  | .rdI8Part bits => Sys2Proof.Machine.execRdI8Part bits s
  | .rdU16Part bits => Sys2Proof.Machine.execRdU16Part bits s
  | .rdI16Part bits => Sys2Proof.Machine.execRdI16Part bits s
  | .rdU32Part bits => Sys2Proof.Machine.execRdU32Part bits s
  | .rdI32Part bits => Sys2Proof.Machine.execRdI32Part bits s
  | .rdU64Part bits => Sys2Proof.Machine.execRdU64Part bits s
  | .rdI64Part bits => Sys2Proof.Machine.execRdI64Part bits s
  | .wrF32 pattern => Sys2Proof.Machine.execWrF32 pattern s
  | .wrF64 pattern => Sys2Proof.Machine.execWrF64 pattern s
  | .rdF32 => Sys2Proof.Machine.execRdF32 s
  | .rdF64 => Sys2Proof.Machine.execRdF64 s
  | .wrBytes payload => Sys2Proof.Machine.execWrBytes payload s
  | .rdBytes len => Sys2Proof.Machine.execRdBytes len s
  | .wrStr payload => Sys2Proof.Machine.execWrStr payload s
  | .rdStr => Sys2Proof.Machine.execRdStr s

end Sys2Proof.Machine
end

