-- ==== Sys2Proof/Machine/Step.lean ====
section
/-! DEFINITION. One step: one whole command taken off the channels, executed and answered (00_scope.md R6, R7). -/

namespace Sys2Proof.Machine

/-- Executes a command the block has taken: an illegal word is answered ILLEGAL_COMMAND whether or not a Buffer
exists (60_exceptions.md R246). -/
def runCommand (c : Command) (s : State) : Out :=
  match decode c with
  | .ok i => exec i s
  | .error _ => raise .illegalCommand s

/-- One step of the block. -/
def step (s : State) : Host.Outcome State Fault Refusal :=
  match fetch s with
  | .quiet t => .next t
  | .command c t => runCommand c t

/-- `s` with the row's command offered first on the channels, and nothing in the way of taking it. -/
def State.withFetchWord (s : State) (nbits w : Nat) : State :=
  { s with
    rst := false,
    inFlight := none,
    cmd := (tableCommand nbits w).word :: s.cmd,
    wp := (tableCommand nbits w).payload ++ s.wp }

end Sys2Proof.Machine
end

