-- ==== Sys2Proof/Machine/Assembler.lean ====
section
/-! DEFINITION. The assembler syntax and the pseudo-command of 30_encoding.md R73 and R74: one line of text to one
command. It stands beside the machine, which never sees text; the host is the one who assembles. -/

namespace Sys2Proof.Machine

/-- Why a line does not assemble. -/
inductive AsmError where
  /-- A name that is neither a mnemonic of R66 nor REWIND. -/
  | unknownMnemonic
  /-- An operand of none of the forms of R73, or of a form its command does not take. -/
  | badOperand
  /-- More or fewer operands than the table of R73 gives the command. -/
  | wrongOperandCount
  /-- A number that does not fit the field it sets. -/
  | outOfRange
deriving DecidableEq, Repr

/-- An operand, by its form in R73. -/
inductive Operand where
  /-- `123`, `0x7B`, `0b1111011`. -/
  | number (n : Nat)
  /-- `-5`. -/
  | negative (n : Nat)
  /-- `true`, `false`. -/
  | bool (b : Bool)
  /-- `1.5`, `-0.0`: sign, all digits as one number, how many of them stand after the point. -/
  | decimal (negative : Bool) (digits places : Nat)
  /-- `inf`. -/
  | inf
  /-- `nan`. -/
  | nan
  /-- `bits:0x40490FDB`. -/
  | bits (n : Nat)
  /-- A quoted text. -/
  | text (chars : List Char)
  /-- `[0x01, 2, 0xFF]`. -/
  | bytes (values : List Nat)
deriving DecidableEq, Repr

/-! ## Characters to pieces -/

/-- The text before a comment: `;` outside quotes starts one (R73). -/
def dropComment : Bool → List Char → List Char
  | _, [] => []
  | quoted, c :: rest =>
    if c = ';' ∧ quoted = false then []
    else c :: dropComment (if c = '"' then !quoted else quoted) rest

/-- The text without spaces and tabs at either end. -/
def trim (l : List Char) : List Char :=
  let blank := fun c => c = ' ' ∨ c = '\t' ∨ c = '\r'
  ((l.dropWhile blank).reverse.dropWhile blank).reverse

/-- The pieces between commas that stand outside quotes and brackets. `quoted` and `inside` say where the scan is,
`piece` is the piece so far, last character first. -/
def splitCommas : Bool → Bool → List Char → List Char → List (List Char)
  | _, _, piece, [] => [piece.reverse]
  | quoted, inside, piece, c :: rest =>
    if c = ',' ∧ quoted = false ∧ inside = false then piece.reverse :: splitCommas false false [] rest
    else
      splitCommas (if c = '"' then !quoted else quoted)
        (if quoted then inside else if c = '[' then true else if c = ']' then false else inside)
        (c :: piece) rest

/-- The digits of R73's numerals, each at the place of its value: the first `base` of them are the digits of a base. -/
def digitSymbols : List Char := "0123456789abcdef".toList

/-- The digits of a numeral in a base, most significant first, after the value `acc` of those already read. A letter
digit may be of either case (log 12). -/
def digitsFrom (base : Nat) : Nat → List Char → Option Nat
  | acc, [] => some acc
  | acc, c :: rest => do
    let d ← (digitSymbols.take base).idxOf? c.toLower
    digitsFrom base (base * acc + d) rest

/-- A numeral with at least one digit. -/
def numeral (base : Nat) (l : List Char) : Option Nat := if l = [] then none else digitsFrom base 0 l

/-- An unsigned number: decimal, or `0x` or `0b` (R73). -/
def unsigned : List Char → Option Nat
  | '0' :: 'x' :: rest => numeral 16 rest
  | '0' :: 'b' :: rest => numeral 2 rest
  | l => numeral 10 l

/-- A decimal with a point: its digits as one number, and how many stand after the point. -/
def decimalPoint (l : List Char) : Option (Nat × Nat) :=
  match l.span (· ≠ '.') with
  | (whole, '.' :: frac) =>
    match numeral 10 whole, numeral 10 frac with
    | some _, some _ => (numeral 10 (whole ++ frac)).map fun d => (d, frac.length)
    | _, _ => none
  | _ => none

/-- The values of a bracketed list of byte values. -/
def byteValues (inner : List Char) : Option (List Nat) :=
  if trim inner = [] then some []
  else (splitCommas false false [] inner).mapM fun p => unsigned (trim p)

/-- One operand (R73). -/
def operand (l : List Char) : Option Operand :=
  match l with
  | 't' :: 'r' :: 'u' :: 'e' :: [] => some (.bool true)
  | 'f' :: 'a' :: 'l' :: 's' :: 'e' :: [] => some (.bool false)
  | 'i' :: 'n' :: 'f' :: [] => some .inf
  | 'n' :: 'a' :: 'n' :: [] => some .nan
  | 'b' :: 'i' :: 't' :: 's' :: ':' :: rest => (unsigned rest).map .bits
  | '"' :: rest =>
    match rest.reverse with
    | '"' :: inner => if '"' ∈ inner then none else some (.text inner.reverse)
    | _ => none
  | '[' :: rest =>
    match rest.reverse with
    | ']' :: inner => (byteValues inner.reverse).map .bytes
    | _ => none
  | '-' :: rest =>
    match unsigned rest with
    | some n => some (.negative n)
    | none => (decimalPoint rest).map fun d => .decimal true d.1 d.2
  | _ =>
    match unsigned l with
    | some n => some (.number n)
    | none => (decimalPoint l).map fun d => .decimal false d.1 d.2

/-! ## Values -/

/-- The UTF-8 encoding of one character (45_bytes_string_codecs.md R215 read from the code point). -/
def utf8Char (c : Char) : List Byte :=
  let n := c.toNat
  let tail := fun k => BitVec.ofNat 8 (0x80 + n / 64 ^ k % 64)
  if n < 0x80 then [BitVec.ofNat 8 n]
  else if n < 0x800 then [BitVec.ofNat 8 (0xC0 + n / 64), tail 0]
  else if n < 0x10000 then [BitVec.ofNat 8 (0xE0 + n / 4096), tail 1, tail 0]
  else [BitVec.ofNat 8 (0xF0 + n / 262144), tail 2, tail 1, tail 0]

/-- The quotient of naturals rounded to nearest, ties to even. -/
def roundQuotient (num den : Nat) : Nat :=
  let q := num / den
  let r := num % den
  if 2 * r < den then q else if 2 * r > den then q + 1 else q + q % 2

/-- The pattern of an IEEE-754 binary format without its sign, for the number `num / den`: `p` significand bits with
the hidden one, least exponent `2 - 2^(e-1)` for `e` exponent bits, rounded to nearest, ties to even. PRESUMED
(log 12): the format is general knowledge, G1. -/
def floatMagnitude (p e num den : Nat) : Nat :=
  if num = 0 then 0
  else
    let least : Int := 2 - 2 ^ (e - 1)
    let guess : Int := (num.log2 : Int) - (den.log2 : Int)
    let below : Bool := if 0 ≤ guess then decide (num < den * 2 ^ guess.toNat) else decide (num * 2 ^ (-guess).toNat < den)
    let exponent : Int := max least (if below then guess - 1 else guess)
    let shift : Int := (p : Int) - 1 - exponent
    let significand := if 0 ≤ shift then roundQuotient (num * 2 ^ shift.toNat) den else roundQuotient num (den * 2 ^ (-shift).toNat)
    min ((2 ^ e - 1) * 2 ^ (p - 1)) ((exponent - least).toNat * 2 ^ (p - 1) + significand)

/-- A float operand's pattern, for a format of `p` significand bits and `e` exponent bits (`p + e` bits in all): a
decimal rounded, `inf`, `nan` as R73's pattern, or the pattern itself. -/
def floatPattern (p e : Nat) : Operand → Except AsmError Nat
  | .decimal neg d places => .ok ((if neg then 2 ^ (p + e - 1) else 0) + floatMagnitude p e d (10 ^ places))
  | .inf => .ok ((2 ^ e - 1) * 2 ^ (p - 1))
  | .nan => .ok ((2 ^ e - 1) * 2 ^ (p - 1) + 2 ^ (p - 2))
  | .bits n => if n < 2 ^ (p + e) then .ok n else .error .outOfRange
  | _ => .error .badOperand

/-- A number that fits a field of `width` bits. -/
def fieldOf (width n : Nat) : Except AsmError (BitVec width) :=
  if n < 2 ^ width then .ok (BitVec.ofNat width n) else .error .outOfRange

/-- An unsigned number operand for a field of `width` bits. -/
def numberField (width : Nat) : Operand → Except AsmError (BitVec width)
  | .number n => fieldOf width n
  | _ => .error .badOperand

/-- The value operand of a write: an unsigned number for all of ARG, or, of a signed write of width `W`, a negative
number `x` as `pattern_W(x)` (R73, R67). -/
def valueField (signedWidth : Option Nat) : Operand → Except AsmError (BitVec 64)
  | .number n => fieldOf 64 n
  | .negative n =>
    match signedWidth with
    | some W => if n ≤ 2 ^ (W - 1) then .ok (BitVec.ofNat 64 ((2 ^ W - n) % 2 ^ W)) else .error .outOfRange
    | none => .error .badOperand
  | _ => .error .badOperand

/-- The value operand of WR_BOOL: `true`, `false`, or a number for ARG. -/
def boolField : Operand → Except AsmError (BitVec 64)
  | .bool b => .ok (if b then 1 else 0)
  | .number n => fieldOf 64 n
  | _ => .error .badOperand

/-- The payload of WR_BYTES (a bracketed list) or of WR_STR (a quoted text, or a bracketed list). -/
def payloadField (textAllowed : Bool) : Operand → Except AsmError (List Byte)
  | .bytes l => l.mapM (fieldOf 8)
  | .text chars => if textAllowed then .ok (chars.flatMap utf8Char) else .error .badOperand
  | _ => .error .badOperand

/-! ## Commands -/

/-- Which operands a command's syntax has, in order (the table of R73). -/
inductive Shape where
  /-- No operand. -/
  | bare
  /-- One number, in ARG. -/
  | arg
  /-- One number, in NBITS. -/
  | count
  /-- One number, in LEN. -/
  | len
  /-- WR_BOOL's. -/
  | boolean
  /-- A value in ARG, of a signed write of width `W` where one is given. -/
  | value (signedWidth : Option Nat)
  /-- A value in ARG and a number in NBITS. -/
  | valueCount (signedWidth : Option Nat)
  /-- A float of `p` significand and `e` exponent bits. -/
  | float (p e : Nat)
  /-- A payload, and whether it may be a text. -/
  | payload (textAllowed : Bool)
deriving DecidableEq, Repr

/-- OP and syntax of every mnemonic of R66, and of the pseudo-command REWIND, which is `SEEK 0` (R74) and is
assembled below. -/
def mnemonics : List (String × BitVec 8 × Shape) :=
  [ ("CREATE", 0x00, .arg), ("INTO_BYTES", 0x01, .bare), ("GET_BIT_POS", 0x02, .bare), ("GET_BYTE_POS", 0x03, .bare),
    ("GET_CAP_BITS", 0x04, .bare), ("SEEK", 0x05, .arg),
    ("CAN_WR_BITS", 0x10, .arg), ("CAN_RD_BITS", 0x11, .arg), ("CAN_WR_BYTES", 0x12, .arg), ("CAN_RD_BYTES", 0x13, .arg),
    ("WR_BITS", 0x20, .valueCount none), ("RD_BITS", 0x21, .count), ("WR_BOOL", 0x22, .boolean), ("RD_BOOL", 0x23, .bare),
    ("WR_U8", 0x40, .value none), ("WR_I8", 0x41, .value (some 8)), ("WR_U16", 0x42, .value none), ("WR_I16", 0x43, .value (some 16)),
    ("WR_U32", 0x44, .value none), ("WR_I32", 0x45, .value (some 32)), ("WR_U64", 0x46, .value none), ("WR_I64", 0x47, .value (some 64)),
    ("WR_U8_PART", 0x48, .valueCount none), ("WR_I8_PART", 0x49, .valueCount (some 8)),
    ("WR_U16_PART", 0x4A, .valueCount none), ("WR_I16_PART", 0x4B, .valueCount (some 16)),
    ("WR_U32_PART", 0x4C, .valueCount none), ("WR_I32_PART", 0x4D, .valueCount (some 32)),
    ("WR_U64_PART", 0x4E, .valueCount none), ("WR_I64_PART", 0x4F, .valueCount (some 64)),
    ("RD_U8", 0x50, .bare), ("RD_I8", 0x51, .bare), ("RD_U16", 0x52, .bare), ("RD_I16", 0x53, .bare),
    ("RD_U32", 0x54, .bare), ("RD_I32", 0x55, .bare), ("RD_U64", 0x56, .bare), ("RD_I64", 0x57, .bare),
    ("RD_U8_PART", 0x58, .count), ("RD_I8_PART", 0x59, .count), ("RD_U16_PART", 0x5A, .count), ("RD_I16_PART", 0x5B, .count),
    ("RD_U32_PART", 0x5C, .count), ("RD_I32_PART", 0x5D, .count), ("RD_U64_PART", 0x5E, .count), ("RD_I64_PART", 0x5F, .count),
    ("WR_F32", 0x60, .float 24 8), ("WR_F64", 0x61, .float 53 11), ("RD_F32", 0x62, .bare), ("RD_F64", 0x63, .bare),
    ("WR_BYTES", 0x70, .payload false), ("RD_BYTES", 0x71, .len), ("WR_STR", 0x72, .payload true), ("RD_STR", 0x73, .bare) ]

/-- A command from its OP, its syntax and its operands; fields the syntax does not set are zero (R73). -/
def assembleShape (op : BitVec 8) : Shape → List Operand → Except AsmError Command
  | .bare, [] => .ok ⟨packWord op 0 0 0, []⟩
  | .arg, [a] => do .ok ⟨packWord op 0 0 (← numberField 64 a), []⟩
  | .count, [c] => do .ok ⟨packWord op (← numberField 8 c) 0 0, []⟩
  | .len, [n] => do .ok ⟨packWord op 0 (← numberField 32 n) 0, []⟩
  | .boolean, [b] => do .ok ⟨packWord op 0 0 (← boolField b), []⟩
  | .value w, [v] => do .ok ⟨packWord op 0 0 (← valueField w v), []⟩
  | .valueCount w, [v, c] => do .ok ⟨packWord op (← numberField 8 c) 0 (← valueField w v), []⟩
  | .float p e, [x] => do .ok ⟨packWord op 0 0 (BitVec.ofNat 64 (← floatPattern p e x)), []⟩
  | .payload t, [x] => do
    let bytes ← payloadField t x
    .ok ⟨packWord op 0 (← fieldOf 32 bytes.length) 0, bytes⟩
  | _, _ => .error .wrongOperandCount

/-- The row of a mnemonic. -/
def mnemonicRow (name : List Char) : List (String × BitVec 8 × Shape) → Option (BitVec 8 × Shape)
  | [] => none
  | (m, row) :: rest => if m.toList = name then some row else mnemonicRow name rest

/-- A mnemonic and its operands, as text. -/
def assembleCommand (name : List Char) (operands : List (List Char)) : Except AsmError Command :=
  if name = "REWIND".toList then
    if operands = [] then assembleShape 0x05 .arg [.number 0] else .error .wrongOperandCount
  else
    match mnemonicRow name mnemonics with
    | none => .error .unknownMnemonic
    | some (op, shape) =>
      match operands.mapM operand with
      | none => .error .badOperand
      | some os => assembleShape op shape os

/-- One line: a command, nothing (a blank line or a comment), or an error (R73). -/
def assembleLine (line : List Char) : Except AsmError (Option Command) :=
  match trim (dropComment false line) with
  | [] => .ok none
  | text =>
    let name := text.takeWhile fun c => c ≠ ' ' ∧ c ≠ '\t'
    let rest := trim (text.drop name.length)
    (assembleCommand name (if rest = [] then [] else (splitCommas false false [] rest).map trim)).map some

/-- A program: one command per line (R73). -/
def assemble : List (List Char) → Except AsmError (List Command)
  | [] => .ok []
  | line :: rest => do
    let c ← assembleLine line
    let cs ← assemble rest
    .ok (c.toList ++ cs)

end Sys2Proof.Machine
end

