-- ==== Sys2Proof/Safety.lean ====
section
/-! DEFINITION. The terms the claims use: stream bits and fields (00_scope.md section 6), what a write of a field
leaves (43_integer_codecs.md R147, R149), valid UTF-8 as a relation (45_bytes_string_codecs.md R215), the state
invariant (10_state.md R26) and a safe step (60_exceptions.md R250). -/

namespace Sys2Proof.Machine

/-! ## The storage as one string of bits -/

/-- `bit(g)`: bit `g mod 8` of byte `S[g div 8]` (20_memory.md R40). -/
def State.bit (s : State) (g : Nat) : Bool := (Memory.read s.storage (g / 8)).getLsbD (g % 8)

/-- `field(k, n)`: the `n`-bit value whose bit `i` is `bit(k + i)` (00_scope.md section 6). -/
def State.field (s : State) (k : Nat) : Nat → Nat
  | 0 => 0
  | n + 1 => State.field s k n + (if s.bit (k + n) then 2 ^ n else 0)

/-- `t` is `s` after a field of `n` bits, bit `i` being `value i`, has been written at the cursor: the stream law
(20_memory.md R42, 43_integer_codecs.md R147), the bits above the field in its last byte (R149), every byte outside
the field's bytes unchanged, and nothing changed but storage and cursor. -/
structure FieldWritten (s t : State) (n : Nat) (value : Nat → Bool) : Prop where
  /-- `bit(k + i) = v[i]`. -/
  inField : ∀ i, i < n → t.bit (s.cursor + i) = value i
  /-- Bits below the field keep their value. -/
  below : ∀ g, g < s.cursor → t.bit g = s.bit g
  /-- Bits above the field in its last byte: cleared if the last primitive call, of `((n-1) mod 8) + 1` bits, fits in
  one byte, else unchanged. -/
  above : ∀ g, s.cursor + n ≤ g → g < 8 * ((s.cursor + n + 7) / 8) →
    t.bit g = if 0 < n ∧ s.cursor % 8 + ((n - 1) % 8 + 1) ≤ 8 then false else s.bit g
  /-- Every byte outside the bytes of the field reads as before. -/
  otherBytes : ∀ p, p < s.cursor / 8 ∨ (s.cursor + n + 7) / 8 ≤ p →
    Memory.read t.storage p = Memory.read s.storage p
  /-- Only storage and cursor change; the cursor advances by `n`. -/
  rest : t = { s with storage := t.storage, cursor := s.cursor + n }

/-! ## Valid UTF-8 -/

/-- Byte `b` lies between `lo` and `hi`, both included. -/
abbrev Between (lo hi : Nat) (b : Byte) : Prop := lo ≤ b.toNat ∧ b.toNat ≤ hi

/-- Valid UTF-8: a concatenation of the byte patterns of the nine rows of the table of
45_bytes_string_codecs.md R215, and nothing else. -/
inductive Utf8Text : List Byte → Prop where
  | empty : Utf8Text []
  /-- U+0000..U+007F -/
  | row1 {a rest} : Between 0x00 0x7F a → Utf8Text rest → Utf8Text (a :: rest)
  /-- U+0080..U+07FF -/
  | row2 {a b rest} : Between 0xC2 0xDF a → Between 0x80 0xBF b → Utf8Text rest → Utf8Text (a :: b :: rest)
  /-- U+0800..U+0FFF -/
  | row3 {a b c rest} : Between 0xE0 0xE0 a → Between 0xA0 0xBF b → Between 0x80 0xBF c → Utf8Text rest →
      Utf8Text (a :: b :: c :: rest)
  /-- U+1000..U+CFFF -/
  | row4 {a b c rest} : Between 0xE1 0xEC a → Between 0x80 0xBF b → Between 0x80 0xBF c → Utf8Text rest →
      Utf8Text (a :: b :: c :: rest)
  /-- U+D000..U+D7FF -/
  | row5 {a b c rest} : Between 0xED 0xED a → Between 0x80 0x9F b → Between 0x80 0xBF c → Utf8Text rest →
      Utf8Text (a :: b :: c :: rest)
  /-- U+E000..U+FFFF -/
  | row6 {a b c rest} : Between 0xEE 0xEF a → Between 0x80 0xBF b → Between 0x80 0xBF c → Utf8Text rest →
      Utf8Text (a :: b :: c :: rest)
  /-- U+10000..U+3FFFF -/
  | row7 {a b c d rest} : Between 0xF0 0xF0 a → Between 0x90 0xBF b → Between 0x80 0xBF c → Between 0x80 0xBF d →
      Utf8Text rest → Utf8Text (a :: b :: c :: d :: rest)
  /-- U+40000..U+FFFFF -/
  | row8 {a b c d rest} : Between 0xF1 0xF3 a → Between 0x80 0xBF b → Between 0x80 0xBF c → Between 0x80 0xBF d →
      Utf8Text rest → Utf8Text (a :: b :: c :: d :: rest)
  /-- U+100000..U+10FFFF -/
  | row9 {a b c d rest} : Between 0xF4 0xF4 a → Between 0x80 0x8F b → Between 0x80 0xBF c → Between 0x80 0xBF d →
      Utf8Text rest → Utf8Text (a :: b :: c :: d :: rest)

/-! ## What a command moves -/

/-- The bits a transfer command moves and the bound it checks first (20_memory.md R46, 60_exceptions.md R241): none for
the commands that move none, and for RD_STR the prefix. -/
def bitsMoved : Instr → Option Nat
  | .wrBits _ c => some c.toNat
  | .rdBits c => some c.toNat
  | .wrBool _ => some 1
  | .rdBool => some 1
  | .wrU8 _ => some 8
  | .wrI8 _ => some 8
  | .rdU8 => some 8
  | .rdI8 => some 8
  | .wrU16 _ => some 16
  | .wrI16 _ => some 16
  | .rdU16 => some 16
  | .rdI16 => some 16
  | .wrU32 _ => some 32
  | .wrI32 _ => some 32
  | .rdU32 => some 32
  | .rdI32 => some 32
  | .wrU64 _ => some 64
  | .wrI64 _ => some 64
  | .rdU64 => some 64
  | .rdI64 => some 64
  | .wrU8Part _ b => some b.toNat
  | .wrI8Part _ b => some b.toNat
  | .rdU8Part b => some b.toNat
  | .rdI8Part b => some b.toNat
  | .wrU16Part _ b => some b.toNat
  | .wrI16Part _ b => some b.toNat
  | .rdU16Part b => some b.toNat
  | .rdI16Part b => some b.toNat
  | .wrU32Part _ b => some b.toNat
  | .wrI32Part _ b => some b.toNat
  | .rdU32Part b => some b.toNat
  | .rdI32Part b => some b.toNat
  | .wrU64Part _ b => some b.toNat
  | .wrI64Part _ b => some b.toNat
  | .rdU64Part b => some b.toNat
  | .rdI64Part b => some b.toNat
  | .wrF32 _ => some 32
  | .rdF32 => some 32
  | .wrF64 _ => some 64
  | .rdF64 => some 64
  | .wrBytes p => some (8 * p.length)
  | .rdBytes n => some (8 * n.toNat)
  | .wrStr p => some (32 + 8 * p.length)
  | .rdStr => some 32
  | .create _ => none
  | .intoBytes => none
  | .getBitPos => none
  | .getBytePos => none
  | .getCapBits => none
  | .seek _ => none
  | .canWrBits _ => none
  | .canRdBits _ => none
  | .canWrBytes _ => none
  | .canRdBytes _ => none

/-- The NBITS operand of a command that takes one, and the width it must not exceed (60_exceptions.md R241). -/
def countOperand : Instr → Option (Nat × Nat)
  | .wrBits _ c => some (c.toNat, 8)
  | .rdBits c => some (c.toNat, 8)
  | .wrU8Part _ b => some (b.toNat, 8)
  | .wrI8Part _ b => some (b.toNat, 8)
  | .rdU8Part b => some (b.toNat, 8)
  | .rdI8Part b => some (b.toNat, 8)
  | .wrU16Part _ b => some (b.toNat, 16)
  | .wrI16Part _ b => some (b.toNat, 16)
  | .rdU16Part b => some (b.toNat, 16)
  | .rdI16Part b => some (b.toNat, 16)
  | .wrU32Part _ b => some (b.toNat, 32)
  | .wrI32Part _ b => some (b.toNat, 32)
  | .rdU32Part b => some (b.toNat, 32)
  | .rdI32Part b => some (b.toNat, 32)
  | .wrU64Part _ b => some (b.toNat, 64)
  | .wrI64Part _ b => some (b.toNat, 64)
  | .rdU64Part b => some (b.toNat, 64)
  | .rdI64Part b => some (b.toNat, 64)
  | _ => none

/-- The command's own operand check: its count, where it takes one, is from 1 to the width. -/
def CountLegal (i : Instr) : Prop := ∀ c, countOperand i = some c → 1 ≤ c.1 ∧ c.1 ≤ c.2

/-- The commands that can change storage: CREATE and the write commands (10_state.md R23), and INTO_BYTES, which in the model
leaves no cell listed (log 6). -/
def changesStorage : Instr → Bool
  | .create _ | .intoBytes | .wrBits _ _ | .wrBool _ => true
  | .wrU8 _ | .wrI8 _ | .wrU16 _ | .wrI16 _ | .wrU32 _ | .wrI32 _ | .wrU64 _ | .wrI64 _ => true
  | .wrU8Part _ _ | .wrI8Part _ _ | .wrU16Part _ _ | .wrI16Part _ _ => true
  | .wrU32Part _ _ | .wrI32Part _ _ | .wrU64Part _ _ | .wrI64Part _ _ => true
  | .wrF32 _ | .wrF64 _ | .wrBytes _ | .wrStr _ => true
  | _ => false

/-- STATUS of a response word (30_encoding.md R64). -/
def statusOf (r : Word128) : BitVec 8 := r.extractLsb' 0 8

/-- RDATA of a response word (30_encoding.md R64). -/
def rdataOf (r : Word128) : BitVec 64 := r.extractLsb' 64 64

/-- The bytes a read of `n` bytes at bit `k` finds: byte `i` is `field(k + 8i, 8)` (45_bytes_string_codecs.md R213). -/
def bytesAt (s : State) (k n : Nat) : List Byte := (List.range n).map fun i => BitVec.ofNat 8 (s.field (k + 8 * i) 8)

/-- `signed_W(p)`: the integer a `W`-bit pattern denotes in two's complement (00_scope.md section 6). -/
def signedOf (W p : Nat) : Int := if p < 2 ^ (W - 1) then (p : Int) else (p : Int) - 2 ^ W

/-- The conditions of 60_exceptions.md R241 under which a command on a live Buffer raises OutOfBounds. -/
def OutOfBoundsCondition (i : Instr) (s : State) : Prop :=
  match i with
  | .seek offset => offset.toNat > 8 * s.length
  | .rdStr =>
    s.cursor + 32 > 8 * s.length ∨ s.cursor + 32 + 8 * s.field s.cursor 32 > 8 * s.length
  | i =>
    (∃ c, countOperand i = some c ∧ (c.1 < 1 ∨ c.1 > c.2)) ∨ (∃ n, bitsMoved i = some n ∧ s.cursor + n > 8 * s.length)

/-- Which command can return which status (60_exceptions.md R253; ILLEGAL_COMMAND is answered to the word, before
there is a command). -/
def mayAnswer : Instr → List (BitVec 8)
  | .create _ => [statusOk, ErrorKind.constructionError.code]
  | .intoBytes | .getBitPos | .getBytePos | .getCapBits => [statusOk, ErrorKind.noBuffer.code]
  | .canWrBits _ | .canRdBits _ | .canWrBytes _ | .canRdBytes _ => [statusOk, ErrorKind.noBuffer.code]
  | .rdStr => [statusOk, ErrorKind.outOfBounds.code, ErrorKind.invalidEncoding.code, ErrorKind.noBuffer.code]
  | _ => [statusOk, ErrorKind.outOfBounds.code, ErrorKind.noBuffer.code]

/-! ## The invariant -/

/-- The state invariant as 10_state.md R26 gives it, and nothing more. -/
structure State.SpecInv (s : State) : Prop where
  lengthBound : s.length ≤ s.maxBytes
  cursorBound : s.cursor ≤ 8 * s.length
  noBuffer : s.live = false → s.length = 0 ∧ s.cursor = 0

/-- The state invariant: 10_state.md R26, the constraint of 00_scope.md R9, the canonical form of the cells, and a
command in flight still misses payload (30_encoding.md R72). -/
structure State.Inv (s : State) : Prop where
  parameter : Config.MaxBytesLegal s.maxBytes
  lengthBound : s.length ≤ s.maxBytes
  cursorBound : s.cursor ≤ 8 * s.length
  noBuffer : s.live = false → s.length = 0 ∧ s.cursor = 0
  cellsWf : Memory.wf s.storage
  cellsBound : ∀ c ∈ s.storage, c.1 < s.length
  waiting : ∀ f, s.inFlight = some f → f.taken.length < payloadCount f.word

/-! ## What a command answers -/

/-- The command answers an error: its code, no data, no payload, and the state is what it was (00_scope.md R10,
60_exceptions.md R249). -/
def Raises (i : Instr) (e : ErrorKind) (s : State) : Prop := exec i s = .next (respond s e.code 0 [])

/-- On a live Buffer with room for `n` bits the command writes a field of `n` bits, bit `j` being `value j`, and
answers OK with no data. -/
def WritesField (i : Instr) (n : Nat) (value : Nat → Bool) (s : State) : Prop :=
  s.live = true → s.cursor + n ≤ 8 * s.length →
    ∃ t, FieldWritten s t n value ∧ exec i s = .next (respond t statusOk 0 [])

/-- On a live Buffer with `n` bits left the command advances the cursor by `n`, changes nothing else, and answers OK
with `rdata`. -/
def ReadsField (i : Instr) (n : Nat) (rdata : BitVec 64) (s : State) : Prop :=
  s.live = true → s.cursor + n ≤ 8 * s.length →
    exec i s = .next (respond { s with cursor := s.cursor + n } statusOk rdata [])

/-- `u` differs from `s` in the Buffer at most: parameter, reset input and channels are the same. -/
def OnlyBuffer (s u : State) : Prop :=
  u = { s with live := u.live, length := u.length, storage := u.storage, cursor := u.cursor }

/-- The command answers STATUS `status`, RDATA `rdata` and the read payload `payload`, and `u` is the state it leaves but for
that response. -/
def Answers (i : Instr) (s u : State) (status : BitVec 8) (rdata : BitVec 64) (payload : List Byte) : Prop :=
  OnlyBuffer s u ∧ exec i s = .next (respond u status rdata payload)

/-- The value of bytes as one little-endian number (20_memory.md R41). -/
def bytesValue : List Byte → Nat
  | [] => 0
  | b :: rest => b.toNat + 256 * bytesValue rest

/-- The value a write command leaves in its field (20_memory.md R42, 43_integer_codecs.md R150(a)); none for a command that
writes no field. -/
def writtenValue : Instr → Option Nat
  | .wrBits v c => some (v.toNat % 2 ^ c.toNat)
  | .wrBool v => some v.toNat
  | .wrU8 v => some v.toNat
  | .wrI8 v => some v.toNat
  | .wrU16 v => some v.toNat
  | .wrI16 v => some v.toNat
  | .wrU32 v => some v.toNat
  | .wrI32 v => some v.toNat
  | .wrU64 v => some v.toNat
  | .wrI64 v => some v.toNat
  | .wrU8Part v b => some (v.toNat % 2 ^ b.toNat)
  | .wrI8Part v b => some (v.toNat % 2 ^ b.toNat)
  | .wrU16Part v b => some (v.toNat % 2 ^ b.toNat)
  | .wrI16Part v b => some (v.toNat % 2 ^ b.toNat)
  | .wrU32Part v b => some (v.toNat % 2 ^ b.toNat)
  | .wrI32Part v b => some (v.toNat % 2 ^ b.toNat)
  | .wrU64Part v b => some (v.toNat % 2 ^ b.toNat)
  | .wrI64Part v b => some (v.toNat % 2 ^ b.toNat)
  | .wrF32 v => some v.toNat
  | .wrF64 v => some v.toNat
  | .wrBytes p => some (bytesValue p)
  | .wrStr p => some (p.length % 2 ^ 32 + 2 ^ 32 * bytesValue p)
  | _ => none

/-- The type's width for a signed read command (30_encoding.md R68). -/
def signedReadWidth : Instr → Option Nat
  | .rdI8 => some 8
  | .rdI16 => some 16
  | .rdI32 => some 32
  | .rdI64 => some 64
  | .rdI8Part _ => some 8
  | .rdI16Part _ => some 16
  | .rdI32Part _ => some 32
  | .rdI64Part _ => some 64
  | _ => none

/-- How a field of value `v` read by a scalar read command sits in RDATA (30_encoding.md R68). -/
def presented (i : Instr) (v : Nat) : BitVec 64 :=
  match signedReadWidth i with
  | none => BitVec.ofNat 64 v
  | some W => BitVec.ofInt 64 (signedOf W v)

/-- The fields write commands lay down back to back, first command lowest: how many bits, and their value; none if some
command writes no field. -/
def streamOf : List Instr → Option (Nat × Nat)
  | [] => some (0, 0)
  | i :: rest =>
    match bitsMoved i, writtenValue i, streamOf rest with
    | some n, some v, some (m, w) => some (n + m, v + 2 ^ n * w)
    | _, _, _ => none

/-- Commands one after the other, stopping at a fault or a refusal. -/
def execAll : List Instr → State → Out
  | [], s => .next s
  | i :: rest, s =>
    match exec i s with
    | .next t => execAll rest t
    | .fault f => .fault f
    | .refused r => .refused r

/-- Steps one after the other, stopping at a fault or a refusal. -/
def stepMany : Nat → State → Out
  | 0, s => .next s
  | n + 1, s =>
    match step s with
    | .next t => stepMany n t
    | .fault f => .fault f
    | .refused r => .refused r

/-- The block waits for a command word and the host has offered nothing (60_exceptions.md R259). -/
def Idle (s : State) : Prop := s.rst = false ∧ s.inFlight = none ∧ s.cmd = [] ∧ s.wp = []

/-- Writing with `wr`, seeking back to where the write began and reading with `rd` answers `rdata` and leaves the cursor after
the field (43_integer_codecs.md R183, 70_reset_and_hazards.md R275). -/
def RoundTrip (wr rd : Instr) (n : Nat) (rdata : BitVec 64) : Prop :=
  ∀ s : State, s.Inv → s.live = true → s.cursor + n ≤ 8 * s.length →
    ∃ t, OnlyBuffer s t ∧ t.cursor = s.cursor + n ∧
      execAll [wr, .seek (BitVec.ofNat 64 s.cursor), rd] s =
        .next (respond (respond (respond t statusOk 0 []) statusOk 0 []) statusOk rdata [])

/-! ## The opcode map by fields -/

/-- The reserved OP values (30_encoding.md R69). -/
abbrev ReservedOp (op : Nat) : Prop :=
  (0x06 ≤ op ∧ op ≤ 0x0F) ∨ (0x14 ≤ op ∧ op ≤ 0x1F) ∨ (0x24 ≤ op ∧ op ≤ 0x3F) ∨ (0x64 ≤ op ∧ op ≤ 0x6F) ∨ 0x74 ≤ op

/-- What 30_encoding.md R70 says an integer opcode is built from: read, part width, the width's code `WW`
(`W = 8 << WW`), signed. -/
structure IntegerKind where
  read : Bool
  part : Bool
  widthCode : BitVec 2
  signed : Bool

/-- The kind of each of the 32 integer commands. -/
def integerKind : Instr → Option IntegerKind
  | .wrU8 _ => some ⟨false, false, 0, false⟩
  | .wrI8 _ => some ⟨false, false, 0, true⟩
  | .wrU16 _ => some ⟨false, false, 1, false⟩
  | .wrI16 _ => some ⟨false, false, 1, true⟩
  | .wrU32 _ => some ⟨false, false, 2, false⟩
  | .wrI32 _ => some ⟨false, false, 2, true⟩
  | .wrU64 _ => some ⟨false, false, 3, false⟩
  | .wrI64 _ => some ⟨false, false, 3, true⟩
  | .wrU8Part _ _ => some ⟨false, true, 0, false⟩
  | .wrI8Part _ _ => some ⟨false, true, 0, true⟩
  | .wrU16Part _ _ => some ⟨false, true, 1, false⟩
  | .wrI16Part _ _ => some ⟨false, true, 1, true⟩
  | .wrU32Part _ _ => some ⟨false, true, 2, false⟩
  | .wrI32Part _ _ => some ⟨false, true, 2, true⟩
  | .wrU64Part _ _ => some ⟨false, true, 3, false⟩
  | .wrI64Part _ _ => some ⟨false, true, 3, true⟩
  | .rdU8 => some ⟨true, false, 0, false⟩
  | .rdI8 => some ⟨true, false, 0, true⟩
  | .rdU16 => some ⟨true, false, 1, false⟩
  | .rdI16 => some ⟨true, false, 1, true⟩
  | .rdU32 => some ⟨true, false, 2, false⟩
  | .rdI32 => some ⟨true, false, 2, true⟩
  | .rdU64 => some ⟨true, false, 3, false⟩
  | .rdI64 => some ⟨true, false, 3, true⟩
  | .rdU8Part _ => some ⟨true, true, 0, false⟩
  | .rdI8Part _ => some ⟨true, true, 0, true⟩
  | .rdU16Part _ => some ⟨true, true, 1, false⟩
  | .rdI16Part _ => some ⟨true, true, 1, true⟩
  | .rdU32Part _ => some ⟨true, true, 2, false⟩
  | .rdI32Part _ => some ⟨true, true, 2, true⟩
  | .rdU64Part _ => some ⟨true, true, 3, false⟩
  | .rdI64Part _ => some ⟨true, true, 3, true⟩
  | _ => none

/-- The kind of each of the 4 float commands: read, 64 bits. -/
def floatKind : Instr → Option (Bool × Bool)
  | .wrF32 _ => some (false, false)
  | .wrF64 _ => some (false, true)
  | .rdF32 => some (true, false)
  | .rdF64 => some (true, true)
  | _ => none

/-! ## What a command reads -/

/-- Two states with the same Buffer and the same parameter: the four items of 10_state.md R20 and MAX_BYTES. -/
structure SameBuffer (s t : State) : Prop where
  maxBytes : s.maxBytes = t.maxBytes
  live : s.live = t.live
  length : s.length = t.length
  storage : s.storage = t.storage
  cursor : s.cursor = t.cursor

/-! ## Safe steps -/

/-- A safe step: the block answers or waits, and never stops (60_exceptions.md R250). -/
def SafeStep (s : State) : Prop := ∃ t, step s = .next t

end Sys2Proof.Machine
end

