-- ==== Sys2Proof/Certificates/Slice0/Obligations.lean ====
section
/-! DEFINITION. The statements for the provers, from the numbered rules of spec/. `s` is the state a command begins in. -/

open Sys2Proof Sys2Proof.Machine

/-! ## Reset, the channels and the step -/

/-- 10_state.md R27, 70_reset_and_hazards.md R270: reset leaves no Buffer and no command in flight, whatever MAX_BYTES is. -/
def Obligations.ResetLeavesNoBuffer : Prop :=
  ∀ n, (State.resetOf n).live = false ∧ (State.resetOf n).length = 0 ∧ (State.resetOf n).cursor = 0 ∧
    (State.resetOf n).inFlight = none ∧ (State.resetOf n).maxBytes = n

/-- The invariant holds at reset: of `State.reset`, and of the reset state for every legal MAX_BYTES. (`State.reset`'s own
value of MAX_BYTES is the model's choice, log 1; the canonical form of the cells is the model's, log 6.) -/
def Obligations.ResetMeetsInvariant : Prop :=
  State.reset.Inv ∧ ∀ n, Config.MaxBytesLegal n → (State.resetOf n).Inv

/-- 70_reset_and_hazards.md R270, R271: a step with `rst` high leaves no Buffer and no command in flight, and answers
nothing. The model's own: that no storage cell is left listed (log 6; R27 leaves the contents unspecified), that what has been
transferred stays transferred (log 3), and that the channels' contents and `rst` stay as the host put them (logs 5 and 17). -/
def Obligations.ResetInputStep : Prop :=
  ∀ s : State, s.rst = true →
    step s = .next { s with live := false, length := 0, storage := [], cursor := 0, inFlight := none } ∧
    cmdReady s = false ∧ wpReady s = false

/-- 60_exceptions.md R259: idling changes no state. That a step with no command offered idles is the model's (log 16). -/
def Obligations.IdleStepKeepsState : Prop :=
  ∀ s : State, s.rst = false → s.inFlight = none → s.cmd = [] → step s = .next s

/-- A command whose payload has not all arrived stays in flight with the bytes taken so far; nothing executes and nothing is
answered. The spec does not say how a missing payload looks between steps: the model's choice, log 4. -/
def Obligations.ShortPayloadWaits : Prop :=
  (∀ (s : State) (w : Word128) (rest : List Word128), s.rst = false → s.inFlight = none → s.cmd = w :: rest →
    s.wp.length < payloadCount w →
    step s = .next { s with cmd := rest, wp := [], inFlight := some ⟨w, s.wp⟩ }) ∧
  (∀ (s : State) (f : InFlight), s.rst = false → s.inFlight = some f →
    s.wp.length < payloadCount f.word - f.taken.length →
    step s = .next { s with wp := [], inFlight := some ⟨f.word, f.taken ++ s.wp⟩ })

/-- A step runs the decoded command: from a word on the command channel with its payload offered, and from a command in flight
whose missing payload has arrived. Taking the word and its payload off the channels is all the step adds (00_scope.md R7,
30_encoding.md R71, R72; the queues are the model's, log 2). -/
def Obligations.StepRunsDecodedCommand : Prop :=
  (∀ (s : State) (w : Word128) (rest : List Word128) (i : Instr),
    s.rst = false → s.inFlight = none → s.cmd = w :: rest → payloadCount w ≤ s.wp.length →
    decode ⟨w, s.wp.take (payloadCount w)⟩ = .ok i →
    step s = exec i { s with cmd := rest, wp := s.wp.drop (payloadCount w) }) ∧
  (∀ (s : State) (f : InFlight) (i : Instr),
    s.rst = false → s.inFlight = some f → payloadCount f.word - f.taken.length ≤ s.wp.length →
    decode ⟨f.word, f.taken ++ s.wp.take (payloadCount f.word - f.taken.length)⟩ = .ok i →
    step s = exec i { s with wp := s.wp.drop (payloadCount f.word - f.taken.length), inFlight := none })

/-- 20_memory.md R51, 70_reset_and_hazards.md R273: commands offered to an idle block take effect one after the other, in
order, one step each, as if each had been presented alone; the payloads stay with their commands. -/
def Obligations.OfferedProgramRunsInOrder : Prop :=
  ∀ (program : List Instr) (s : State), Idle s → (∀ i ∈ program, i.WellFormed) →
    ∃ t, execAll program s = .next t ∧ Idle t ∧ stepMany program.length (offer s (program.map encode)) = .next t

/-- 60_exceptions.md R250: the block never halts: every step of every state, reachable or not, answers a next state; and after a
step that answers a command it accepts the next one. -/
def Obligations.BlockNeverHalts : Prop :=
  (∀ s : State, SafeStep s) ∧ (∀ s t : State, step s = .next t → t.rsp ≠ s.rsp → cmdReady t = true)

/-- The model's whole invariant is true at reset and every step keeps it, whatever the command and whether it succeeds or
fails. To the three clauses of 10_state.md R26 (stated alone by `SpecInvariantIsKept`) `Inv` adds the model's own: a legal
MAX_BYTES (log 1), cells in canonical form inside `length` (log 6), and payload still missing of a command in flight (log 4). -/
def Obligations.StepKeepsInvariant : Prop :=
  (∀ n, Config.MaxBytesLegal n → (State.resetOf n).Inv) ∧
  (∀ s t : State, s.Inv → step s = .next t → t.Inv) ∧
  (∀ (i : Instr) (s t : State), s.Inv → exec i s = .next t → t.Inv)

/-- 10_state.md R26, whole and alone: its three clauses are true at reset, for every MAX_BYTES, and after every command, whether it
succeeds or fails; and every step keeps them, with no help from the model's other clauses. -/
def Obligations.SpecInvariantIsKept : Prop :=
  (∀ n, (State.resetOf n).SpecInv) ∧
  (∀ (i : Instr) (s t : State), s.SpecInv → exec i s = .next t → t.SpecInv) ∧
  (∀ s t : State, s.SpecInv → step s = .next t → t.SpecInv)

/-! ## Encoding -/

/-- Words written out from the spec's format decode to their commands: one of each family. -/
def Obligations.SampleWordsDecode : Prop :=
  decode ⟨0x00000000000000040000000000000000#128, []⟩ = .ok (.create 4) ∧
  decode ⟨0x00000000000000200000000000000005#128, []⟩ = .ok (.seek 32) ∧
  decode ⟨0x00000000000000060000000000000011#128, []⟩ = .ok (.canRdBits 6) ∧
  decode ⟨0x00000000000000050000000000000320#128, []⟩ = .ok (.wrBits 5 3) ∧
  decode ⟨0x00000000000000010000000000000022#128, []⟩ = .ok (.wrBool true) ∧
  decode ⟨0x000000000000FFFE0000000000000043#128, []⟩ = .ok (.wrI16 0xFFFE) ∧
  decode ⟨0x00000000000CCD630000000000001B4C#128, []⟩ = .ok (.wrU32Part 839011 27) ∧
  decode ⟨0x0000000000000000000000000000325F#128, []⟩ = .ok (.rdI64Part 50) ∧
  decode ⟨0x000000003FC000000000000000000060#128, []⟩ = .ok (.wrF32 0x3FC00000) ∧
  decode ⟨0x00000000000000000000000300000070#128, [0xDE, 0xAD, 0xBE]⟩ = .ok (.wrBytes [0xDE, 0xAD, 0xBE]) ∧
  decode ⟨0x00000000000000000000000000000073#128, []⟩ = .ok .rdStr

/-- 30_encoding.md R66, R61: every row of the opcode map decodes to its command with exactly the fields R61 lists, whatever
stands in the fields it does not read; a payload is LEN bytes. -/
def Obligations.OpcodeMapDecodes : Prop :=
  ∀ (nb : BitVec 8) (len : BitVec 32) (arg : BitVec 64),
    decode ⟨packWord 0x00 nb len arg, []⟩ = .ok (.create arg) ∧
    decode ⟨packWord 0x01 nb len arg, []⟩ = .ok .intoBytes ∧
    decode ⟨packWord 0x02 nb len arg, []⟩ = .ok .getBitPos ∧
    decode ⟨packWord 0x03 nb len arg, []⟩ = .ok .getBytePos ∧
    decode ⟨packWord 0x04 nb len arg, []⟩ = .ok .getCapBits ∧
    decode ⟨packWord 0x05 nb len arg, []⟩ = .ok (.seek arg) ∧
    decode ⟨packWord 0x10 nb len arg, []⟩ = .ok (.canWrBits arg) ∧
    decode ⟨packWord 0x11 nb len arg, []⟩ = .ok (.canRdBits arg) ∧
    decode ⟨packWord 0x12 nb len arg, []⟩ = .ok (.canWrBytes arg) ∧
    decode ⟨packWord 0x13 nb len arg, []⟩ = .ok (.canRdBytes arg) ∧
    decode ⟨packWord 0x20 nb len arg, []⟩ = .ok (.wrBits (arg.setWidth 8) nb) ∧
    decode ⟨packWord 0x21 nb len arg, []⟩ = .ok (.rdBits nb) ∧
    decode ⟨packWord 0x22 nb len arg, []⟩ = .ok (.wrBool (arg.getLsbD 0)) ∧
    decode ⟨packWord 0x23 nb len arg, []⟩ = .ok .rdBool ∧
    decode ⟨packWord 0x40 nb len arg, []⟩ = .ok (.wrU8 (arg.setWidth 8)) ∧
    decode ⟨packWord 0x41 nb len arg, []⟩ = .ok (.wrI8 (arg.setWidth 8)) ∧
    decode ⟨packWord 0x42 nb len arg, []⟩ = .ok (.wrU16 (arg.setWidth 16)) ∧
    decode ⟨packWord 0x43 nb len arg, []⟩ = .ok (.wrI16 (arg.setWidth 16)) ∧
    decode ⟨packWord 0x44 nb len arg, []⟩ = .ok (.wrU32 (arg.setWidth 32)) ∧
    decode ⟨packWord 0x45 nb len arg, []⟩ = .ok (.wrI32 (arg.setWidth 32)) ∧
    decode ⟨packWord 0x46 nb len arg, []⟩ = .ok (.wrU64 arg) ∧
    decode ⟨packWord 0x47 nb len arg, []⟩ = .ok (.wrI64 arg) ∧
    decode ⟨packWord 0x48 nb len arg, []⟩ = .ok (.wrU8Part (arg.setWidth 8) nb) ∧
    decode ⟨packWord 0x49 nb len arg, []⟩ = .ok (.wrI8Part (arg.setWidth 8) nb) ∧
    decode ⟨packWord 0x4A nb len arg, []⟩ = .ok (.wrU16Part (arg.setWidth 16) nb) ∧
    decode ⟨packWord 0x4B nb len arg, []⟩ = .ok (.wrI16Part (arg.setWidth 16) nb) ∧
    decode ⟨packWord 0x4C nb len arg, []⟩ = .ok (.wrU32Part (arg.setWidth 32) nb) ∧
    decode ⟨packWord 0x4D nb len arg, []⟩ = .ok (.wrI32Part (arg.setWidth 32) nb) ∧
    decode ⟨packWord 0x4E nb len arg, []⟩ = .ok (.wrU64Part arg nb) ∧
    decode ⟨packWord 0x4F nb len arg, []⟩ = .ok (.wrI64Part arg nb) ∧
    decode ⟨packWord 0x50 nb len arg, []⟩ = .ok .rdU8 ∧
    decode ⟨packWord 0x51 nb len arg, []⟩ = .ok .rdI8 ∧
    decode ⟨packWord 0x52 nb len arg, []⟩ = .ok .rdU16 ∧
    decode ⟨packWord 0x53 nb len arg, []⟩ = .ok .rdI16 ∧
    decode ⟨packWord 0x54 nb len arg, []⟩ = .ok .rdU32 ∧
    decode ⟨packWord 0x55 nb len arg, []⟩ = .ok .rdI32 ∧
    decode ⟨packWord 0x56 nb len arg, []⟩ = .ok .rdU64 ∧
    decode ⟨packWord 0x57 nb len arg, []⟩ = .ok .rdI64 ∧
    decode ⟨packWord 0x58 nb len arg, []⟩ = .ok (.rdU8Part nb) ∧
    decode ⟨packWord 0x59 nb len arg, []⟩ = .ok (.rdI8Part nb) ∧
    decode ⟨packWord 0x5A nb len arg, []⟩ = .ok (.rdU16Part nb) ∧
    decode ⟨packWord 0x5B nb len arg, []⟩ = .ok (.rdI16Part nb) ∧
    decode ⟨packWord 0x5C nb len arg, []⟩ = .ok (.rdU32Part nb) ∧
    decode ⟨packWord 0x5D nb len arg, []⟩ = .ok (.rdI32Part nb) ∧
    decode ⟨packWord 0x5E nb len arg, []⟩ = .ok (.rdU64Part nb) ∧
    decode ⟨packWord 0x5F nb len arg, []⟩ = .ok (.rdI64Part nb) ∧
    decode ⟨packWord 0x60 nb len arg, []⟩ = .ok (.wrF32 (arg.setWidth 32)) ∧
    decode ⟨packWord 0x61 nb len arg, []⟩ = .ok (.wrF64 arg) ∧
    decode ⟨packWord 0x62 nb len arg, []⟩ = .ok .rdF32 ∧
    decode ⟨packWord 0x63 nb len arg, []⟩ = .ok .rdF64 ∧
    (∀ pay : List Byte, pay.length = len.toNat → decode ⟨packWord 0x70 nb len arg, pay⟩ = .ok (.wrBytes pay)) ∧
    decode ⟨packWord 0x71 nb len arg, []⟩ = .ok (.rdBytes len) ∧
    (∀ pay : List Byte, pay.length = len.toNat → decode ⟨packWord 0x72 nb len arg, pay⟩ = .ok (.wrStr pay)) ∧
    decode ⟨packWord 0x73 nb len arg, []⟩ = .ok .rdStr

/-- Decoding what the encoder writes gives the command back, for every well-formed command. -/
def Obligations.DecodeInvertsEncode : Prop := ∀ i : Instr, i.WellFormed → decode (encode i) = .ok i

/-- Whatever the decoder answers is well-formed, has the word's OP, and has the command's payload; the word's RSVD is zero and
its payload has the length R71 asks for. -/
def Obligations.DecodedCommandsAreWellFormed : Prop :=
  ∀ (c : Command) (i : Instr), decode c = .ok i →
    i.WellFormed ∧ opcode i = opField c.word ∧ rsvdField c.word = 0 ∧ payloadOf i = c.payload ∧
      c.payload.length = payloadCount c.word

/-- 30_encoding.md R69 and 60_exceptions.md R246: a word with RSVD not zero or a reserved OP decodes to no command and is answered
ILLEGAL_COMMAND in every state, with no payload byte taken and nothing else changed; every other word is a command; the reserved values are
202. -/
def Obligations.IllegalWordsAnswered : Prop :=
  (∀ (w : Word128) (pay : List Byte), rsvdField w ≠ 0 ∨ ReservedOp (opField w).toNat → ∀ i, decode ⟨w, pay⟩ ≠ .ok i) ∧
  (∀ (s : State) (w : Word128) (rest : List Word128), s.rst = false → s.inFlight = none → s.cmd = w :: rest →
    rsvdField w ≠ 0 ∨ ReservedOp (opField w).toNat →
    step s = .next (respond { s with cmd := rest } ErrorKind.illegalCommand.code 0 [])) ∧
  (∀ (w : Word128) (pay : List Byte), rsvdField w = 0 → ¬ ReservedOp (opField w).toNat → pay.length = payloadCount w →
    ∃ i, decode ⟨w, pay⟩ = .ok i) ∧
  ((List.range 256).filter fun op => decide (ReservedOp op)).length = 202

/-- 30_encoding.md R70: the integer opcodes are built from R, P, WW and S, the float opcodes from R and D; every combination is a
command; the width each names is the width the command moves or bounds its count by. -/
def Obligations.OpcodesAreBuiltFromFields : Prop :=
  (∀ (i : Instr) (k : IntegerKind), integerKind i = some k →
    opcode i = (0b010#3 ++ BitVec.ofBool k.read ++ BitVec.ofBool k.part ++ k.widthCode ++ BitVec.ofBool k.signed : BitVec 8) ∧
    (k.part = false → bitsMoved i = some (8 <<< k.widthCode.toNat)) ∧
    (k.part = true → ∃ b, countOperand i = some (b, 8 <<< k.widthCode.toNat))) ∧
  (∀ (read part signed : Bool) (width : BitVec 2), ∃ i, integerKind i = some ⟨read, part, width, signed⟩) ∧
  (∀ (i : Instr) (k : Bool × Bool), floatKind i = some k →
    opcode i = (0b011000#6 ++ BitVec.ofBool k.1 ++ BitVec.ofBool k.2 : BitVec 8) ∧
    bitsMoved i = some (if k.2 then 64 else 32)) ∧
  (∀ read wide : Bool, ∃ i, floatKind i = some (read, wide))

/-- 30_encoding.md R75: the worked encoding example. -/
def Obligations.WorkedEncodingExample : Prop :=
  encode (.wrU32Part 839011 27) = ⟨0x00000000000CCD630000000000001B4C#128, []⟩ ∧
  opcode (.wrU32Part 839011 27) = 0x4C ∧ (27 : BitVec 8) = 0x1B ∧ (839011 : BitVec 64) = 0xCCD63 ∧
  decode ⟨0x00000000000CCD630000000000001B4C#128, []⟩ = .ok (.wrU32Part 839011 27) ∧
  assembleLine "WR_U32_PART 839011, 27".toList = .ok (some ⟨0x00000000000CCD630000000000001B4C#128, []⟩) ∧
  ∀ (s u : State) (rdata : BitVec 64) (payload : List Byte), Answers (.wrU32Part 839011 27) s u statusOk rdata payload →
    responseWord statusOk (BitVec.ofNat 32 payload.length) rdata = 0x00000000000000000000000000000000#128

/-- 30_encoding.md R74: REWIND assembles to SEEK 0. -/
def Obligations.RewindIsSeekZero : Prop :=
  assembleLine "REWIND".toList = .ok (some (encode (.seek 0))) ∧
  assembleLine "SEEK 0".toList = .ok (some (encode (.seek 0))) ∧
  ∀ row ∈ mnemonics, ∃ i : Instr, opcode i = row.2.1

/-! ## Buffer and cursor commands -/

/-- 40_buffer_cursor.md R91: CREATE up to MAX_BYTES makes a live Buffer of that many zero bytes with cursor 0, whatever Buffer there was;
above MAX_BYTES it answers ConstructionError and nothing changes. -/
def Obligations.CreateMakesZeroedBuffer : Prop :=
  ∀ (n : BitVec 64) (s : State),
    (n.toNat ≤ s.maxBytes →
      ∃ t, Answers (.create n) s t statusOk 0 [] ∧ t.live = true ∧ t.length = n.toNat ∧ t.cursor = 0 ∧
        (∀ p, Memory.read t.storage p = 0) ∧ ∀ g, t.bit g = false) ∧
    (n.toNat > s.maxBytes → Raises (.create n) .constructionError s)

/-- 40_buffer_cursor.md R92: INTO_BYTES returns all `length` bytes from index 0 on and leaves no Buffer. That no storage cell is left
listed is the model's choice (log 6): R92 does not clear storage, and 10_state.md R27 leaves its contents unspecified. -/
def Obligations.IntoBytesReturnsStorage : Prop :=
  ∀ s : State, s.live = true →
    exec .intoBytes s =
      .next (respond { s with live := false, length := 0, storage := [], cursor := 0 } statusOk 0
        ((List.range s.length).map (Memory.read s.storage)))

/-- 40_buffer_cursor.md R93, R94, R95: the accessors answer the cursor, the cursor divided by 8 rounding down, and 8 * length, as
64-bit numbers, and change nothing. -/
def Obligations.AccessorsAnswerPosition : Prop :=
  ∀ s : State, s.Inv → s.live = true →
    (∃ r : BitVec 64, exec .getBitPos s = .next (respond s statusOk r []) ∧ r.toNat = s.cursor) ∧
    (∃ r : BitVec 64, exec .getBytePos s = .next (respond s statusOk r []) ∧ r.toNat = s.cursor / 8) ∧
    (∃ r : BitVec 64, exec .getCapBits s = .next (respond s statusOk r []) ∧ r.toNat = 8 * s.length)

/-- 40_buffer_cursor.md R96: SEEK sets the cursor to any offset up to and including `8 * length` and changes nothing else; above it
answers OutOfBounds. -/
def Obligations.SeekSetsCursor : Prop :=
  ∀ (offset : BitVec 64) (s : State), s.live = true →
    (offset.toNat ≤ 8 * s.length →
      exec (.seek offset) s = .next (respond { s with cursor := offset.toNat } statusOk 0 [])) ∧
    (8 * s.length < offset.toNat → Raises (.seek offset) .outOfBounds s)

/-! ## Predicates -/

/-- 46_bounds_predicates.md R235, R236 (and the formulas of R231 to R234): each predicate answers 1 exactly when cursor plus the bits asked
for is at most `8 * length`, on naturals for every 64-bit operand, and changes nothing; the write and the read predicate are one function. -/
def Obligations.PredicatesAreExact : Prop :=
  (∀ (n : BitVec 64) (s : State), s.live = true →
    exec (.canWrBits n) s = .next (respond s statusOk (if s.cursor + n.toNat ≤ 8 * s.length then 1 else 0) []) ∧
    exec (.canWrBytes n) s = .next (respond s statusOk (if s.cursor + 8 * n.toNat ≤ 8 * s.length then 1 else 0) []) ∧
    exec (.canRdBits n) s = .next (respond s statusOk (if s.cursor + n.toNat ≤ 8 * s.length then 1 else 0) []) ∧
    exec (.canRdBytes n) s = .next (respond s statusOk (if s.cursor + 8 * n.toNat ≤ 8 * s.length then 1 else 0) [])) ∧
  (∀ (n : BitVec 64) (s : State),
    exec (.canRdBits n) s = exec (.canWrBits n) s ∧ exec (.canRdBytes n) s = exec (.canWrBytes n) s)

/-- 46_bounds_predicates.md R237: a command that moves `n` bits succeeds exactly when the predicate answers 1 for `n` and its own operand
checks pass; RD_STR also needs its body inside storage and valid. -/
def Obligations.PredicatesAgreeWithCommands : Prop :=
  ∀ (i : Instr) (n : Nat) (s : State), i.WellFormed → s.live = true → bitsMoved i = some n →
    ((∃ u rdata payload, Answers i s u statusOk rdata payload) ↔
      exec (.canWrBits (BitVec.ofNat 64 n)) s = .next (respond s statusOk 1 []) ∧ CountLegal i ∧
        (i = .rdStr → s.cursor + 32 + 8 * s.field s.cursor 32 ≤ 8 * s.length ∧
          Utf8Text (bytesAt s (s.cursor + 32) (s.field s.cursor 32)))) ∧
    (exec (.canWrBits (BitVec.ofNat 64 n)) s = .next (respond s statusOk 1 []) ↔
      exec (.canRdBits (BitVec.ofNat 64 n)) s = .next (respond s statusOk 1 []))

/-! ## Moving bits -/

/-- 41_bit_engine.md R118: WR_BITS writes the low NBITS bits of its byte. -/
def Obligations.WrBitsWritesField : Prop :=
  ∀ (v : Byte) (c : BitVec 8) (s : State), 1 ≤ c.toNat → c.toNat ≤ 8 → WritesField (.wrBits v c) c.toNat v.getLsbD s

/-- 41_bit_engine.md R119: RD_BITS reads the field, zero-extended. -/
def Obligations.RdBitsReadsField : Prop :=
  ∀ (c : BitVec 8) (s : State), 1 ≤ c.toNat → c.toNat ≤ 8 →
    ReadsField (.rdBits c) c.toNat (BitVec.ofNat 64 (s.field s.cursor c.toNat)) s

/-- 42_bool_codec.md R131, R132: a bool is one bit, 1 for true. -/
def Obligations.BoolIsOneBit : Prop :=
  (∀ (v : Bool) (s : State), WritesField (.wrBool v) 1 (fun _ => v) s) ∧
  (∀ s : State, ReadsField .rdBool 1 (if s.bit s.cursor then 1 else 0) s)

/-- 43_integer_codecs.md R151 to R158: a full-width write leaves the W bits of its value, least significant first, for signed and unsigned
types alike. -/
def Obligations.FullWidthWrites : Prop :=
  ∀ s : State,
    (∀ v, WritesField (.wrU8 v) 8 v.getLsbD s) ∧ (∀ v, WritesField (.wrI8 v) 8 v.getLsbD s) ∧
    (∀ v, WritesField (.wrU16 v) 16 v.getLsbD s) ∧ (∀ v, WritesField (.wrI16 v) 16 v.getLsbD s) ∧
    (∀ v, WritesField (.wrU32 v) 32 v.getLsbD s) ∧ (∀ v, WritesField (.wrI32 v) 32 v.getLsbD s) ∧
    (∀ v, WritesField (.wrU64 v) 64 v.getLsbD s) ∧ (∀ v, WritesField (.wrI64 v) 64 v.getLsbD s)

/-- 43_integer_codecs.md R159 to R166 with R149: a part-width write leaves the low NBITS bits of its value; the bits above them are dropped
without error. -/
def Obligations.PartWidthWrites : Prop :=
  ∀ (b : BitVec 8) (s : State), 1 ≤ b.toNat →
    (b.toNat ≤ 8 → ∀ v, WritesField (.wrU8Part v b) b.toNat v.getLsbD s ∧ WritesField (.wrI8Part v b) b.toNat v.getLsbD s) ∧
    (b.toNat ≤ 16 → ∀ v, WritesField (.wrU16Part v b) b.toNat v.getLsbD s ∧ WritesField (.wrI16Part v b) b.toNat v.getLsbD s) ∧
    (b.toNat ≤ 32 → ∀ v, WritesField (.wrU32Part v b) b.toNat v.getLsbD s ∧ WritesField (.wrI32Part v b) b.toNat v.getLsbD s) ∧
    (b.toNat ≤ 64 → ∀ v, WritesField (.wrU64Part v b) b.toNat v.getLsbD s ∧ WritesField (.wrI64Part v b) b.toNat v.getLsbD s)

/-- 43_integer_codecs.md R167, R169, R171, R173: an unsigned full-width read answers the field. -/
def Obligations.FullWidthUnsignedReads : Prop :=
  ∀ s : State,
    ReadsField .rdU8 8 (BitVec.ofNat 64 (s.field s.cursor 8)) s ∧
    ReadsField .rdU16 16 (BitVec.ofNat 64 (s.field s.cursor 16)) s ∧
    ReadsField .rdU32 32 (BitVec.ofNat 64 (s.field s.cursor 32)) s ∧
    ReadsField .rdU64 64 (BitVec.ofNat 64 (s.field s.cursor 64)) s

/-- 43_integer_codecs.md R168, R170, R172, R174: a signed full-width read answers the integer the field denotes in two's complement. -/
def Obligations.FullWidthSignedReads : Prop :=
  ∀ s : State,
    ReadsField .rdI8 8 (BitVec.ofInt 64 (signedOf 8 (s.field s.cursor 8))) s ∧
    ReadsField .rdI16 16 (BitVec.ofInt 64 (signedOf 16 (s.field s.cursor 16))) s ∧
    ReadsField .rdI32 32 (BitVec.ofInt 64 (signedOf 32 (s.field s.cursor 32))) s ∧
    ReadsField .rdI64 64 (BitVec.ofInt 64 (signedOf 64 (s.field s.cursor 64))) s

/-- 43_integer_codecs.md R175, R177, R179, R181: an unsigned part-width read answers the field, zero-extended. -/
def Obligations.PartWidthUnsignedReads : Prop :=
  ∀ (b : BitVec 8) (s : State), 1 ≤ b.toNat →
    (b.toNat ≤ 8 → ReadsField (.rdU8Part b) b.toNat (BitVec.ofNat 64 (s.field s.cursor b.toNat)) s) ∧
    (b.toNat ≤ 16 → ReadsField (.rdU16Part b) b.toNat (BitVec.ofNat 64 (s.field s.cursor b.toNat)) s) ∧
    (b.toNat ≤ 32 → ReadsField (.rdU32Part b) b.toNat (BitVec.ofNat 64 (s.field s.cursor b.toNat)) s) ∧
    (b.toNat ≤ 64 → ReadsField (.rdU64Part b) b.toNat (BitVec.ofNat 64 (s.field s.cursor b.toNat)) s)

/-- 43_integer_codecs.md R176, R178, R180, R182: a signed part-width read is signed in the type's width W, so below W bits it is the field
itself, never negative (R146: no sign extension from bit `b - 1`). -/
def Obligations.PartWidthSignedReads : Prop :=
  ∀ (b : BitVec 8) (s : State), 1 ≤ b.toNat →
    (b.toNat ≤ 8 → ReadsField (.rdI8Part b) b.toNat (BitVec.ofInt 64 (signedOf 8 (s.field s.cursor b.toNat))) s) ∧
    (b.toNat ≤ 16 → ReadsField (.rdI16Part b) b.toNat (BitVec.ofInt 64 (signedOf 16 (s.field s.cursor b.toNat))) s) ∧
    (b.toNat ≤ 32 → ReadsField (.rdI32Part b) b.toNat (BitVec.ofInt 64 (signedOf 32 (s.field s.cursor b.toNat))) s) ∧
    (b.toNat ≤ 64 → ReadsField (.rdI64Part b) b.toNat (BitVec.ofInt 64 (signedOf 64 (s.field s.cursor b.toNat))) s) ∧
    (∀ W, b.toNat < W → 0 ≤ signedOf W (s.field s.cursor b.toNat))

/-- 44_float_codecs.md R201, R202: a float write leaves the bits of its pattern. -/
def Obligations.FloatWrites : Prop :=
  ∀ s : State, (∀ v, WritesField (.wrF32 v) 32 v.getLsbD s) ∧ (∀ v, WritesField (.wrF64 v) 64 v.getLsbD s)

/-- 44_float_codecs.md R203, R204: a float read answers the pattern, zero-extended whatever its sign bit is. -/
def Obligations.FloatReads : Prop :=
  ∀ s : State,
    ReadsField .rdF32 32 (BitVec.ofNat 64 (s.field s.cursor 32)) s ∧
    ReadsField .rdF64 64 (BitVec.ofNat 64 (s.field s.cursor 64)) s

/-- 45_bytes_string_codecs.md R212: WR_BYTES leaves its payload, byte after byte, at any cursor. -/
def Obligations.WrBytesWritesPayload : Prop :=
  ∀ (payload : List Byte) (s : State),
    WritesField (.wrBytes payload) (8 * payload.length) (fun j => (payload.getD (j / 8) 0).getLsbD (j % 8)) s

/-- 45_bytes_string_codecs.md R213: RD_BYTES answers LEN bytes, byte `i` being `field(k + 8i, 8)`, and advances the cursor past them. -/
def Obligations.RdBytesReadsBytes : Prop :=
  ∀ (len : BitVec 32) (s : State), s.live = true → s.cursor + 8 * len.toNat ≤ 8 * s.length →
    exec (.rdBytes len) s =
      .next (respond { s with cursor := s.cursor + 8 * len.toNat } statusOk 0 (bytesAt s s.cursor len.toNat))

/-- 45_bytes_string_codecs.md R216: WR_STR leaves the 32-bit byte count and then its payload, which it does not examine. -/
def Obligations.WrStrWritesCountAndPayload : Prop :=
  ∀ (payload : List Byte) (s : State),
    WritesField (.wrStr payload) (32 + 8 * payload.length)
      (fun j => if j < 32 then payload.length.testBit j else (payload.getD ((j - 32) / 8) 0).getLsbD ((j - 32) % 8)) s

/-- 45_bytes_string_codecs.md R217: RD_STR with the prefix and the body inside storage and the body valid UTF-8 answers the body and advances
the cursor past it; storage is unchanged. -/
def Obligations.RdStrReadsValidText : Prop :=
  ∀ (s : State) (n : Nat), s.live = true → s.cursor + 32 ≤ 8 * s.length → n = s.field s.cursor 32 →
    s.cursor + 32 + 8 * n ≤ 8 * s.length → Utf8Text (bytesAt s (s.cursor + 32) n) →
    exec .rdStr s =
      .next (respond { s with cursor := s.cursor + 32 + 8 * n } statusOk 0 (bytesAt s (s.cursor + 32) n))

/-- 20_memory.md R42, the stream law: a write command that succeeds at cursor `k` leaves `field(k, n)` its value and the cursor at
`k + n`; a read command that succeeds answers `field(k, n)`, presented as its type says, and leaves the cursor at `k + n` and the
rest as it was. For RD_STR the field is the count and the text. -/
def Obligations.StreamLaw : Prop :=
  (∀ (i : Instr) (s u : State) (v n : Nat) (rdata : BitVec 64) (payload : List Byte),
    writtenValue i = some v → bitsMoved i = some n → Answers i s u statusOk rdata payload →
    u.field s.cursor n = v ∧ u.cursor = s.cursor + n) ∧
  (∀ (i : Instr) (s u : State) (n : Nat) (rdata : BitVec 64) (payload : List Byte),
    writtenValue i = none → bitsMoved i = some n → Answers i s u statusOk rdata payload →
    match i with
    | .rdStr =>
      u = { s with cursor := s.cursor + 32 + 8 * payload.length } ∧ rdata = 0 ∧
        s.field s.cursor (32 + 8 * payload.length) = payload.length + 2 ^ 32 * bytesValue payload
    | .rdBytes len =>
      u = { s with cursor := s.cursor + n } ∧ rdata = 0 ∧ payload.length = len.toNat ∧
        s.field s.cursor n = bytesValue payload
    | i => u = { s with cursor := s.cursor + n } ∧ rdata = presented i (s.field s.cursor n) ∧ payload = [])

/-- Two write commands one after the other leave both values, in adjacent fields, and every bit below them as it was (41_bit_engine.md
R116(b), R114's adjacency property). -/
def Obligations.AdjacentFieldsKeepBothValues : Prop :=
  ∀ (i j : Instr) (s : State) (v w n m : Nat),
    writtenValue i = some v → bitsMoved i = some n → CountLegal i →
    writtenValue j = some w → bitsMoved j = some m → CountLegal j →
    s.live = true → s.cursor + n + m ≤ 8 * s.length →
    ∃ u, OnlyBuffer s u ∧ execAll [i, j] s = .next (respond (respond u statusOk 0 []) statusOk 0 []) ∧
      u.field s.cursor n = v ∧ u.field (s.cursor + n) m = w ∧ u.cursor = s.cursor + n + m ∧
      ∀ g, g < s.cursor → u.bit g = s.bit g

/-- 41_bit_engine.md R121: where every bit at or above the cursor is 0 (a Buffer written front to back after CREATE), write commands one
after the other leave the concatenation of their fields, low bits first, followed by zeros. -/
def Obligations.FrontToBackIsConcatenation : Prop :=
  ∀ (program : List Instr) (s : State) (n v : Nat),
    streamOf program = some (n, v) → (∀ i ∈ program, CountLegal i) → s.live = true → s.cursor + n ≤ 8 * s.length →
    (∀ g, s.cursor ≤ g → g < 8 * s.length → s.bit g = false) →
    ∃ u, execAll program s = .next u ∧ u.cursor = s.cursor + n ∧ u.length = s.length ∧
      u.field s.cursor (8 * s.length - s.cursor) = v ∧ (∀ g, g < s.cursor → u.bit g = s.bit g) ∧
      (∀ g, s.cursor + n ≤ g → g < 8 * s.length → u.bit g = false)

/-- 43_integer_codecs.md R183: write, seek back, read with the command of the same type. Unsigned: `v mod 2^b`; signed:
`signed_W(pattern_W(v) mod 2^b)`; full width is `b = W`. -/
def Obligations.IntegerRoundTrip : Prop :=
  (∀ v : BitVec 8, RoundTrip (.wrU8 v) .rdU8 8 (BitVec.ofNat 64 v.toNat) ∧ RoundTrip (.wrI8 v) .rdI8 8 (BitVec.ofInt 64 v.toInt)) ∧
  (∀ v : BitVec 16, RoundTrip (.wrU16 v) .rdU16 16 (BitVec.ofNat 64 v.toNat) ∧ RoundTrip (.wrI16 v) .rdI16 16 (BitVec.ofInt 64 v.toInt)) ∧
  (∀ v : BitVec 32, RoundTrip (.wrU32 v) .rdU32 32 (BitVec.ofNat 64 v.toNat) ∧ RoundTrip (.wrI32 v) .rdI32 32 (BitVec.ofInt 64 v.toInt)) ∧
  (∀ v : BitVec 64, RoundTrip (.wrU64 v) .rdU64 64 (BitVec.ofNat 64 v.toNat) ∧ RoundTrip (.wrI64 v) .rdI64 64 (BitVec.ofInt 64 v.toInt)) ∧
  (∀ b : BitVec 8, 1 ≤ b.toNat →
    (b.toNat ≤ 8 → ∀ v : BitVec 8,
      RoundTrip (.wrU8Part v b) (.rdU8Part b) b.toNat (BitVec.ofNat 64 (v.toNat % 2 ^ b.toNat)) ∧
      RoundTrip (.wrI8Part v b) (.rdI8Part b) b.toNat (BitVec.ofInt 64 (signedOf 8 (v.toNat % 2 ^ b.toNat)))) ∧
    (b.toNat ≤ 16 → ∀ v : BitVec 16,
      RoundTrip (.wrU16Part v b) (.rdU16Part b) b.toNat (BitVec.ofNat 64 (v.toNat % 2 ^ b.toNat)) ∧
      RoundTrip (.wrI16Part v b) (.rdI16Part b) b.toNat (BitVec.ofInt 64 (signedOf 16 (v.toNat % 2 ^ b.toNat)))) ∧
    (b.toNat ≤ 32 → ∀ v : BitVec 32,
      RoundTrip (.wrU32Part v b) (.rdU32Part b) b.toNat (BitVec.ofNat 64 (v.toNat % 2 ^ b.toNat)) ∧
      RoundTrip (.wrI32Part v b) (.rdI32Part b) b.toNat (BitVec.ofInt 64 (signedOf 32 (v.toNat % 2 ^ b.toNat)))) ∧
    (b.toNat ≤ 64 → ∀ v : BitVec 64,
      RoundTrip (.wrU64Part v b) (.rdU64Part b) b.toNat (BitVec.ofNat 64 (v.toNat % 2 ^ b.toNat)) ∧
      RoundTrip (.wrI64Part v b) (.rdI64Part b) b.toNat (BitVec.ofInt 64 (signedOf 64 (v.toNat % 2 ^ b.toNat))))) ∧
  (∀ (W b : Nat) (v : BitVec W), 1 ≤ b → b ≤ W →
    (signedOf W (v.toNat % 2 ^ b) = v.toInt ↔ b = W ∨ (0 ≤ v.toInt ∧ v.toInt < 2 ^ b)))

/-- 44_float_codecs.md R205 and the bool codec: float patterns, bits and bools are read back bit for bit. -/
def Obligations.PatternRoundTrip : Prop :=
  (∀ v : BitVec 32, RoundTrip (.wrF32 v) .rdF32 32 (v.setWidth 64)) ∧
  (∀ v : BitVec 64, RoundTrip (.wrF64 v) .rdF64 64 v) ∧
  (∀ v : Bool, RoundTrip (.wrBool v) .rdBool 1 (if v then 1 else 0)) ∧
  (∀ (v c : BitVec 8), 1 ≤ c.toNat → c.toNat ≤ 8 →
    RoundTrip (.wrBits v c) (.rdBits c) c.toNat (BitVec.ofNat 64 (v.toNat % 2 ^ c.toNat)))

/-- 45_bytes_string_codecs.md R218: a valid text written, sought back to and read gives RLEN its length and itself as payload. -/
def Obligations.StringRoundTrip : Prop :=
  ∀ (text : List Byte) (s : State), s.Inv → s.live = true → Utf8Text text →
    s.cursor + 32 + 8 * text.length ≤ 8 * s.length →
    ∃ t, OnlyBuffer s t ∧ t.cursor = s.cursor + 32 + 8 * text.length ∧
      execAll [.wrStr text, .seek (BitVec.ofNat 64 s.cursor), .rdStr] s =
        .next (respond (respond (respond t statusOk 0 []) statusOk 0 []) statusOk 0 text) ∧
      (BitVec.ofNat 32 text.length).toNat = text.length

/-- 45_bytes_string_codecs.md R215: `utf8_valid` is true exactly of the concatenations of the table's patterns; with the consequences the
rule lists. -/
def Obligations.Utf8ValidIsTheTable : Prop :=
  (∀ bytes : List Byte, utf8Valid bytes = true ↔ Utf8Text bytes) ∧
  utf8Valid [] = true ∧ utf8Valid [0x00] = true ∧
  (∀ (a b : List Byte), utf8Valid a = true → utf8Valid (a ++ b) = utf8Valid b) ∧
  (∀ (bytes : List Byte) (b : Byte), b ∈ bytes → b = 0xC0 ∨ b = 0xC1 ∨ 0xF5 ≤ b.toNat → utf8Valid bytes = false) ∧
  (∀ (b : Byte) (rest : List Byte), Between 0x80 0xBF b → utf8Valid (b :: rest) = false) ∧
  (∀ (rest : List Byte),
    utf8Valid (0xC0 :: 0x80 :: rest) = false ∧ utf8Valid (0xE0 :: 0x80 :: 0x80 :: rest) = false ∧
    utf8Valid (0xF0 :: 0x80 :: 0x80 :: 0x80 :: rest) = false ∧ utf8Valid (0xF4 :: 0x90 :: 0x80 :: 0x80 :: rest) = false) ∧
  (∀ (b : Byte) (rest : List Byte), Between 0xA0 0xBF b → utf8Valid (0xED :: b :: rest) = false) ∧
  (∀ (a b c : Byte), (Between 0xC2 0xF4 a → utf8Valid [a] = false) ∧ (Between 0xE0 0xF4 a → utf8Valid [a, b] = false) ∧
    (Between 0xF0 0xF4 a → utf8Valid [a, b, c] = false))

/-! ## Commands with one meaning -/

/-- 43_integer_codecs.md R146, R159, R175, 44_float_codecs.md R200: signed and unsigned writes of one width, a part-width command at full width
and the full-width command, WR_BITS and WR_U8_PART, RD_BITS and RD_U8_PART, and the float commands and WR_U32, WR_U64, RD_U32, RD_U64 have
the same effect and the same answer in every state. -/
def Obligations.SameEffectCommands : Prop :=
  ∀ s : State,
    (∀ v, exec (.wrI8 v) s = exec (.wrU8 v) s) ∧ (∀ v, exec (.wrI16 v) s = exec (.wrU16 v) s) ∧
    (∀ v, exec (.wrI32 v) s = exec (.wrU32 v) s) ∧ (∀ v, exec (.wrI64 v) s = exec (.wrU64 v) s) ∧
    (∀ v b, exec (.wrI8Part v b) s = exec (.wrU8Part v b) s) ∧ (∀ v b, exec (.wrI16Part v b) s = exec (.wrU16Part v b) s) ∧
    (∀ v b, exec (.wrI32Part v b) s = exec (.wrU32Part v b) s) ∧ (∀ v b, exec (.wrI64Part v b) s = exec (.wrU64Part v b) s) ∧
    (∀ v, exec (.wrU8Part v 8) s = exec (.wrU8 v) s) ∧ (∀ v, exec (.wrU16Part v 16) s = exec (.wrU16 v) s) ∧
    (∀ v, exec (.wrU32Part v 32) s = exec (.wrU32 v) s) ∧ (∀ v, exec (.wrU64Part v 64) s = exec (.wrU64 v) s) ∧
    (exec (.rdU8Part 8) s = exec .rdU8 s ∧ exec (.rdI8Part 8) s = exec .rdI8 s) ∧
    (exec (.rdU16Part 16) s = exec .rdU16 s ∧ exec (.rdI16Part 16) s = exec .rdI16 s) ∧
    (exec (.rdU32Part 32) s = exec .rdU32 s ∧ exec (.rdI32Part 32) s = exec .rdI32 s) ∧
    (exec (.rdU64Part 64) s = exec .rdU64 s ∧ exec (.rdI64Part 64) s = exec .rdI64 s) ∧
    (∀ v c, exec (.wrU8Part v c) s = exec (.wrBits v c) s) ∧ (∀ c, exec (.rdU8Part c) s = exec (.rdBits c) s) ∧
    (∀ v, exec (.wrF32 v) s = exec (.wrU32 v) s) ∧ (∀ v, exec (.wrF64 v) s = exec (.wrU64 v) s) ∧
    exec .rdF32 s = exec .rdU32 s ∧ exec .rdF64 s = exec .rdU64 s

/-- 45_bytes_string_codecs.md R214, R216: with room for all of it, WR_STR leaves the state that WR_U32 of the byte count followed by WR_BYTES of
the payload leaves. -/
def Obligations.WrStrIsCountThenBytes : Prop :=
  ∀ (payload : List Byte) (s : State), s.live = true → s.cursor + 32 + 8 * payload.length ≤ 8 * s.length →
    ∃ t, OnlyBuffer s t ∧ exec (.wrStr payload) s = .next (respond t statusOk 0 []) ∧
      execAll [.wrU32 (BitVec.ofNat 32 payload.length), .wrBytes payload] s =
        .next (respond (respond t statusOk 0 []) statusOk 0 [])

/-! ## Errors -/

/-- 60_exceptions.md R241: a command answers OutOfBounds exactly under the conditions of the table (on a live Buffer, R248), all sums exact; no
other command does. -/
def Obligations.OutOfBoundsExactly : Prop :=
  ∀ (i : Instr) (s : State), Raises i .outOfBounds s ↔ s.live = true ∧ OutOfBoundsCondition i s

/-- 60_exceptions.md R242: only RD_STR answers InvalidEncoding, exactly when both bounds checks passed and the bytes are not valid UTF-8. -/
def Obligations.InvalidEncodingExactly : Prop :=
  ∀ (i : Instr) (s : State), Raises i .invalidEncoding s ↔
    i = .rdStr ∧ s.live = true ∧ s.cursor + 32 ≤ 8 * s.length ∧
      s.cursor + 32 + 8 * s.field s.cursor 32 ≤ 8 * s.length ∧
      ¬ Utf8Text (bytesAt s (s.cursor + 32) (s.field s.cursor 32))

/-- 60_exceptions.md R244: only CREATE answers ConstructionError, exactly when its byte length is above MAX_BYTES. -/
def Obligations.ConstructionErrorExactly : Prop :=
  ∀ (i : Instr) (s : State), Raises i .constructionError s ↔ ∃ n, i = .create n ∧ n.toNat > s.maxBytes

/-- 60_exceptions.md R247: every command except CREATE answers NO_BUFFER when `live = 0`, and none otherwise; `live` is 0 after reset and after
INTO_BYTES, and only a CREATE that succeeds makes it 1. -/
def Obligations.NoBufferExactly : Prop :=
  (∀ (i : Instr) (s : State), Raises i .noBuffer s ↔ s.live = false ∧ ∀ n, i ≠ .create n) ∧
  (∀ n, (State.resetOf n).live = false) ∧
  (∀ s t : State, exec .intoBytes s = .next t → t.live = false) ∧
  (∀ (i : Instr) (s t : State), exec i s = .next t → s.live = false → t.live = true →
    ∃ n, i = .create n ∧ n.toNat ≤ s.maxBytes) ∧
  (∀ (i : Instr) (s t : State), exec i s = .next t → s.live = true → t.live = false → i = .intoBytes)

/-- 00_scope.md R10, 20_memory.md R47, 60_exceptions.md R249, R253: every command, in every state, answers exactly once, with a status its row
of the table of R253 allows; an answer other than OK leaves the state as it was, with no data and no payload. -/
def Obligations.ErrorsChangeNothing : Prop :=
  ∀ (i : Instr) (s : State), ∃ u status rdata payload,
    Answers i s u status rdata payload ∧ status ∈ mayAnswer i ∧
    (status ≠ statusOk → u = s ∧ rdata = 0 ∧ payload = [])

/-- 60_exceptions.md R252: the command after a failed one executes as if the failed one had not been issued: the same answer and the same state,
but for the failed command's own response before it. -/
def Obligations.ErrorsAreNotSticky : Prop :=
  ∀ (i j : Instr) (e : ErrorKind) (s : State), Raises i e s →
    ∃ u status rdata payload, Answers j s u status rdata payload ∧
      execAll [i, j] s = .next (respond (respond u e.code 0 []) status rdata payload)

/-- 30_encoding.md R64: the fields of every response: one word, bits 31:8 zero, RLEN the number of payload bytes, no payload but from three
commands, and nothing but STATUS when the command failed. -/
def Obligations.ResponseWordFields : Prop :=
  (∀ (i : Instr) (s t : State), s.Inv → exec i s = .next t →
    ∃ (r : Word128) (payload : List Byte), t.rsp = s.rsp ++ [r] ∧ t.rp = s.rp ++ payload ∧
      r.extractLsb' 8 24 = 0#24 ∧ (r.extractLsb' 32 32).toNat = payload.length ∧
      (statusOf r ≠ 0 → payload = [] ∧ rdataOf r = 0 ∧ r.extractLsb' 32 32 = 0#32) ∧
      (payload ≠ [] → i = .intoBytes ∨ i = .rdStr ∨ ∃ n, i = .rdBytes n)) ∧
  (∀ (status : BitVec 8) (rlen : BitVec 32) (rdata : BitVec 64),
    statusOf (responseWord status rlen rdata) = status ∧ (responseWord status rlen rdata).extractLsb' 8 24 = 0#24 ∧
    (responseWord status rlen rdata).extractLsb' 32 32 = rlen ∧ rdataOf (responseWord status rlen rdata) = rdata)

/-! ## What commands read and change -/

/-- 00_scope.md R7, 10_state.md R20, R30, R33: a command reads nothing but the Buffer and MAX_BYTES: in two states with the same Buffer it gives the
same answer and leaves the same Buffer, whatever was answered before and whatever waits on the channels. -/
def Obligations.CommandsReadOnlyTheBuffer : Prop :=
  ∀ (i : Instr) (s t : State), SameBuffer s t →
    ∃ u v status rdata payload,
      Answers i s u status rdata payload ∧ Answers i t v status rdata payload ∧ SameBuffer u v

/-- 10_state.md R22, R23, 20_memory.md R48: storage is changed only by CREATE and the write commands, and in the model by INTO_BYTES, which
leaves no cell listed (the model's choice, log 6; R23 does not list INTO_BYTES); length and live only by CREATE and INTO_BYTES; the accessors and predicates change nothing of the Buffer; no command changes MAX_BYTES, the reset input or what waits on the
channels. -/
def Obligations.OnlyTheseCommandsChangeState : Prop :=
  ∀ (i : Instr) (s t : State), exec i s = .next t →
    (changesStorage i = false → t.storage = s.storage) ∧
    (i ≠ .intoBytes → (∀ n, i ≠ .create n) → t.length = s.length ∧ t.live = s.live) ∧
    (i = .getBitPos ∨ i = .getBytePos ∨ i = .getCapBits ∨
      (∃ n, i = .canWrBits n ∨ i = .canRdBits n ∨ i = .canWrBytes n ∨ i = .canRdBytes n) → SameBuffer s t) ∧
    t.maxBytes = s.maxBytes ∧ t.rst = s.rst ∧ t.cmd = s.cmd ∧ t.wp = s.wp ∧ t.inFlight = s.inFlight

/-- 10_state.md R25: no command moves the cursor backwards except SEEK, CREATE and INTO_BYTES, and a transfer that succeeds advances it by
exactly the bits of 20_memory.md R46. -/
def Obligations.CursorOnlyAdvances : Prop :=
  (∀ (i : Instr) (s t : State), exec i s = .next t →
    i ≠ .intoBytes → (∀ n, i ≠ .create n) → (∀ n, i ≠ .seek n) → s.cursor ≤ t.cursor) ∧
  (∀ (i : Instr) (s u : State) (n : Nat) (rdata : BitVec 64) (payload : List Byte),
    bitsMoved i = some n → i ≠ .rdStr → Answers i s u statusOk rdata payload → u.cursor = s.cursor + n) ∧
  (∀ (s u : State) (rdata : BitVec 64) (payload : List Byte),
    Answers .rdStr s u statusOk rdata payload → u.cursor = s.cursor + 32 + 8 * s.field s.cursor 32)
end

