-- ==== Sys2Proof/Laws/State.lean ====
section
/-! SUPPORT. One lemma per field per update of the state, so that no proof unfolds a record update. -/

namespace Sys2Proof.Machine

variable (s : State)

@[simp] theorem setByte_maxBytes (p : Nat) (v : Byte) : (setByte s p v).maxBytes = s.maxBytes := rfl
@[simp] theorem setByte_live (p : Nat) (v : Byte) : (setByte s p v).live = s.live := rfl
@[simp] theorem setByte_length (p : Nat) (v : Byte) : (setByte s p v).length = s.length := rfl
@[simp] theorem setByte_storage (p : Nat) (v : Byte) : (setByte s p v).storage = Memory.write s.storage p v := rfl
@[simp] theorem setByte_cursor (p : Nat) (v : Byte) : (setByte s p v).cursor = s.cursor := rfl
@[simp] theorem setByte_rst (p : Nat) (v : Byte) : (setByte s p v).rst = s.rst := rfl
@[simp] theorem setByte_cmd (p : Nat) (v : Byte) : (setByte s p v).cmd = s.cmd := rfl
@[simp] theorem setByte_wp (p : Nat) (v : Byte) : (setByte s p v).wp = s.wp := rfl
@[simp] theorem setByte_inFlight (p : Nat) (v : Byte) : (setByte s p v).inFlight = s.inFlight := rfl
@[simp] theorem setByte_rsp (p : Nat) (v : Byte) : (setByte s p v).rsp = s.rsp := rfl
@[simp] theorem setByte_rp (p : Nat) (v : Byte) : (setByte s p v).rp = s.rp := rfl

@[simp] theorem respond_maxBytes (st : BitVec 8) (d : BitVec 64) (pay : List Byte) : (respond s st d pay).maxBytes = s.maxBytes := rfl
@[simp] theorem respond_live (st : BitVec 8) (d : BitVec 64) (pay : List Byte) : (respond s st d pay).live = s.live := rfl
@[simp] theorem respond_length (st : BitVec 8) (d : BitVec 64) (pay : List Byte) : (respond s st d pay).length = s.length := rfl
@[simp] theorem respond_storage (st : BitVec 8) (d : BitVec 64) (pay : List Byte) : (respond s st d pay).storage = s.storage := rfl
@[simp] theorem respond_cursor (st : BitVec 8) (d : BitVec 64) (pay : List Byte) : (respond s st d pay).cursor = s.cursor := rfl
@[simp] theorem respond_rst (st : BitVec 8) (d : BitVec 64) (pay : List Byte) : (respond s st d pay).rst = s.rst := rfl
@[simp] theorem respond_cmd (st : BitVec 8) (d : BitVec 64) (pay : List Byte) : (respond s st d pay).cmd = s.cmd := rfl
@[simp] theorem respond_wp (st : BitVec 8) (d : BitVec 64) (pay : List Byte) : (respond s st d pay).wp = s.wp := rfl
@[simp] theorem respond_inFlight (st : BitVec 8) (d : BitVec 64) (pay : List Byte) : (respond s st d pay).inFlight = s.inFlight := rfl
@[simp] theorem respond_rsp (st : BitVec 8) (d : BitVec 64) (pay : List Byte) : (respond s st d pay).rsp = s.rsp ++ [responseWord st (BitVec.ofNat 32 pay.length) d] := rfl
@[simp] theorem respond_rp (st : BitVec 8) (d : BitVec 64) (pay : List Byte) : (respond s st d pay).rp = s.rp ++ pay := rfl

@[simp] theorem advance_maxBytes (n : Nat) : (advance s n).maxBytes = s.maxBytes := rfl
@[simp] theorem advance_live (n : Nat) : (advance s n).live = s.live := rfl
@[simp] theorem advance_length (n : Nat) : (advance s n).length = s.length := rfl
@[simp] theorem advance_storage (n : Nat) : (advance s n).storage = s.storage := rfl
@[simp] theorem advance_cursor (n : Nat) : (advance s n).cursor = s.cursor + n := rfl
@[simp] theorem advance_rst (n : Nat) : (advance s n).rst = s.rst := rfl
@[simp] theorem advance_cmd (n : Nat) : (advance s n).cmd = s.cmd := rfl
@[simp] theorem advance_wp (n : Nat) : (advance s n).wp = s.wp := rfl
@[simp] theorem advance_inFlight (n : Nat) : (advance s n).inFlight = s.inFlight := rfl
@[simp] theorem advance_rsp (n : Nat) : (advance s n).rsp = s.rsp := rfl
@[simp] theorem advance_rp (n : Nat) : (advance s n).rp = s.rp := rfl

@[simp] theorem moveCursor_maxBytes (n : Nat) : (moveCursor s n).maxBytes = s.maxBytes := rfl
@[simp] theorem moveCursor_live (n : Nat) : (moveCursor s n).live = s.live := rfl
@[simp] theorem moveCursor_length (n : Nat) : (moveCursor s n).length = s.length := rfl
@[simp] theorem moveCursor_storage (n : Nat) : (moveCursor s n).storage = s.storage := rfl
@[simp] theorem moveCursor_cursor (n : Nat) : (moveCursor s n).cursor = n := rfl
@[simp] theorem moveCursor_rst (n : Nat) : (moveCursor s n).rst = s.rst := rfl
@[simp] theorem moveCursor_cmd (n : Nat) : (moveCursor s n).cmd = s.cmd := rfl
@[simp] theorem moveCursor_wp (n : Nat) : (moveCursor s n).wp = s.wp := rfl
@[simp] theorem moveCursor_inFlight (n : Nat) : (moveCursor s n).inFlight = s.inFlight := rfl
@[simp] theorem moveCursor_rsp (n : Nat) : (moveCursor s n).rsp = s.rsp := rfl
@[simp] theorem moveCursor_rp (n : Nat) : (moveCursor s n).rp = s.rp := rfl

@[simp] theorem makeBuffer_maxBytes (n : Nat) : (makeBuffer s n).maxBytes = s.maxBytes := rfl
@[simp] theorem makeBuffer_live (n : Nat) : (makeBuffer s n).live = true := rfl
@[simp] theorem makeBuffer_length (n : Nat) : (makeBuffer s n).length = n := rfl
@[simp] theorem makeBuffer_storage (n : Nat) : (makeBuffer s n).storage = [] := rfl
@[simp] theorem makeBuffer_cursor (n : Nat) : (makeBuffer s n).cursor = 0 := rfl
@[simp] theorem makeBuffer_rst (n : Nat) : (makeBuffer s n).rst = s.rst := rfl
@[simp] theorem makeBuffer_cmd (n : Nat) : (makeBuffer s n).cmd = s.cmd := rfl
@[simp] theorem makeBuffer_wp (n : Nat) : (makeBuffer s n).wp = s.wp := rfl
@[simp] theorem makeBuffer_inFlight (n : Nat) : (makeBuffer s n).inFlight = s.inFlight := rfl
@[simp] theorem makeBuffer_rsp (n : Nat) : (makeBuffer s n).rsp = s.rsp := rfl
@[simp] theorem makeBuffer_rp (n : Nat) : (makeBuffer s n).rp = s.rp := rfl

@[simp] theorem dropBuffer_maxBytes : (dropBuffer s).maxBytes = s.maxBytes := rfl
@[simp] theorem dropBuffer_live : (dropBuffer s).live = false := rfl
@[simp] theorem dropBuffer_length : (dropBuffer s).length = 0 := rfl
@[simp] theorem dropBuffer_storage : (dropBuffer s).storage = [] := rfl
@[simp] theorem dropBuffer_cursor : (dropBuffer s).cursor = 0 := rfl
@[simp] theorem dropBuffer_rst : (dropBuffer s).rst = s.rst := rfl
@[simp] theorem dropBuffer_cmd : (dropBuffer s).cmd = s.cmd := rfl
@[simp] theorem dropBuffer_wp : (dropBuffer s).wp = s.wp := rfl
@[simp] theorem dropBuffer_inFlight : (dropBuffer s).inFlight = s.inFlight := rfl
@[simp] theorem dropBuffer_rsp : (dropBuffer s).rsp = s.rsp := rfl
@[simp] theorem dropBuffer_rp : (dropBuffer s).rp = s.rp := rfl

@[simp] theorem resetBlock_maxBytes : (resetBlock s).maxBytes = s.maxBytes := rfl
@[simp] theorem resetBlock_live : (resetBlock s).live = false := rfl
@[simp] theorem resetBlock_length : (resetBlock s).length = 0 := rfl
@[simp] theorem resetBlock_storage : (resetBlock s).storage = [] := rfl
@[simp] theorem resetBlock_cursor : (resetBlock s).cursor = 0 := rfl
@[simp] theorem resetBlock_rst : (resetBlock s).rst = s.rst := rfl
@[simp] theorem resetBlock_cmd : (resetBlock s).cmd = s.cmd := rfl
@[simp] theorem resetBlock_wp : (resetBlock s).wp = s.wp := rfl
@[simp] theorem resetBlock_inFlight : (resetBlock s).inFlight = none := rfl
@[simp] theorem resetBlock_rsp : (resetBlock s).rsp = s.rsp := rfl
@[simp] theorem resetBlock_rp : (resetBlock s).rp = s.rp := rfl

@[simp] theorem takeWord_maxBytes (rest : List Word128) : (takeWord s rest).maxBytes = s.maxBytes := rfl
@[simp] theorem takeWord_live (rest : List Word128) : (takeWord s rest).live = s.live := rfl
@[simp] theorem takeWord_length (rest : List Word128) : (takeWord s rest).length = s.length := rfl
@[simp] theorem takeWord_storage (rest : List Word128) : (takeWord s rest).storage = s.storage := rfl
@[simp] theorem takeWord_cursor (rest : List Word128) : (takeWord s rest).cursor = s.cursor := rfl
@[simp] theorem takeWord_rst (rest : List Word128) : (takeWord s rest).rst = s.rst := rfl
@[simp] theorem takeWord_cmd (rest : List Word128) : (takeWord s rest).cmd = rest := rfl
@[simp] theorem takeWord_wp (rest : List Word128) : (takeWord s rest).wp = s.wp := rfl
@[simp] theorem takeWord_inFlight (rest : List Word128) : (takeWord s rest).inFlight = s.inFlight := rfl
@[simp] theorem takeWord_rsp (rest : List Word128) : (takeWord s rest).rsp = s.rsp := rfl
@[simp] theorem takeWord_rp (rest : List Word128) : (takeWord s rest).rp = s.rp := rfl

@[simp] theorem takePayload_maxBytes (n : Nat) : (takePayload s n).maxBytes = s.maxBytes := rfl
@[simp] theorem takePayload_live (n : Nat) : (takePayload s n).live = s.live := rfl
@[simp] theorem takePayload_length (n : Nat) : (takePayload s n).length = s.length := rfl
@[simp] theorem takePayload_storage (n : Nat) : (takePayload s n).storage = s.storage := rfl
@[simp] theorem takePayload_cursor (n : Nat) : (takePayload s n).cursor = s.cursor := rfl
@[simp] theorem takePayload_rst (n : Nat) : (takePayload s n).rst = s.rst := rfl
@[simp] theorem takePayload_cmd (n : Nat) : (takePayload s n).cmd = s.cmd := rfl
@[simp] theorem takePayload_wp (n : Nat) : (takePayload s n).wp = s.wp.drop n := rfl
@[simp] theorem takePayload_inFlight (n : Nat) : (takePayload s n).inFlight = none := rfl
@[simp] theorem takePayload_rsp (n : Nat) : (takePayload s n).rsp = s.rsp := rfl
@[simp] theorem takePayload_rp (n : Nat) : (takePayload s n).rp = s.rp := rfl

@[simp] theorem holdPayload_maxBytes (w : Word128) (got : List Byte) : (holdPayload s w got).maxBytes = s.maxBytes := rfl
@[simp] theorem holdPayload_live (w : Word128) (got : List Byte) : (holdPayload s w got).live = s.live := rfl
@[simp] theorem holdPayload_length (w : Word128) (got : List Byte) : (holdPayload s w got).length = s.length := rfl
@[simp] theorem holdPayload_storage (w : Word128) (got : List Byte) : (holdPayload s w got).storage = s.storage := rfl
@[simp] theorem holdPayload_cursor (w : Word128) (got : List Byte) : (holdPayload s w got).cursor = s.cursor := rfl
@[simp] theorem holdPayload_rst (w : Word128) (got : List Byte) : (holdPayload s w got).rst = s.rst := rfl
@[simp] theorem holdPayload_cmd (w : Word128) (got : List Byte) : (holdPayload s w got).cmd = s.cmd := rfl
@[simp] theorem holdPayload_wp (w : Word128) (got : List Byte) : (holdPayload s w got).wp = [] := rfl
@[simp] theorem holdPayload_inFlight (w : Word128) (got : List Byte) : (holdPayload s w got).inFlight = some { word := w, taken := got ++ s.wp } := rfl
@[simp] theorem holdPayload_rsp (w : Word128) (got : List Byte) : (holdPayload s w got).rsp = s.rsp := rfl
@[simp] theorem holdPayload_rp (w : Word128) (got : List Byte) : (holdPayload s w got).rp = s.rp := rfl

@[simp] theorem offer_maxBytes (cs : List Command) : (offer s cs).maxBytes = s.maxBytes := rfl
@[simp] theorem offer_live (cs : List Command) : (offer s cs).live = s.live := rfl
@[simp] theorem offer_length (cs : List Command) : (offer s cs).length = s.length := rfl
@[simp] theorem offer_storage (cs : List Command) : (offer s cs).storage = s.storage := rfl
@[simp] theorem offer_cursor (cs : List Command) : (offer s cs).cursor = s.cursor := rfl
@[simp] theorem offer_rst (cs : List Command) : (offer s cs).rst = s.rst := rfl
@[simp] theorem offer_cmd (cs : List Command) : (offer s cs).cmd = s.cmd ++ cs.map (·.word) := rfl
@[simp] theorem offer_wp (cs : List Command) : (offer s cs).wp = s.wp ++ (cs.map (·.payload)).flatten := rfl
@[simp] theorem offer_inFlight (cs : List Command) : (offer s cs).inFlight = s.inFlight := rfl
@[simp] theorem offer_rsp (cs : List Command) : (offer s cs).rsp = s.rsp := rfl
@[simp] theorem offer_rp (cs : List Command) : (offer s cs).rp = s.rp := rfl

end Sys2Proof.Machine
end

