-- ==== Sys2Proof/Laws/Memory.lean ====
section
/-! SUPPORT. The laws of storage: a byte reads as it was last written, a write leaves every other byte alone,
and every write keeps the canonical form. -/

namespace Sys2Proof.Machine

@[simp] theorem read_nil (p : Nat) : Memory.read [] p = 0 := rfl

theorem read_cons (k : Nat) (b : Byte) (m : List Host.Cell) (p : Nat) :
    Memory.read ((k, b) :: m) p = if k = p then b else Memory.read m p := rfl

theorem read_erase (m : List Host.Cell) (p q : Nat) :
    Memory.read (Memory.erase m p) q = if q = p then 0 else Memory.read m q := by
  induction m with
  | nil => simp [Memory.erase]
  | cons c m ih =>
    obtain ⟨k, b⟩ := c
    by_cases hk : k = p
    · subst hk
      simp only [Memory.erase, if_true, ih, read_cons]
      split
      · rfl
      · rw [if_neg (by omega)]
    · simp only [Memory.erase, hk, if_false, read_cons, ih]
      split
      · rw [if_neg (by omega)]
      · rfl

theorem read_insert (m : List Host.Cell) (p q : Nat) (v : Byte) (h : Memory.read m q = 0 ∨ q ≠ p)
    (fresh : ∀ c ∈ m, c.1 ≠ p) :
    Memory.read (Memory.insert m p v) q = if q = p then v else Memory.read m q := by
  induction m with
  | nil =>
    simp only [Memory.insert, read_cons, read_nil, eq_comm]
  | cons c m ih =>
    obtain ⟨k, b⟩ := c
    have hk : k ≠ p := fresh (k, b) (by simp)
    simp only [Memory.insert]
    split
    · simp only [read_cons, eq_comm (a := p)]
    · by_cases hq : k = q
      · subst hq
        simp [read_cons, hk]
      · have : Memory.read m q = 0 ∨ q ≠ p := by simpa [read_cons, hq] using h
        simp only [read_cons, hq, if_false]
        exact ih this fun c hc => fresh c (by simp [hc])

theorem erase_mem {m : List Host.Cell} {p : Nat} {c : Host.Cell} (h : c ∈ Memory.erase m p) : c ∈ m ∧ c.1 ≠ p := by
  induction m with
  | nil => simp [Memory.erase] at h
  | cons d m ih =>
    obtain ⟨k, b⟩ := d
    simp only [Memory.erase] at h
    split at h
    · exact ⟨List.mem_cons_of_mem _ (ih h).1, (ih h).2⟩
    · rcases List.mem_cons.1 h with rfl | h
      · exact ⟨by simp, by assumption⟩
      · exact ⟨List.mem_cons_of_mem _ (ih h).1, (ih h).2⟩

theorem insert_mem {m : List Host.Cell} {p : Nat} {v : Byte} {c : Host.Cell} (h : c ∈ Memory.insert m p v) :
    c = (p, v) ∨ c ∈ m := by
  induction m with
  | nil => simpa [Memory.insert] using h
  | cons d m ih =>
    obtain ⟨k, b⟩ := d
    simp only [Memory.insert] at h
    split at h
    · simpa using h
    · rcases List.mem_cons.1 h with rfl | h
      · simp
      · rcases ih h with h | h <;> simp [h]

/-- A byte of the cells after a write: the byte written, every other byte as before. -/
@[simp] theorem read_write (m : List Host.Cell) (p q : Nat) (v : Byte) :
    Memory.read (Memory.write m p v) q = if q = p then v else Memory.read m q := by
  unfold Memory.write
  split
  · rename_i hv
    subst hv
    rw [read_erase]
    rfl
  · rw [read_insert _ _ _ _ _ fun c hc => (erase_mem hc).2]
    · rw [read_erase]
      split <;> rfl
    · rw [read_erase]
      by_cases h : q = p <;> simp [h]

theorem erase_wf {m : List Host.Cell} (p : Nat) (h : Memory.wf m) : Memory.wf (Memory.erase m p) := by
  refine ⟨?_, fun c hc => h.2 c (erase_mem hc).1⟩
  have hp := h.1
  clear h
  induction m with
  | nil => simp [Memory.erase]
  | cons d m ih =>
    obtain ⟨k, b⟩ := d
    rw [List.pairwise_cons] at hp
    simp only [Memory.erase]
    split
    · exact ih hp.2
    · exact List.pairwise_cons.2 ⟨fun c hc => hp.1 c (erase_mem hc).1, ih hp.2⟩

theorem insert_wf {m : List Host.Cell} {p : Nat} {v : Byte} (h : Memory.wf m) (hv : v ≠ Memory.blank)
    (fresh : ∀ c ∈ m, c.1 ≠ p) : Memory.wf (Memory.insert m p v) := by
  refine ⟨?_, fun c hc => ?_⟩
  · have hp := h.1
    clear h
    induction m with
    | nil => simp [Memory.insert]
    | cons d m ih =>
      obtain ⟨k, b⟩ := d
      have hk : k ≠ p := fresh (k, b) (by simp)
      rw [List.pairwise_cons] at hp
      simp only [Memory.insert]
      split
      · rename_i hlt
        refine List.pairwise_cons.2 ⟨fun c hc => ?_, List.pairwise_cons.2 hp⟩
        rcases List.mem_cons.1 hc with rfl | hc
        · exact hlt
        · exact Nat.lt_trans hlt (hp.1 c hc)
      · refine List.pairwise_cons.2 ⟨fun c hc => ?_, ih (fun c hc => fresh c (by simp [hc])) hp.2⟩
        rcases insert_mem hc with rfl | hc
        · change k < p
          omega
        · exact hp.1 c hc
  · rcases insert_mem hc with rfl | hc
    · exact hv
    · exact h.2 c hc

/-- Every write keeps the canonical form. -/
theorem write_wf {m : List Host.Cell} (p : Nat) (v : Byte) (h : Memory.wf m) : Memory.wf (Memory.write m p v) := by
  unfold Memory.write
  split
  · exact erase_wf p h
  · exact insert_wf (erase_wf p h) (by assumption) fun c hc => (erase_mem hc).2

/-- A write below `n` keeps every cell below `n`. -/
theorem write_below {m : List Host.Cell} {p n : Nat} (v : Byte) (hp : p < n) (h : ∀ c ∈ m, c.1 < n) :
    ∀ c ∈ Memory.write m p v, c.1 < n := by
  intro c hc
  unfold Memory.write at hc
  split at hc
  · exact h c (erase_mem hc).1
  · rcases insert_mem hc with rfl | hc
    · exact hp
    · exact h c (erase_mem hc).1

/-- `memRead` of a byte that exists. -/
theorem memRead_ok {s : State} {p : Nat} (h : p < s.length) : memRead s p = .ok (Memory.read s.storage p) := by
  simp [memRead, h]

/-- `memWrite` of a byte that exists. -/
theorem memWrite_ok {s : State} {p : Nat} (v : Byte) (h : p < s.length) : memWrite s p v = .ok (setByte s p v) := by
  simp [memWrite, h]

/-- `S[p] <- v` keeps the canonical form. -/
theorem setByte_wf {s : State} (p : Nat) (v : Byte) (h : Memory.wf s.storage) : Memory.wf (setByte s p v).storage :=
  write_wf p v h

/-- `MemWrite` keeps the canonical form and every cell below `length`. -/
theorem memWrite_keeps {s t : State} {p : Nat} {v : Byte} (hw : memWrite s p v = .ok t) :
    (Memory.wf s.storage → Memory.wf t.storage) ∧
      ((∀ c ∈ s.storage, c.1 < s.length) → ∀ c ∈ t.storage, c.1 < t.length) ∧ t.length = s.length := by
  by_cases h : p < s.length
  · rw [memWrite_ok v h] at hw
    cases hw
    exact ⟨setByte_wf p v, fun hc => write_below v h hc, rfl⟩
  · simp [memWrite, h] at hw

/-- A stream bit after one byte has been set. -/
@[simp] theorem setByte_bit (s : State) (p : Nat) (v : Byte) (g : Nat) :
    (setByte s p v).bit g = if g / 8 = p then v.getLsbD (g % 8) else s.bit g := by
  simp only [State.bit, setByte_storage, read_write]
  split <;> rfl

@[simp] theorem advance_bit (s : State) (n g : Nat) : (advance s n).bit g = s.bit g := rfl
@[simp] theorem moveCursor_bit (s : State) (n g : Nat) : (moveCursor s n).bit g = s.bit g := rfl
@[simp] theorem respond_bit (s : State) (st : BitVec 8) (d : BitVec 64) (pay : List Byte) (g : Nat) :
    (respond s st d pay).bit g = s.bit g := rfl

end Sys2Proof.Machine
end

