-- ==== Sys2Proof/Laws/Engine.lean ====
section
/-! SUPPORT. What the primitive bit engine and the subroutines built on it do, said once for each, in the terms of
stream bits (41_bit_engine.md R116, R117; 43_integer_codecs.md R147 to R149). -/

namespace Sys2Proof.Machine

theorem low_getLsbD (n i : Nat) : (low n).getLsbD i = (decide (i < 8) && decide (i < n)) := by
  simp [low, BitVec.getLsbD_ofNat, Nat.testBit_two_pow_sub_one]

theorem low_getElem (n i : Nat) (h : i < 8) : (low n)[i] = decide (i < n) := by
  rw [← BitVec.getLsbD_eq_getElem, low_getLsbD]
  simp [h]

/-- `write_bits` (R111 to R113, R116): within its precondition it cannot fail, and it writes the field of the value's
low `c` bits. -/
theorem writeBits_ok (v : Byte) (c : Nat) (s : State) (h1 : 1 ≤ c) (h8 : c ≤ 8) (room : s.cursor + c ≤ 8 * s.length) :
    ∃ t, writeBits v c s = .ok t ∧ FieldWritten s t c v.getLsbD := by
  have hp : s.cursor / 8 < s.length := by omega
  unfold writeBits
  dsimp only
  by_cases hf : c ≤ 8 - s.cursor % 8
  · rw [if_pos hf, memRead_ok hp]
    simp only [bind, Except.bind, memWrite_ok _ hp]
    refine ⟨_, rfl, ?_⟩
    constructor
    · intro i hi
      have e1 : (s.cursor + i) / 8 = s.cursor / 8 := by omega
      have e2 : (s.cursor + i) % 8 = s.cursor % 8 + i := by omega
      have e3 : ¬ (s.cursor % 8 + i < s.cursor % 8) := by omega
      have e4 : s.cursor % 8 + i < 8 := by omega
      have e5 : i < 8 := by omega
      simp [e1, e2, e4, low_getElem, hi, e5]
    · intro g hg
      simp only [advance_bit, setByte_bit]
      split
      · rename_i he
        have e1 : g % 8 < s.cursor % 8 := by omega
        have e2 : g % 8 < 8 := by omega
        simp [low_getLsbD, e1, e2, State.bit, he]
      · rfl
    · intro g hg hg'
      have e1 : g / 8 = s.cursor / 8 := by omega
      have e2 : ¬ (g % 8 < s.cursor % 8) := by omega
      have e3 : ¬ (g % 8 - s.cursor % 8 < c) := by omega
      have e4 : g % 8 < 8 := by omega
      have e5 : 0 < c ∧ s.cursor % 8 + ((c - 1) % 8 + 1) ≤ 8 := by omega
      rw [if_pos e5]
      simp [e1, e2, e3, e4, low_getElem]
    · intro p hpp
      have : p ≠ s.cursor / 8 := by omega
      simp [this]
    · rfl
  · have hp' : s.cursor / 8 + 1 < s.length := by omega
    rw [if_neg hf, memRead_ok hp]
    simp only [bind, Except.bind, memWrite_ok _ hp]
    rw [memRead_ok (by simpa using hp')]
    simp only []
    rw [memWrite_ok _ (by simpa using hp')]
    refine ⟨_, rfl, ?_⟩
    have hne : s.cursor / 8 + 1 ≠ s.cursor / 8 := by omega
    constructor
    · intro i hi
      have e5 : i < 8 := by omega
      simp only [advance_bit, setByte_bit]
      by_cases hb : s.cursor % 8 + i < 8
      · have e1 : (s.cursor + i) / 8 = s.cursor / 8 := by omega
        have e2 : (s.cursor + i) % 8 = s.cursor % 8 + i := by omega
        have e0 : ¬ (s.cursor / 8 = s.cursor / 8 + 1) := by omega
        simp [e1, e2, hb, low_getElem, hi, e5]
      · have e1 : (s.cursor + i) / 8 = s.cursor / 8 + 1 := by omega
        have e2 : (s.cursor + i) % 8 = s.cursor % 8 + i - 8 := by omega
        have e3 : 8 - s.cursor % 8 + (s.cursor % 8 + i - 8) = i := by omega
        have e6 : s.cursor % 8 + i - 8 < c - (8 - s.cursor % 8) := by omega
        have e7 : s.cursor % 8 + i - 8 < 8 := by omega
        simp [e1, e2, e3, low_getElem, hi, e5, e6, e7]
    · intro g hg
      simp only [advance_bit, setByte_bit]
      have e0 : ¬ (g / 8 = s.cursor / 8 + 1) := by omega
      rw [if_neg e0]
      split
      · rename_i he
        have e1 : g % 8 < s.cursor % 8 := by omega
        have e2 : g % 8 < 8 := by omega
        simp [low_getLsbD, e1, e2, State.bit, he]
      · rfl
    · intro g hg hg'
      have e1 : g / 8 = s.cursor / 8 + 1 := by omega
      have e2 : ¬ (g % 8 < c - (8 - s.cursor % 8)) := by omega
      have e3 : ¬ (8 - s.cursor % 8 + g % 8 < c) := by omega
      have e4 : g % 8 < 8 := by omega
      have e5 : ¬ (0 < c ∧ s.cursor % 8 + ((c - 1) % 8 + 1) ≤ 8) := by omega
      rw [if_neg e5]
      simp [e1, e2, e3, e4, low_getLsbD, low_getElem, State.bit]
    · intro p hpp
      have a1 : p ≠ s.cursor / 8 := by omega
      have a2 : p ≠ s.cursor / 8 + 1 := by omega
      simp [a1, a2]
    · rfl

/-- A bit of a word that is known bit by bit. -/
theorem getElem_of_bits {w : Nat} {x : BitVec w} {f : Nat → Bool} (h : ∀ i, x.getLsbD i = f i) (i : Nat) (hi : i < w) :
    x[i] = f i := by
  rw [← BitVec.getLsbD_eq_getElem, h]

/-- `read_bits` (R114, R115, R117): within its precondition it cannot fail, returns the field of `c` bits and only
moves the cursor. -/
theorem readBits_ok (c : Nat) (s : State) (h1 : 1 ≤ c) (h8 : c ≤ 8) (room : s.cursor + c ≤ 8 * s.length) :
    ∃ r, readBits c s = .ok (r, advance s c) ∧
      ∀ i, r.getLsbD i = (decide (i < c) && s.bit (s.cursor + i)) := by
  have hp : s.cursor / 8 < s.length := by omega
  unfold readBits
  dsimp only
  by_cases ha : s.cursor % 8 = 0 ∧ c = 8
  · rw [if_pos ha, memRead_ok hp]
    refine ⟨_, rfl, fun i => ?_⟩
    by_cases hi : i < c
    · have e1 : (s.cursor + i) / 8 = s.cursor / 8 := by omega
      have e2 : (s.cursor + i) % 8 = i := by omega
      simp [State.bit, e1, e2, hi]
    · simp only [hi, decide_false, Bool.false_and]
      exact BitVec.getLsbD_of_ge _ _ (by omega)
  · rw [if_neg ha, memRead_ok hp]
    simp only [bind, Except.bind]
    by_cases hf : c ≤ 8 - s.cursor % 8
    · rw [if_pos hf]
      refine ⟨_, rfl, fun i => ?_⟩
      by_cases hi : i < c
      · have e1 : (s.cursor + i) / 8 = s.cursor / 8 := by omega
        have e2 : (s.cursor + i) % 8 = s.cursor % 8 + i := by omega
        have e5 : i < 8 := by omega
        simp [State.bit, e1, e2, hi, e5, low_getLsbD]
      · simp [hi, low_getLsbD]
    · have hp' : s.cursor / 8 + 1 < s.length := by omega
      rw [if_neg hf, memRead_ok hp']
      refine ⟨_, rfl, fun i => ?_⟩
      by_cases hb : s.cursor % 8 + i < 8
      · have e1 : (s.cursor + i) / 8 = s.cursor / 8 := by omega
        have e2 : (s.cursor + i) % 8 = s.cursor % 8 + i := by omega
        have e3 : i < c := by omega
        have e4 : i < 8 := by omega
        have e6 : i < 8 - s.cursor % 8 := by omega
        simp [State.bit, e1, e2, e3, e4, e6]
      · have hz : (Memory.read s.storage (s.cursor / 8)).getLsbD (s.cursor % 8 + i) = false :=
          BitVec.getLsbD_of_ge _ _ (by omega)
        have e6 : ¬ (i < 8 - s.cursor % 8) := by omega
        by_cases hi : i < c
        · have e1 : (s.cursor + i) / 8 = s.cursor / 8 + 1 := by omega
          have e2 : (s.cursor + i) % 8 = s.cursor % 8 + i - 8 := by omega
          have e3 : i - (8 - s.cursor % 8) = s.cursor % 8 + i - 8 := by omega
          have e4 : i < 8 := by omega
          have e7 : s.cursor % 8 + i - 8 < c - (8 - s.cursor % 8) := by omega
          have e8 : s.cursor % 8 + i - 8 < 8 := by omega
          simp [State.bit, e1, e2, e3, e4, e6, e7, e8, hi, hz, low_getLsbD]
        · have e7 : ¬ (i - (8 - s.cursor % 8) < c - (8 - s.cursor % 8)) := by omega
          simp [e6, e7, hi, hz, low_getLsbD]

/-! ## Fields written one after the other -/

theorem FieldWritten.length_eq {s t : State} {n : Nat} {f : Nat → Bool} (h : FieldWritten s t n f) :
    t.length = s.length := by rw [h.rest]

theorem FieldWritten.cursor_eq {s t : State} {n : Nat} {f : Nat → Bool} (h : FieldWritten s t n f) :
    t.cursor = s.cursor + n := by rw [h.rest]

theorem FieldWritten.zero (s : State) (f : Nat → Bool) : FieldWritten s s 0 f where
  inField i hi := absurd hi (Nat.not_lt_zero i)
  below _ _ := rfl
  above g _ _ := by simp
  otherBytes _ _ := rfl
  rest := rfl

theorem FieldWritten.congr {s t : State} {n : Nat} {f f' : Nat → Bool} (h : FieldWritten s t n f)
    (e : ∀ i, i < n → f i = f' i) : FieldWritten s t n f' :=
  { h with inField := fun i hi => (h.inField i hi).trans (e i hi) }

/-- Stream bits in the bytes after the field's last byte are unchanged. -/
theorem FieldWritten.beyond {s t : State} {n : Nat} {f : Nat → Bool} (h : FieldWritten s t n f) {g : Nat}
    (hg : 8 * ((s.cursor + n + 7) / 8) ≤ g) : t.bit g = s.bit g := by
  unfold State.bit
  rw [h.otherBytes (g / 8) (by omega)]

/-- A field of whole bytes changes no bit after it. -/
theorem FieldWritten.after_whole {s t : State} {m : Nat} {f : Nat → Bool} (h : FieldWritten s t (8 * m) f) {g : Nat}
    (hg : s.cursor + 8 * m ≤ g) : t.bit g = s.bit g := by
  by_cases hb : g < 8 * ((s.cursor + 8 * m + 7) / 8)
  · rw [h.above g hg hb, if_neg]
    omega
  · exact h.beyond (by omega)

/-- A field of whole bytes and a field right after it are one field. -/
theorem FieldWritten.append {s t r : State} {m n : Nat} {f f' : Nat → Bool} (h : FieldWritten s t (8 * m) f)
    (h' : FieldWritten t r n f') :
    FieldWritten s r (8 * m + n) (fun i => if i < 8 * m then f i else f' (i - 8 * m)) := by
  have hc := h.cursor_eq
  constructor
  · intro i hi
    split
    · rename_i hlt
      rw [h'.below _ (by omega), h.inField i hlt]
    · rw [← h'.inField (i - 8 * m) (by omega), hc]
      congr 1
      omega
  · intro g hg
    rw [h'.below g (by omega), h.below g hg]
  · intro g hg hg'
    rw [h'.above g (by omega) (by omega), h.after_whole (by omega)]
    by_cases hn : n = 0
    · subst hn
      rw [if_neg (by omega), if_neg (by omega)]
    · congr 1
      simp only [eq_iff_iff]
      omega
  · intro p hp
    rw [h'.otherBytes p (by omega), h.otherBytes p (by omega)]
  · rw [h'.rest, h.rest, Nat.add_assoc]

/-! ## The integer subroutines -/

/-- Calls `j` to the last of `write_uW_part(v, b)`. -/
theorem writeCalls_ok {W : Nat} (v : BitVec W) (b n j : Nat) (s : State) (hn : 1 ≤ n) (lo : 8 * (j + n - 1) < b)
    (hi : b ≤ 8 * (j + n)) (room : s.cursor + (b - 8 * j) ≤ 8 * s.length) :
    ∃ t, writeCalls v b n j s = .ok t ∧ FieldWritten s t (b - 8 * j) (fun i => v.getLsbD (8 * j + i)) := by
  induction n generalizing j s with
  | zero => omega
  | succ n ih =>
    have hcall : ∀ i, i < 8 → (byteAt v j).getLsbD i = v.getLsbD (8 * j + i) := by
      intro i hi8
      simp [byteAt, hi8]
    by_cases hlast : n = 0
    · subst hlast
      have hb : callBits b j = b - 8 * j := by unfold callBits; omega
      obtain ⟨t, ht, hw⟩ := writeBits_ok (byteAt v j) (b - 8 * j) s (by omega) (by omega) room
      refine ⟨t, ?_, hw.congr fun i h => hcall i (by omega)⟩
      simp [writeCalls, hb, ht, bind, Except.bind]
    · have hb : callBits b j = 8 := by unfold callBits; omega
      obtain ⟨t, ht, hw⟩ := writeBits_ok (byteAt v j) 8 s (by omega) (by omega) (by omega)
      obtain ⟨r, hr, hw'⟩ := ih (j + 1) t (by omega) (by omega) (by omega)
        (by rw [hw.cursor_eq, hw.length_eq]; omega)
      refine ⟨r, by simp [writeCalls, hb, ht, hr, bind, Except.bind], ?_⟩
      have key := FieldWritten.append (m := 1) hw hw'
      have e : 8 * 1 + (b - 8 * (j + 1)) = b - 8 * j := by omega
      rw [e] at key
      refine key.congr fun i h => ?_
      split
      · exact hcall i (by omega)
      · congr 1
        omega

/-- `write_uW_part(v, b)` (R141, R147, R149). -/
theorem writePart_ok {W : Nat} (v : BitVec W) (b : Nat) (s : State) (h1 : 1 ≤ b)
    (room : s.cursor + b ≤ 8 * s.length) :
    ∃ t, writePart v b s = .ok t ∧ FieldWritten s t b v.getLsbD := by
  obtain ⟨t, ht, hw⟩ := writeCalls_ok v b (callCount b) 0 s (by unfold callCount; omega)
    (by unfold callCount; omega) (by unfold callCount; omega) (by omega)
  exact ⟨t, ht, by simpa using hw⟩

/-- `write_u64_part(v, b)` (R143, R147, R149). -/
theorem writePart64_ok (v : BitVec 64) (b : Nat) (s : State) (h1 : 1 ≤ b) (room : s.cursor + b ≤ 8 * s.length) :
    ∃ t, writePart64 v b s = .ok t ∧ FieldWritten s t b v.getLsbD := by
  unfold writePart64
  by_cases hb : b ≤ 32
  · rw [if_pos hb]
    obtain ⟨t, ht, hw⟩ := writePart_ok (v.extractLsb' 0 32) b s h1 room
    exact ⟨t, ht, hw.congr fun i hi => by simp [show i < 32 by omega]⟩
  · rw [if_neg hb]
    obtain ⟨t, ht, hw⟩ := writePart_ok (v.extractLsb' 0 32) 32 s (by omega) (by omega)
    obtain ⟨r, hr, hw'⟩ := writePart_ok (v.extractLsb' 32 32) (b - 32) t (by omega)
      (by rw [hw.cursor_eq, hw.length_eq]; omega)
    refine ⟨r, by simp [ht, hr, bind, Except.bind], ?_⟩
    have key := FieldWritten.append (m := 4) hw hw'
    have e : 8 * 4 + (b - 32) = b := by omega
    rw [e] at key
    refine key.congr fun i hi => ?_
    split
    · rename_i h
      simp [show i < 32 by omega]
    · rename_i h
      by_cases h64 : i < 64
      · simp [show i - 8 * 4 < 32 by omega, show 32 + (i - 8 * 4) = i by omega]
      · have : ¬ (i - 32 < 32) := by omega
        simp [this, BitVec.getLsbD_of_ge v i (by omega)]

/-- Calls `j` to the last of `read_uW_part(b)`. -/
theorem readCalls_ok (W b n j : Nat) (r : BitVec W) (s : State) (hn : 1 ≤ n) (lo : 8 * (j + n - 1) < b)
    (hi : b ≤ 8 * (j + n)) (hW : b ≤ W) (room : s.cursor + (b - 8 * j) ≤ 8 * s.length) :
    ∃ x, readCalls W b n j r s = .ok (x, advance s (b - 8 * j)) ∧
      ∀ i, x.getLsbD i = (r.getLsbD i || (decide (8 * j ≤ i) && decide (i < b) && s.bit (s.cursor + i - 8 * j))) := by
  induction n generalizing j r s with
  | zero => omega
  | succ n ih =>
    by_cases hlast : n = 0
    · subst hlast
      have hb : callBits b j = b - 8 * j := by unfold callBits; omega
      obtain ⟨y, hy, hbits⟩ := readBits_ok (b - 8 * j) s (by omega) (by omega) room
      refine ⟨r ||| (y.setWidth W <<< (8 * j)), by simp only [readCalls, hb, hy, bind, Except.bind], fun i => ?_⟩
      by_cases h8 : 8 * j ≤ i
      · by_cases hib : i < b
        · have e1 : i < W := by omega
          have e2 : i - 8 * j < b - 8 * j := by omega
          have e3 : s.cursor + (i - 8 * j) = s.cursor + i - 8 * j := by omega
          simp [hbits, h8, hib, e1, e2, e3, show ¬ (i < 8 * j) by omega]
        · have e2 : ¬ (i - 8 * j < b - 8 * j) := by omega
          simp [hbits, hib, e2]
      · simp [show i < 8 * j by omega, h8]
    · have hb : callBits b j = 8 := by unfold callBits; omega
      obtain ⟨y, hy, hbits⟩ := readBits_ok 8 s (by omega) (by omega) (by omega)
      obtain ⟨x, hx, hxb⟩ := ih (j + 1) (r ||| (y.setWidth W <<< (8 * j))) (advance s 8) (by omega) (by omega) (by omega)
        (by simp only [advance_cursor, advance_length]; omega)
      refine ⟨x, ?_, fun i => ?_⟩
      · simp only [readCalls, hb, hy, hx, bind, Except.bind]
        congr 2
        unfold advance
        simp only [State.mk.injEq, true_and, and_true]
        omega
      · rw [hxb]
        by_cases h8 : 8 * j ≤ i
        · have e3 : s.cursor + (i - 8 * j) = s.cursor + i - 8 * j := by omega
          by_cases hnext : 8 * (j + 1) ≤ i
          · have e1 : ¬ (i - 8 * j < 8) := by omega
            have e4 : s.cursor + 8 + i - 8 * (j + 1) = s.cursor + i - 8 * j := by omega
            simp [hbits, hnext, h8, e1, e4]
          · have e1 : i < W := by omega
            have e2 : i - 8 * j < 8 := by omega
            have e5 : i < b := by omega
            simp [getElem_of_bits hbits, hnext, h8, e1, e2, e3, e5, show ¬ (i < 8 * j) by omega]
        · have e1 : ¬ (8 * (j + 1) ≤ i) := by omega
          simp [h8, e1, show i < 8 * j by omega]

/-- `read_uW_part(b)` (R144, R148). -/
theorem readPart_ok (W b : Nat) (s : State) (h1 : 1 ≤ b) (hW : b ≤ W) (room : s.cursor + b ≤ 8 * s.length) :
    ∃ x, readPart W b s = .ok (x, advance s b) ∧ ∀ i, x.getLsbD i = (decide (i < b) && s.bit (s.cursor + i)) := by
  obtain ⟨x, hx, hb⟩ := readCalls_ok W b (callCount b) 0 0 s (by unfold callCount; omega)
    (by unfold callCount; omega) (by unfold callCount; omega) hW (by omega)
  exact ⟨x, by simpa [readPart] using hx, fun i => by simpa using hb i⟩

/-- `read_u64_part(b)` (R145, R148). -/
theorem readPart64_ok (b : Nat) (s : State) (h1 : 1 ≤ b) (hW : b ≤ 64) (room : s.cursor + b ≤ 8 * s.length) :
    ∃ x, readPart64 b s = .ok (x, advance s b) ∧ ∀ i, x.getLsbD i = (decide (i < b) && s.bit (s.cursor + i)) := by
  unfold readPart64
  by_cases hb : b ≤ 32
  · rw [if_pos hb]
    obtain ⟨x, hx, hbits⟩ := readPart_ok 32 b s h1 hb room
    refine ⟨x.setWidth 64, by simp only [hx, bind, Except.bind], fun i => ?_⟩
    by_cases hi : i < b
    · simp [hbits, hi, show i < 64 by omega]
    · simp [hbits, hi]
  · rw [if_neg hb]
    obtain ⟨x, hx, hbits⟩ := readPart_ok 32 32 s (by omega) (by omega) (by omega)
    obtain ⟨y, hy, hbits'⟩ := readPart_ok 32 (b - 32) (advance s 32) (by omega) (by omega)
      (by simp only [advance_cursor, advance_length]; omega)
    refine ⟨(y.setWidth 64 <<< 32) ||| x.setWidth 64, ?_, fun i => ?_⟩
    · simp only [hx, hy, bind, Except.bind]
      congr 2
      unfold advance
      simp only [State.mk.injEq, true_and, and_true]
      omega
    · by_cases h32 : i < 32
      · simp [getElem_of_bits hbits, h32, show i < 64 by omega, show i < b by omega]
      · by_cases hi : i < b
        · simp [hbits, hbits', h32, hi, show i < 64 by omega, show i - 32 < b - 32 by omega,
            show s.cursor + 32 + (i - 32) = s.cursor + i by omega]
        · simp [hbits, hbits', h32, hi, show ¬ (i - 32 < b - 32) by omega]

/-! ## Whole bytes -/

/-- Bit `i` of a sequence of bytes, least significant bit first. -/
def bitOfBytes (l : List Byte) (i : Nat) : Bool := (l.getD (i / 8) 0).getLsbD (i % 8)

theorem bitOfBytes_cons (b : Byte) (l : List Byte) (i : Nat) :
    bitOfBytes (b :: l) i = if i < 8 then b.getLsbD i else bitOfBytes l (i - 8) := by
  unfold bitOfBytes
  split
  · rename_i h
    simp [show i / 8 = 0 by omega, show i % 8 = i by omega]
  · rename_i h
    have e1 : i / 8 = (i - 8) / 8 + 1 := by omega
    have e2 : i % 8 = (i - 8) % 8 := by omega
    rw [e1, e2, List.getD_cons_succ]

/-- Writing whole bytes (R212). -/
theorem writeBytes_ok (l : List Byte) (s : State) (room : s.cursor + 8 * l.length ≤ 8 * s.length) :
    ∃ t, writeBytes l s = .ok t ∧ FieldWritten s t (8 * l.length) (bitOfBytes l) := by
  induction l generalizing s with
  | nil => exact ⟨s, rfl, FieldWritten.zero s _⟩
  | cons b l ih =>
    simp only [List.length_cons] at room ⊢
    obtain ⟨t, ht, hw⟩ := writeBits_ok b 8 s (by omega) (by omega) (by omega)
    obtain ⟨r, hr, hw'⟩ := ih t (by rw [hw.cursor_eq, hw.length_eq]; omega)
    refine ⟨r, by simp [writeBytes, ht, hr, bind, Except.bind], ?_⟩
    have key := FieldWritten.append (m := 1) hw hw'
    have e : 8 * 1 + 8 * l.length = 8 * (l.length + 1) := by omega
    rw [e] at key
    exact key.congr fun i _ => (bitOfBytes_cons b l i).symm

/-- Reading whole bytes (R213). -/
theorem readBytes_ok (n : Nat) (s : State) (room : s.cursor + 8 * n ≤ 8 * s.length) :
    ∃ l, readBytes n s = .ok (l, advance s (8 * n)) ∧ l.length = n ∧
      ∀ i, i < 8 * n → bitOfBytes l i = s.bit (s.cursor + i) := by
  induction n generalizing s with
  | zero => exact ⟨[], rfl, rfl, fun i hi => by omega⟩
  | succ n ih =>
    obtain ⟨b, hb, hbits⟩ := readBits_ok 8 s (by omega) (by omega) (by omega)
    obtain ⟨l, hl, hlen, hlb⟩ := ih (advance s 8) (by simp only [advance_cursor, advance_length]; omega)
    refine ⟨b :: l, ?_, by simp [hlen], fun i hi => ?_⟩
    · simp only [readBytes, hb, hl, bind, Except.bind]
      congr 2
      unfold advance
      simp only [State.mk.injEq, true_and, and_true]
      omega
    · rw [bitOfBytes_cons]
      split
      · rename_i h
        rw [hbits]
        simp [h]
      · rw [hlb _ (by omega)]
        simp only [advance_bit, advance_cursor]
        congr 1
        omega

/-- Reading `n` storage bytes from index `p` on (40_buffer_cursor.md R92). -/
theorem storageBytes_ok (s : State) (n p : Nat) (h : p + n ≤ s.length) :
    storageBytes s n p = .ok ((List.range' p n).map (Memory.read s.storage)) := by
  induction n generalizing p with
  | zero => rfl
  | succ n ih =>
    simp [storageBytes, memRead_ok (show p < s.length by omega), ih (p + 1) (by omega), List.range'_succ, bind, Except.bind]

end Sys2Proof.Machine
end

