-- ==== Sys2Proof/Laws/Fields.lean ====
section
/-! SUPPORT. Stream fields as numbers and as patterns: the bits of `field(k, n)`, the word a read returns, the value a
written field holds, and the bytes of a value. -/

namespace Sys2Proof.Machine

theorem field_lt (s : State) (k n : Nat) : s.field k n < 2 ^ n := by
  induction n with
  | zero => simp [State.field]
  | succ n ih =>
    simp only [State.field, Nat.pow_succ]
    split <;> omega

/-- Bit `i` of `field(k, n)`. -/
theorem field_testBit (s : State) (k n i : Nat) :
    (s.field k n).testBit i = (decide (i < n) && s.bit (k + i)) := by
  induction n with
  | zero => simp [State.field]
  | succ n ih =>
    have e : s.field k (n + 1) = 2 ^ n * (if s.bit (k + n) then 1 else 0) + s.field k n := by
      simp only [State.field]
      split <;> simp [Nat.add_comm]
    rw [e, Nat.testBit_two_pow_mul_add _ (field_lt s k n), ih]
    by_cases h : i < n
    · simp [h, Nat.lt_succ_of_lt h]
    · rw [if_neg h]
      by_cases he : i = n
      · subst he
        split <;> simp_all
      · have : ∃ d, i - n = d + 1 := ⟨i - n - 1, by omega⟩
        obtain ⟨d, hd⟩ := this
        have h2 : ¬ i < n + 1 := by omega
        rw [hd]
        split <;> simp [h2, Nat.testBit_succ]

/-- Fields whose bits agree are the same number. -/
theorem field_congr {s t : State} {k j n : Nat} (h : ∀ i, i < n → s.bit (k + i) = t.bit (j + i)) :
    s.field k n = t.field j n := by
  apply Nat.eq_of_testBit_eq
  intro i
  rw [field_testBit, field_testBit]
  by_cases hi : i < n
  · simp [hi, h i hi]
  · simp [hi]

/-- A word whose bits are those of a field is that field, zero-extended to the word's width (R148). -/
theorem eq_field_of_bits {W b k : Nat} {s : State} {x : BitVec W}
    (h : ∀ i, x.getLsbD i = (decide (i < b) && s.bit (k + i))) : x = BitVec.ofNat W (s.field k b) := by
  apply BitVec.eq_of_getLsbD_eq
  intro i hi
  rw [h, BitVec.getLsbD_ofNat, field_testBit]
  simp [hi]

/-- The value a written field holds (R147): the low `n` bits of the value written. -/
theorem FieldWritten.field_eq {W n : Nat} {s t : State} {v : BitVec W}
    (h : FieldWritten s t n v.getLsbD) : t.field s.cursor n = v.toNat % 2 ^ n := by
  apply Nat.eq_of_testBit_eq
  intro i
  rw [field_testBit, Nat.testBit_mod_two_pow]
  by_cases hi : i < n
  · rw [h.inField i hi, ← BitVec.testBit_toNat]
  · simp [hi]

/-- The bits of `bytesOf`. -/
theorem bitOfBytes_bytesOf {W : Nat} (n : Nat) (v : BitVec W) (i : Nat) (hi : i < 8 * n) :
    bitOfBytes (bytesOf n v) i = v.getLsbD i := by
  have h1 : i / 8 < n := by omega
  have h2 : i % 8 < 8 := by omega
  have h3 : 8 * (i / 8) + i % 8 = i := by omega
  simp [bitOfBytes, bytesOf, List.getD_eq_getElem?_getD, h1, byteAt, h2, h3]

/-- The bits of `orBytes`. -/
theorem orBytes_getLsbD (W j : Nat) (l : List Byte) (i : Nat) (hi : i < W) :
    (orBytes W j l).getLsbD i = (decide (8 * j ≤ i) && bitOfBytes l (i - 8 * j)) := by
  induction l generalizing j with
  | nil => simp [orBytes, bitOfBytes]
  | cons b l ih =>
    simp only [orBytes, BitVec.getLsbD_or, BitVec.getLsbD_shiftLeft, BitVec.getLsbD_setWidth, ih, bitOfBytes_cons]
    by_cases h : 8 * j ≤ i
    · by_cases h8 : i - 8 * j < 8
      · have h9 : ¬ 8 * (j + 1) ≤ i := by omega
        have h10 : i - 8 * j < W := by omega
        simp [h, h8, h9, h10, hi, show ¬ i < 8 * j by omega]
      · have h9 : 8 * (j + 1) ≤ i := by omega
        have h10 : i - 8 * (j + 1) = i - 8 * j - 8 := by omega
        have hz : BitVec.getLsbD b (i - 8 * j) = false := BitVec.getLsbD_of_ge _ _ (by omega)
        simp [h, h8, h9, h10, hz]
    · simp [h, show ¬ 8 * (j + 1) ≤ i by omega, show i < 8 * j by omega]

/-- Two sequences of bytes of one length whose bits agree are equal. -/
theorem bytes_ext {l l' : List Byte} (hl : l.length = l'.length)
    (h : ∀ i, i < 8 * l.length → bitOfBytes l i = bitOfBytes l' i) : l = l' := by
  apply List.ext_getElem hl
  intro p hp hp'
  apply BitVec.eq_of_getLsbD_eq
  intro b hb
  have := h (8 * p + b) (by omega)
  have e1 : (8 * p + b) / 8 = p := by omega
  have e2 : (8 * p + b) % 8 = b := by omega
  simpa [bitOfBytes, e1, e2, List.getD_eq_getElem?_getD, hp, hp'] using this

/-- The bits of `bytesAt`. -/
theorem bitOfBytes_bytesAt (s : State) (k n i : Nat) (hi : i < 8 * n) :
    bitOfBytes (bytesAt s k n) i = s.bit (k + i) := by
  have h1 : i / 8 < n := by omega
  have h2 : i % 8 < 8 := by omega
  have h3 : k + 8 * (i / 8) + i % 8 = k + i := by omega
  have hv : (BitVec.ofNat 8 (s.field (k + 8 * (i / 8)) 8)).getLsbD (i % 8) = s.bit (k + i) := by
    rw [BitVec.getLsbD_ofNat, field_testBit, h3]
    simp [h2]
  simpa [bitOfBytes, bytesAt, List.getD_eq_getElem?_getD, h1] using hv

/-- Reading whole bytes, with the bytes as `bytesAt` gives them (R213). -/
theorem readBytes_eq (n : Nat) (s : State) (room : s.cursor + 8 * n ≤ 8 * s.length) :
    readBytes n s = .ok (bytesAt s s.cursor n, advance s (8 * n)) := by
  obtain ⟨l, hl, hlen, hb⟩ := readBytes_ok n s room
  have : l = bytesAt s s.cursor n := by
    apply bytes_ext (by simp [hlen, bytesAt])
    intro i hi
    rw [hlen] at hi
    rw [hb i hi, bitOfBytes_bytesAt _ _ _ _ hi]
  rw [hl, this]

/-- `read_uW_part(b)`, with the pattern as a field (R148). -/
theorem readPart_eq (W b : Nat) (s : State) (h1 : 1 ≤ b) (hW : b ≤ W) (room : s.cursor + b ≤ 8 * s.length) :
    readPart W b s = .ok (BitVec.ofNat W (s.field s.cursor b), advance s b) := by
  obtain ⟨x, hx, hb⟩ := readPart_ok W b s h1 hW room
  rw [hx, eq_field_of_bits hb]

/-- `read_u64_part(b)`, with the pattern as a field (R148). -/
theorem readPart64_eq (b : Nat) (s : State) (h1 : 1 ≤ b) (hW : b ≤ 64) (room : s.cursor + b ≤ 8 * s.length) :
    readPart64 b s = .ok (BitVec.ofNat 64 (s.field s.cursor b), advance s b) := by
  obtain ⟨x, hx, hb⟩ := readPart64_ok b s h1 hW room
  rw [hx, eq_field_of_bits hb]

/-- `read_bits(c)`, with the value as a field (R117). -/
theorem readBits_eq (c : Nat) (s : State) (h1 : 1 ≤ c) (h8 : c ≤ 8) (room : s.cursor + c ≤ 8 * s.length) :
    readBits c s = .ok (BitVec.ofNat 8 (s.field s.cursor c), advance s c) := by
  obtain ⟨x, hx, hb⟩ := readBits_ok c s h1 h8 room
  rw [hx, eq_field_of_bits hb]

end Sys2Proof.Machine
end

