-- ==== Sys2Proof/Laws/Commands.lean ====
section
/-! SUPPORT. What the shared checks and answers of a command do, one lemma for each outcome. -/

namespace Sys2Proof.Machine

theorem needBuffer_live {s : State} {k : Out} (h : s.live = true) : needBuffer s k = k := by
  simp [needBuffer, h]

theorem needBuffer_dead {s : State} {k : Out} (h : s.live = false) : needBuffer s k = raise .noBuffer s := by
  simp [needBuffer, h]

theorem needCount_legal {n width : Nat} {s : State} {k : Out} (h1 : 1 ≤ n) (h2 : n ≤ width) :
    needCount n width s k = k := by
  rw [needCount, if_neg (by omega)]

theorem needCount_illegal {n width : Nat} {s : State} {k : Out} (h : n < 1 ∨ n > width) :
    needCount n width s k = raise .outOfBounds s := by
  simp only [needCount, if_pos h]

theorem fits_iff (s : State) (n : Nat) : fits s n = true ↔ s.cursor + n ≤ 8 * s.length := by
  simp [fits]

theorem needRoom_fits {n : Nat} {s : State} {k : Out} (h : s.cursor + n ≤ 8 * s.length) : needRoom n s k = k := by
  simp [needRoom, fits, h]

theorem needRoom_full {n : Nat} {s : State} {k : Out} (h : s.cursor + n > 8 * s.length) :
    needRoom n s k = raise .outOfBounds s := by
  simp [needRoom, fits, show ¬ (s.cursor + n ≤ 8 * s.length) by omega]

/-- The checks of a transfer command whose width is fixed: what it answers. -/
theorem transfer_cases (n : Nat) (s : State) (k : Out) :
    (s.live = false ∧ needBuffer s (needRoom n s k) = raise .noBuffer s) ∨
    (s.live = true ∧ s.cursor + n > 8 * s.length ∧ needBuffer s (needRoom n s k) = raise .outOfBounds s) ∨
    (s.live = true ∧ s.cursor + n ≤ 8 * s.length ∧ needBuffer s (needRoom n s k) = k) := by
  cases h : s.live with
  | false => exact .inl ⟨rfl, needBuffer_dead h⟩
  | true =>
    rcases Nat.lt_or_ge (8 * s.length) (s.cursor + n) with hr | hr
    · exact .inr (.inl ⟨rfl, hr, by rw [needBuffer_live h, needRoom_full hr]⟩)
    · exact .inr (.inr ⟨rfl, hr, by rw [needBuffer_live h, needRoom_fits hr]⟩)

/-- The checks of a transfer command with a count operand (60_exceptions.md R248): what it answers. -/
theorem part_cases (n width : Nat) (s : State) (k : Out) :
    (s.live = false ∧ needBuffer s (needCount n width s (needRoom n s k)) = raise .noBuffer s) ∨
    (s.live = true ∧ (n < 1 ∨ n > width ∨ s.cursor + n > 8 * s.length) ∧
      needBuffer s (needCount n width s (needRoom n s k)) = raise .outOfBounds s) ∨
    (s.live = true ∧ 1 ≤ n ∧ n ≤ width ∧ s.cursor + n ≤ 8 * s.length ∧
      needBuffer s (needCount n width s (needRoom n s k)) = k) := by
  by_cases hc : n < 1 ∨ n > width
  · cases h : s.live with
    | false => exact .inl ⟨rfl, needBuffer_dead h⟩
    | true => exact .inr (.inl ⟨rfl, by omega, by rw [needBuffer_live h, needCount_illegal hc]⟩)
  · rw [needCount_legal (by omega) (by omega)]
    rcases transfer_cases n s k with h | h | h
    · exact .inl h
    · exact .inr (.inl ⟨h.1, .inr (.inr h.2.1), h.2.2⟩)
    · exact .inr (.inr ⟨h.1, by omega, by omega, h.2⟩)

@[simp] theorem andThen_ok {α : Type} (a : α) (k : α → Out) : andThen (.ok a) k = k a := rfl

@[simp] theorem finishWrite_ok (t : State) : finishWrite (.ok t) = .next (respond t statusOk 0 []) := rfl

@[simp] theorem finishRead_ok {W : Nat} (f : BitVec W → BitVec 64) (x : BitVec W) (t : State) :
    finishRead f (.ok (x, t)) = .next (respond t statusOk (f x) []) := rfl

theorem raise_eq (e : ErrorKind) (s : State) : raise e s = .next (respond s e.code 0 []) := rfl

theorem finish_eq (s : State) (d : BitVec 64) (pay : List Byte) : finish s d pay = .next (respond s statusOk d pay) := rfl

/-- What a transfer command whose write cannot fail does on a live Buffer with room. -/
theorem write_answers {n : Nat} {s : State} {f : Nat → Bool} {r : Except Fault State}
    (h : ∃ t, r = .ok t ∧ FieldWritten s t n f) :
    ∃ t, FieldWritten s t n f ∧ finishWrite r = .next (respond t statusOk 0 []) := by
  obtain ⟨t, rfl, hw⟩ := h
  exact ⟨t, hw, rfl⟩

/-- The string body (45_bytes_string_codecs.md R214, R216): the count as 32 bits, then the bytes. -/
theorem writeString_ok (payload : List Byte) (s : State) (room : s.cursor + (32 + 8 * payload.length) ≤ 8 * s.length) :
    ∃ t, writeString payload s = .ok t ∧ FieldWritten s t (32 + 8 * payload.length) (fun i =>
      if i < 32 then (BitVec.ofNat 32 payload.length).getLsbD i else bitOfBytes payload (i - 32)) := by
  obtain ⟨t, ht, hw⟩ := writePart_ok (BitVec.ofNat 32 payload.length) 32 s (by omega) (by omega)
  obtain ⟨r, hr, hw'⟩ := writeBytes_ok payload t (by rw [hw.cursor_eq, hw.length_eq]; omega)
  refine ⟨r, by simp [writeString, ht, hr, bind, Except.bind], ?_⟩
  exact (FieldWritten.append (m := 4) hw hw').congr fun i _ => rfl

/-- The float patterns as whole bytes (44_float_codecs.md R201, R202): the same field as an integer write of the same
width. -/
theorem writeBytes_pattern {W : Nat} (n : Nat) (v : BitVec W) (s : State) (room : s.cursor + 8 * n ≤ 8 * s.length) :
    ∃ t, writeBytes (bytesOf n v) s = .ok t ∧ FieldWritten s t (8 * n) v.getLsbD := by
  have hl : (bytesOf n v).length = n := by simp [bytesOf]
  obtain ⟨t, ht, hw⟩ := writeBytes_ok (bytesOf n v) s (by rw [hl]; exact room)
  rw [hl] at hw
  exact ⟨t, ht, hw.congr fun i hi => bitOfBytes_bytesOf n v i hi⟩

/-- A float read as whole bytes is the field (44_float_codecs.md R203, R204). -/
theorem orBytes_bytesAt (W k n : Nat) (s : State) (hW : W = 8 * n) :
    orBytes W 0 (bytesAt s k n) = BitVec.ofNat W (s.field k W) := by
  apply BitVec.eq_of_getLsbD_eq
  intro i hi
  rw [orBytes_getLsbD _ _ _ _ hi, BitVec.getLsbD_ofNat, field_testBit, Nat.mul_zero, Nat.sub_zero,
    bitOfBytes_bytesAt _ _ _ _ (by omega)]
  simp [hi]

end Sys2Proof.Machine
end

