-- ==== Sys2Proof/Laws/Encoding.lean ====
section
/-! SUPPORT. The fields of a packed command word (30_encoding.md R60) and of a response word (R64). -/

namespace Sys2Proof

/-- The bits of a packed command word, from the lowest field up. -/
theorem packWord_getLsbD (op nb : BitVec 8) (len : BitVec 32) (arg : BitVec 64) (i : Nat) :
    (packWord op nb len arg).getLsbD i =
      if i < 8 then op.getLsbD i
      else if i < 16 then nb.getLsbD (i - 8)
      else if i < 32 then false
      else if i < 64 then len.getLsbD (i - 32)
      else arg.getLsbD (i - 64) := by
  have h : (packWord op nb len arg).getLsbD i =
      (arg ++ len ++ (0#16) ++ nb ++ op : BitVec (64 + 32 + 16 + 8 + 8)).getLsbD i := rfl
  rw [h]
  simp only [BitVec.getLsbD_append, BitVec.getLsbD_zero]
  by_cases h1 : i < 8
  · simp [h1]
  · by_cases h2 : i < 16
    · simp [h1, h2, show i - 8 < 8 by omega]
    · by_cases h3 : i < 32
      · simp [h1, h2, h3, show ¬ (i - 8 < 8) by omega, show i - 8 - 8 < 16 by omega]
      · by_cases h4 : i < 64
        · simp [h1, h2, h3, h4, show ¬ (i - 8 < 8) by omega, show ¬ (i - 8 - 8 < 16) by omega,
            show i - 32 < 32 by omega, show i - 8 - 8 - 16 = i - 32 by omega]
        · simp [h1, h2, h3, h4, show ¬ (i - 8 < 8) by omega, show ¬ (i - 8 - 8 < 16) by omega,
            show ¬ (i - 8 - 8 - 16 < 32) by omega, show i - 8 - 8 - 16 - 32 = i - 64 by omega]

@[simp] theorem opField_packWord (op nb : BitVec 8) (len : BitVec 32) (arg : BitVec 64) :
    opField (packWord op nb len arg) = op := by
  apply BitVec.eq_of_getLsbD_eq
  intro i hi
  simp only [opField, BitVec.getLsbD_extractLsb', packWord_getLsbD]
  simp [hi]

@[simp] theorem nbitsField_packWord (op nb : BitVec 8) (len : BitVec 32) (arg : BitVec 64) :
    nbitsField (packWord op nb len arg) = nb := by
  apply BitVec.eq_of_getLsbD_eq
  intro i hi
  simp only [nbitsField, BitVec.getLsbD_extractLsb', packWord_getLsbD]
  simp [hi, show 8 + i < 16 by omega]

@[simp] theorem rsvdField_packWord (op nb : BitVec 8) (len : BitVec 32) (arg : BitVec 64) :
    rsvdField (packWord op nb len arg) = 0#16 := by
  apply BitVec.eq_of_getLsbD_eq
  intro i hi
  simp only [rsvdField, BitVec.getLsbD_extractLsb', packWord_getLsbD]
  simp [hi, show ¬ (16 + i < 8) by omega, show 16 + i < 32 by omega]

@[simp] theorem lenField_packWord (op nb : BitVec 8) (len : BitVec 32) (arg : BitVec 64) :
    lenField (packWord op nb len arg) = len := by
  apply BitVec.eq_of_getLsbD_eq
  intro i hi
  simp only [lenField, BitVec.getLsbD_extractLsb', packWord_getLsbD]
  simp [hi, show ¬ (32 + i < 8) by omega, show ¬ (32 + i < 16) by omega, show 32 + i < 64 by omega]

@[simp] theorem argField_packWord (op nb : BitVec 8) (len : BitVec 32) (arg : BitVec 64) :
    argField (packWord op nb len arg) = arg := by
  apply BitVec.eq_of_getLsbD_eq
  intro i hi
  simp only [argField, BitVec.getLsbD_extractLsb', packWord_getLsbD]
  simp [hi, show ¬ (64 + i < 8) by omega, show ¬ (64 + i < 16) by omega, show ¬ (64 + i < 32) by omega]

@[simp] theorem valueOf_packWord (W : Nat) (op nb : BitVec 8) (len : BitVec 32) (arg : BitVec 64) :
    valueOf W (packWord op nb len arg) = arg.setWidth W := by
  simp [valueOf]

/-- A legal command word is its four fields (R60). -/
theorem word_of_fields (w : Word128) (h : rsvdField w = 0#16) :
    w = packWord (opField w) (nbitsField w) (lenField w) (argField w) := by
  apply BitVec.eq_of_getLsbD_eq
  intro i hi
  rw [packWord_getLsbD]
  simp only [opField, nbitsField, lenField, argField, BitVec.getLsbD_extractLsb']
  by_cases h1 : i < 8
  · simp [h1]
  · by_cases h2 : i < 16
    · simp [h1, h2, show i - 8 < 8 by omega, show 8 + (i - 8) = i by omega]
    · by_cases h3 : i < 32
      · have hz := congrArg (fun x => BitVec.getLsbD x (i - 16)) h
        simpa [rsvdField, h1, h2, h3, show i - 16 < 16 by omega, show 16 + (i - 16) = i by omega] using hz
      · by_cases h4 : i < 64
        · simp [h1, h2, h3, h4, show i - 32 < 32 by omega, show 32 + (i - 32) = i by omega]
        · simp [h1, h2, h3, h4, show i - 64 < 64 by omega, show 64 + (i - 64) = i by omega]

/-- How many payload bytes follow a packed word (R71). -/
theorem payloadCount_packWord (op nb : BitVec 8) (len : BitVec 32) (arg : BitVec 64) :
    payloadCount (packWord op nb len arg) = if takesPayload op = true then len.toNat else 0 := by
  simp [payloadCount]

/-- Decoding a packed word (R60, R62). -/
theorem decode_packWord (op nb : BitVec 8) (len : BitVec 32) (arg : BitVec 64) (pay : List Byte) :
    decode ⟨packWord op nb len arg, pay⟩ =
      match decodeOpcode op.toNat (packWord op nb len arg) pay with
      | none => .error (.reservedOpcode op)
      | some i =>
        if pay.length = (if takesPayload op = true then len.toNat else 0) then .ok i
        else .error (.payloadLength (if takesPayload op = true then len.toNat else 0) pay.length) := by
  simp only [decode, rsvdField_packWord, opField_packWord, payloadCount_packWord, ne_eq]
  cases decodeOpcode op.toNat (packWord op nb len arg) pay <;> rfl

namespace Machine

/-- The bits of a response word, from the lowest field up (R64). -/
theorem responseWord_getLsbD (st : BitVec 8) (rlen : BitVec 32) (d : BitVec 64) (i : Nat) :
    (responseWord st rlen d).getLsbD i =
      if i < 8 then st.getLsbD i
      else if i < 32 then false
      else if i < 64 then rlen.getLsbD (i - 32)
      else d.getLsbD (i - 64) := by
  have h : (responseWord st rlen d).getLsbD i =
      (d ++ rlen ++ (0#24) ++ st : BitVec (64 + 32 + 24 + 8)).getLsbD i := rfl
  rw [h]
  simp only [BitVec.getLsbD_append, BitVec.getLsbD_zero]
  by_cases h1 : i < 8
  · simp [h1]
  · by_cases h3 : i < 32
    · simp [h1, h3, show i - 8 < 24 by omega]
    · by_cases h4 : i < 64
      · simp [h1, h3, h4, show ¬ (i - 8 < 24) by omega, show i - 32 < 32 by omega,
          show i - 8 - 24 = i - 32 by omega]
      · simp [h1, h3, h4, show ¬ (i - 8 < 24) by omega, show ¬ (i - 8 - 24 < 32) by omega,
          show i - 8 - 24 - 32 = i - 64 by omega]

end Machine

end Sys2Proof
end

