-- ==== Sys2Proof/Laws/Answers.lean ====
section
/-! SUPPORT. What a command can do, said once: every command, in every state, falls under one of the cases of `ExecCase`. -/

namespace Sys2Proof.Machine

/-! ## A response tells the answer -/

/-- A response word is its fields (30_encoding.md R64). -/
theorem responseWord_inj {a b : BitVec 8} {r r' : BitVec 32} {d d' : BitVec 64}
    (h : responseWord a r d = responseWord b r' d') : a = b ∧ r = r' ∧ d = d' := by
  have hb : ∀ i, (responseWord a r d).getLsbD i = (responseWord b r' d').getLsbD i := fun i => by rw [h]
  simp only [responseWord_getLsbD] at hb
  refine ⟨BitVec.eq_of_getLsbD_eq fun i hi => ?_, BitVec.eq_of_getLsbD_eq fun i hi => ?_,
    BitVec.eq_of_getLsbD_eq fun i hi => ?_⟩
  · simpa [hi] using hb i
  · simpa [hi, show ¬ (i + 32 < 8) by omega, show i + 32 < 64 by omega] using hb (i + 32)
  · simpa [show ¬ (i + 64 < 8) by omega, show ¬ (i + 64 < 32) by omega, show ¬ (i + 64 < 64) by omega] using hb (i + 64)

theorem FieldWritten.onlyBuffer {s t : State} {n : Nat} {f : Nat → Bool} (h : FieldWritten s t n f) : OnlyBuffer s t := by
  unfold OnlyBuffer
  rw [h.rest]

/-- States that differ from one state in the Buffer at most, and are equal once they have answered, answered the same. -/
theorem respond_inj {s u v : State} {st st' : BitVec 8} {d d' : BitVec 64} {p p' : List Byte} (hu : OnlyBuffer s u)
    (hv : OnlyBuffer s v) (h : respond u st d p = respond v st' d' p') : u = v ∧ st = st' ∧ d = d' ∧ p = p' := by
  unfold OnlyBuffer at hu hv
  have hur : u.rsp = s.rsp := by rw [hu]
  have hvr : v.rsp = s.rsp := by rw [hv]
  have hup : u.rp = s.rp := by rw [hu]
  have hvp : v.rp = s.rp := by rw [hv]
  have h1 := congrArg State.rsp h
  have h2 := congrArg State.rp h
  simp only [respond_rsp, respond_rp, hur, hvr, hup, hvp, List.append_cancel_left_eq, List.cons.injEq, and_true] at h1 h2
  have h3 := responseWord_inj h1
  have a := congrArg State.live h
  have b := congrArg State.length h
  have c := congrArg State.storage h
  have e := congrArg State.cursor h
  simp only [respond_live, respond_length, respond_storage, respond_cursor] at a b c e
  exact ⟨by rw [hu, hv, a, b, c, e], h3.1, h3.2.2, h2⟩

/-- A command has one answer. -/
theorem answers_unique {i : Instr} {s u v : State} {st st' : BitVec 8} {d d' : BitVec 64} {p p' : List Byte}
    (hu : Answers i s u st d p) (hv : Answers i s v st' d' p') : u = v ∧ st = st' ∧ d = d' ∧ p = p' :=
  respond_inj hu.1 hv.1 (Host.Outcome.next.inj (hu.2.symm.trans hv.2))

/-- An error is an answer that leaves the state as it was. -/
theorem raises_answers {i : Instr} {e : ErrorKind} {s : State} : Raises i e s ↔ Answers i s s e.code 0 [] :=
  ⟨fun h => ⟨rfl, h⟩, fun h => h.2⟩

theorem errorCode_inj {e e' : ErrorKind} (h : e.code = e'.code) : e = e' := by
  cases e <;> cases e' <;> first | rfl | exact absurd h (by decide)

theorem errorCode_ne_ok (e : ErrorKind) : e.code ≠ statusOk := by cases e <;> decide

/-! ## Values of bytes -/

theorem bytesValue_lt (l : List Byte) : bytesValue l < 2 ^ (8 * l.length) := by
  induction l with
  | nil => simp [bytesValue]
  | cons b l ih =>
    have hb := b.isLt
    have e : 2 ^ (8 * (b :: l).length) = 256 * 2 ^ (8 * l.length) := by
      rw [List.length_cons, Nat.mul_add, Nat.pow_add]; omega
    rw [e]
    simp only [bytesValue]
    omega

/-- Bit `i` of the value of bytes is bit `i mod 8` of byte `i div 8` (20_memory.md R41). -/
theorem bytesValue_testBit (l : List Byte) (i : Nat) : (bytesValue l).testBit i = bitOfBytes l i := by
  induction l generalizing i with
  | nil => simp [bytesValue, bitOfBytes]
  | cons b l ih =>
    rw [bitOfBytes_cons, bytesValue, Nat.add_comm, show (256 : Nat) = 2 ^ 8 from rfl,
      Nat.testBit_two_pow_mul_add _ b.isLt, ih]
    simp [BitVec.testBit_toNat]

/-- A field of `n + m` bits is its low part and its high part. -/
theorem field_add (s : State) (k n m : Nat) : s.field k (n + m) = s.field k n + 2 ^ n * s.field (k + n) m := by
  apply Nat.eq_of_testBit_eq
  intro i
  rw [Nat.add_comm (s.field k n), Nat.testBit_two_pow_mul_add _ (field_lt _ _ _), field_testBit, field_testBit, field_testBit]
  by_cases hi : i < n
  · simp [hi, show i < n + m by omega]
  · by_cases h2 : i < n + m
    · simp [hi, h2, show i - n < m by omega, show k + n + (i - n) = k + i by omega]
    · simp [hi, h2, show ¬ i - n < m by omega]

/-- The value a field holds after it was written bit by bit from a value that fits. -/
theorem FieldWritten.value_eq {s t : State} {n v : Nat} (h : FieldWritten s t n v.testBit) (hv : v < 2 ^ n) :
    t.field s.cursor n = v := by
  apply Nat.eq_of_testBit_eq
  intro i
  rw [field_testBit]
  by_cases hi : i < n
  · simp [hi, h.inField i hi]
  · rw [Nat.testBit_lt_two_pow (Nat.lt_of_lt_of_le hv (Nat.pow_le_pow_right (by omega) (Nat.le_of_not_lt hi)))]
    simp [hi]

/-! ## Signed readings -/

/-- `sext_64` of a field's pattern is the integer it denotes (30_encoding.md R68). -/
theorem sext64_ofNat {W n : Nat} (h0 : 0 < W) (hW : W ≤ 64) (h : n < 2 ^ W) :
    sext64 (BitVec.ofNat W n) = BitVec.ofInt 64 (signedOf W n) := by
  apply BitVec.eq_of_toInt_eq
  have e : (BitVec.ofNat W n).toInt = signedOf W n := by
    rw [BitVec.toInt_eq_toNat_cond, BitVec.toNat_ofNat, Nat.mod_eq_of_lt h, signedOf]
    have : 2 ^ W = 2 * 2 ^ (W - 1) := by
      rw [← Nat.pow_succ']; congr; omega
    by_cases hn : n < 2 ^ (W - 1)
    · rw [if_pos hn, if_pos (by omega)]
    · rw [if_neg hn, if_neg (by omega)]; simp
  rw [sext64, BitVec.toInt_signExtend_of_le hW, e, BitVec.toInt_ofInt]
  have := (BitVec.ofNat W n).toInt_lt
  have := (BitVec.ofNat W n).le_toInt
  rw [e] at *
  have hp : (2 : Int) ^ (W - 1) ≤ 2 ^ (64 - 1) := by
    apply pow_le_pow_right₀ (by omega) (by omega)
  symm
  apply Int.bmod_eq_of_le <;> omega

/-- `zext_64` of a field's pattern is the field. -/
theorem zext64_ofNat {W n : Nat} (hW : W ≤ 64) (h : n < 2 ^ W) : zext64 (BitVec.ofNat W n) = BitVec.ofNat 64 n := by
  apply BitVec.eq_of_toNat_eq
  have : 2 ^ W ≤ 2 ^ 64 := Nat.pow_le_pow_right (by omega) hW
  simp only [zext64, BitVec.toNat_setWidth, BitVec.toNat_ofNat]
  rw [Nat.mod_eq_of_lt h]

/-- What a command does, by cases. -/
inductive ExecCase (i : Instr) (s : State) : Prop where
  /-- No Buffer (60_exceptions.md R247). -/
  | noBuffer : s.live = false → (∀ n, i ≠ .create n) → exec i s = raise .noBuffer s → ExecCase i s
  /-- A bound or a count (60_exceptions.md R241). -/
  | outOfBounds : s.live = true → OutOfBoundsCondition i s → exec i s = raise .outOfBounds s → ExecCase i s
  /-- A string read that is not text (60_exceptions.md R242). -/
  | invalidEncoding : i = .rdStr → s.live = true → s.cursor + 32 + 8 * s.field s.cursor 32 ≤ 8 * s.length →
      utf8Valid (bytesAt s (s.cursor + 32) (s.field s.cursor 32)) = false →
      exec i s = raise .invalidEncoding s → ExecCase i s
  /-- CREATE above MAX_BYTES (60_exceptions.md R244). -/
  | constructionError (n : BitVec 64) : i = .create n → n.toNat > s.maxBytes → exec i s = raise .constructionError s →
      ExecCase i s
  /-- CREATE (40_buffer_cursor.md R91). -/
  | created (n : BitVec 64) : i = .create n → n.toNat ≤ s.maxBytes →
      exec i s = .next (respond (makeBuffer s n.toNat) statusOk 0 []) → ExecCase i s
  /-- INTO_BYTES (40_buffer_cursor.md R92). -/
  | consumed : i = .intoBytes → s.live = true →
      exec i s = .next (respond (dropBuffer s) statusOk 0 ((List.range s.length).map (Memory.read s.storage))) →
      ExecCase i s
  /-- SEEK (40_buffer_cursor.md R96). -/
  | sought (offset : BitVec 64) : i = .seek offset → s.live = true → offset.toNat ≤ 8 * s.length →
      exec i s = .next (respond (moveCursor s offset.toNat) statusOk 0 []) → ExecCase i s
  /-- An accessor or a predicate: an answer, and nothing else. -/
  | answered (rdata : BitVec 64) : bitsMoved i = none → changesStorage i = false → (∀ n, i ≠ .seek n) → s.live = true →
      exec i s = .next (respond s statusOk rdata []) → ExecCase i s
  /-- A write command: its value in a field at the cursor. -/
  | wrote (t : State) (n v : Nat) : writtenValue i = some v → bitsMoved i = some n → CountLegal i → changesStorage i = true →
      s.live = true → s.cursor + n ≤ 8 * s.length → v < 2 ^ n → FieldWritten s t n v.testBit →
      exec i s = .next (respond t statusOk 0 []) → ExecCase i s
  /-- A scalar read: the field at the cursor, presented as its type says. -/
  | readScalar (n : Nat) : writtenValue i = none → bitsMoved i = some n → CountLegal i → changesStorage i = false →
      i ≠ .rdStr → (∀ m, i ≠ .rdBytes m) → n ≤ 64 →
      s.live = true → s.cursor + n ≤ 8 * s.length →
      exec i s = .next (respond (advance s n) statusOk (presented i (s.field s.cursor n)) []) → ExecCase i s
  /-- RD_BYTES (45_bytes_string_codecs.md R213). -/
  | readBytes (len : BitVec 32) : i = .rdBytes len → s.live = true → s.cursor + 8 * len.toNat ≤ 8 * s.length →
      exec i s = .next (respond (advance s (8 * len.toNat)) statusOk 0 (bytesAt s s.cursor len.toNat)) → ExecCase i s
  /-- RD_STR (45_bytes_string_codecs.md R217). -/
  | readText : i = .rdStr → s.live = true → s.cursor + 32 + 8 * s.field s.cursor 32 ≤ 8 * s.length →
      utf8Valid (bytesAt s (s.cursor + 32) (s.field s.cursor 32)) = true →
      exec i s = .next (respond (advance s (32 + 8 * s.field s.cursor 32)) statusOk 0
        (bytesAt s (s.cursor + 32) (s.field s.cursor 32))) → ExecCase i s

/-! ## The statuses of a command (60_exceptions.md R253) -/

theorem statusOk_mem_mayAnswer (i : Instr) : statusOk ∈ mayAnswer i := by
  cases i <;> exact List.mem_cons_self

theorem noBuffer_mem_mayAnswer {i : Instr} (h : ∀ n, i ≠ .create n) : ErrorKind.noBuffer.code ∈ mayAnswer i := by
  cases i <;> first
    | exact absurd rfl (h _)
    | exact .tail _ (.head _)
    | exact .tail _ (.tail _ (.head _))
    | exact .tail _ (.tail _ (.tail _ (.head _)))

theorem outOfBounds_mem_mayAnswer {i : Instr} (h : (∃ n, i = .seek n) ∨ ∃ n, bitsMoved i = some n) :
    ErrorKind.outOfBounds.code ∈ mayAnswer i := by
  rcases h with ⟨n, rfl⟩ | ⟨n, h⟩
  · exact .tail _ (.head _)
  · cases i <;> cases h <;> exact .tail _ (.head _)

/-- No count to check without bits to move. -/
theorem countOperand_bitsMoved {i : Instr} {c : Nat × Nat} (h : countOperand i = some c) : bitsMoved i = some c.1 := by
  cases i <;> cases h <;> rfl

/-! ## Building a case -/

theorem outOfBounds_seek {n : BitVec 64} {s : State} : OutOfBoundsCondition (.seek n) s ↔ n.toNat > 8 * s.length := Iff.rfl

theorem outOfBounds_rdStr {s : State} :
    OutOfBoundsCondition .rdStr s ↔
      s.cursor + 32 > 8 * s.length ∨ s.cursor + 32 + 8 * s.field s.cursor 32 > 8 * s.length := Iff.rfl

/-- The OutOfBounds condition of a command that is neither SEEK nor RD_STR. -/
theorem outOfBounds_transfer {i : Instr} {s : State} (h1 : i ≠ .rdStr) (h2 : ∀ m, i ≠ .seek m) :
    OutOfBoundsCondition i s ↔
      (∃ c, countOperand i = some c ∧ (c.1 < 1 ∨ c.1 > c.2)) ∨ (∃ n, bitsMoved i = some n ∧ s.cursor + n > 8 * s.length) := by
  cases i <;> first | exact Iff.rfl | exact absurd rfl h1 | exact absurd rfl (h2 _)

theorem execCase_write {i : Instr} {s : State} {n v : Nat} {r : Except Fault State} {f : Nat → Bool}
    (he : exec i s = needBuffer s (needRoom n s (finishWrite r)))
    (hv : writtenValue i = some v) (hn : bitsMoved i = some n) (hc : countOperand i = none) (hs : changesStorage i = true)
    (hr : s.cursor + n ≤ 8 * s.length → ∃ t, r = .ok t ∧ FieldWritten s t n f)
    (hf : ∀ j, j < n → f j = v.testBit j) (hlt : v < 2 ^ n)
    (hx : i ≠ .rdStr ∧ (∀ m, i ≠ .seek m) ∧ ∀ m, i ≠ .create m) : ExecCase i s := by
  rcases transfer_cases n s (finishWrite r) with ⟨hl, e⟩ | ⟨hl, hb, e⟩ | ⟨hl, hb, e⟩
  · exact .noBuffer hl hx.2.2 (he.trans e)
  · exact .outOfBounds hl ((outOfBounds_transfer hx.1 hx.2.1).2 (.inr ⟨n, hn, hb⟩)) (he.trans e)
  · obtain ⟨t, rfl, hw⟩ := hr hb
    exact .wrote t n v hv hn (fun c h => by rw [hc] at h; cases h) hs hl hb hlt (hw.congr hf) (he.trans e)

theorem execCase_writePart {i : Instr} {s : State} {n W v : Nat} {r : Except Fault State} {f : Nat → Bool}
    (he : exec i s = needBuffer s (needCount n W s (needRoom n s (finishWrite r))))
    (hv : writtenValue i = some v) (hn : bitsMoved i = some n) (hc : countOperand i = some (n, W))
    (hs : changesStorage i = true)
    (hr : 1 ≤ n → n ≤ W → s.cursor + n ≤ 8 * s.length → ∃ t, r = .ok t ∧ FieldWritten s t n f)
    (hf : ∀ j, j < n → f j = v.testBit j) (hlt : v < 2 ^ n)
    (hx : i ≠ .rdStr ∧ (∀ m, i ≠ .seek m) ∧ ∀ m, i ≠ .create m) : ExecCase i s := by
  rcases part_cases n W s (finishWrite r) with ⟨hl, e⟩ | ⟨hl, hb, e⟩ | ⟨hl, h1, h2, hb, e⟩
  · exact .noBuffer hl hx.2.2 (he.trans e)
  · refine .outOfBounds hl ((outOfBounds_transfer hx.1 hx.2.1).2 ?_) (he.trans e)
    rcases hb with hb | hb | hb
    · exact .inl ⟨_, hc, .inl hb⟩
    · exact .inl ⟨_, hc, .inr hb⟩
    · exact .inr ⟨n, hn, hb⟩
  · obtain ⟨t, rfl, hw⟩ := hr h1 h2 hb
    refine .wrote t n v hv hn (fun c h => ?_) hs hl hb hlt (hw.congr hf) (he.trans e)
    rw [hc] at h; cases h; exact ⟨h1, h2⟩

theorem execCase_read {i : Instr} {s : State} {n : Nat} {k : Out}
    (he : exec i s = needBuffer s (needRoom n s k))
    (hv : writtenValue i = none) (hn : bitsMoved i = some n) (hc : countOperand i = none) (hs : changesStorage i = false)
    (hk : s.cursor + n ≤ 8 * s.length → k = .next (respond (advance s n) statusOk (presented i (s.field s.cursor n)) []))
    (h64 : n ≤ 64)
    (hx : i ≠ .rdStr ∧ (∀ m, i ≠ .seek m) ∧ (∀ m, i ≠ .create m) ∧ ∀ m, i ≠ .rdBytes m) : ExecCase i s := by
  rcases transfer_cases n s k with ⟨hl, e⟩ | ⟨hl, hb, e⟩ | ⟨hl, hb, e⟩
  · exact .noBuffer hl hx.2.2.1 (he.trans e)
  · exact .outOfBounds hl ((outOfBounds_transfer hx.1 hx.2.1).2 (.inr ⟨n, hn, hb⟩)) (he.trans e)
  · exact .readScalar n hv hn (fun c h => by rw [hc] at h; cases h) hs hx.1 hx.2.2.2 h64 hl hb ((he.trans e).trans (hk hb))

theorem execCase_readPart {i : Instr} {s : State} {n W : Nat} {k : Out}
    (he : exec i s = needBuffer s (needCount n W s (needRoom n s k)))
    (hv : writtenValue i = none) (hn : bitsMoved i = some n) (hc : countOperand i = some (n, W))
    (hs : changesStorage i = false) (hW : W ≤ 64)
    (hk : 1 ≤ n → n ≤ W → s.cursor + n ≤ 8 * s.length →
      k = .next (respond (advance s n) statusOk (presented i (s.field s.cursor n)) []))
    (hx : i ≠ .rdStr ∧ (∀ m, i ≠ .seek m) ∧ (∀ m, i ≠ .create m) ∧ ∀ m, i ≠ .rdBytes m) : ExecCase i s := by
  rcases part_cases n W s k with ⟨hl, e⟩ | ⟨hl, hb, e⟩ | ⟨hl, h1, h2, hb, e⟩
  · exact .noBuffer hl hx.2.2.1 (he.trans e)
  · refine .outOfBounds hl ((outOfBounds_transfer hx.1 hx.2.1).2 ?_) (he.trans e)
    rcases hb with hb | hb | hb
    · exact .inl ⟨_, hc, .inl hb⟩
    · exact .inl ⟨_, hc, .inr hb⟩
    · exact .inr ⟨n, hn, hb⟩
  · refine .readScalar n hv hn (fun c h => ?_) hs hx.1 hx.2.2.2 (by omega) hl hb ((he.trans e).trans (hk h1 h2 hb))
    rw [hc] at h; cases h; exact ⟨h1, h2⟩

theorem testBit_whole {W : Nat} (v : BitVec W) (j : Nat) : v.getLsbD j = v.toNat.testBit j := (BitVec.testBit_toNat v).symm

theorem testBit_part {W : Nat} (v : BitVec W) (n j : Nat) (h : j < n) : v.getLsbD j = (v.toNat % 2 ^ n).testBit j := by
  rw [Nat.testBit_mod_two_pow, BitVec.testBit_toNat]; simp [h]

theorem mod_lt (v n : Nat) : v % 2 ^ n < 2 ^ n := Nat.mod_lt _ (Nat.two_pow_pos n)

/-- A read of width `W` and `n` bits, unsigned, as `finishRead` answers it. -/
theorem finishRead_zext {W n : Nat} {i : Instr} {s : State} {r : Except Fault (BitVec W × State)}
    (hr : r = .ok (BitVec.ofNat W (s.field s.cursor n), advance s n)) (hn : n ≤ W) (hW : W ≤ 64)
    (hi : signedReadWidth i = none) :
    finishRead zext64 r = .next (respond (advance s n) statusOk (presented i (s.field s.cursor n)) []) := by
  have h : s.field s.cursor n < 2 ^ W := Nat.lt_of_lt_of_le (field_lt _ _ _) (Nat.pow_le_pow_right (by omega) hn)
  rw [hr, finishRead_ok, zext64_ofNat hW h, presented, hi]

/-- A read of width `W` and `n` bits, signed. -/
theorem finishRead_sext {W n : Nat} {i : Instr} {s : State} {r : Except Fault (BitVec W × State)}
    (hr : r = .ok (BitVec.ofNat W (s.field s.cursor n), advance s n)) (hn : n ≤ W) (h0 : 0 < W) (hW : W ≤ 64)
    (hi : signedReadWidth i = some W) :
    finishRead sext64 r = .next (respond (advance s n) statusOk (presented i (s.field s.cursor n)) []) := by
  have h : s.field s.cursor n < 2 ^ W := Nat.lt_of_lt_of_le (field_lt _ _ _) (Nat.pow_le_pow_right (by omega) hn)
  rw [hr, finishRead_ok, sext64_ofNat h0 hW h, presented, hi]

/-- A command whose only check is for a Buffer, and which answers without moving anything. -/
theorem execCase_answer {i : Instr} {s : State} {d : BitVec 64} (he : exec i s = needBuffer s (finish s d []))
    (hb : bitsMoved i = none) (hs : changesStorage i = false) (hx : (∀ n, i ≠ .create n) ∧ ∀ n, i ≠ .seek n) : ExecCase i s := by
  cases hl : s.live with
  | false => exact .noBuffer hl hx.1 (he.trans (needBuffer_dead hl))
  | true => exact .answered d hb hs hx.2 hl (he.trans (needBuffer_live hl))

theorem execCase_rdStr (s : State) : ExecCase .rdStr s := by
  rcases transfer_cases 32 s (andThen (readPart 32 32 s) fun x =>
      if fits x.2 (8 * x.1.toNat) then
        andThen (readBytes x.1.toNat x.2) fun y =>
          if utf8Valid y.1 then finish y.2 0 y.1 else raise .invalidEncoding s
      else raise .outOfBounds s) with ⟨hl, e⟩ | ⟨hl, hb, e⟩ | ⟨hl, hb, e⟩
  · exact .noBuffer hl (by simp) e
  · exact .outOfBounds hl (.inl hb) e
  · replace e : exec .rdStr s = _ := e
    have hf := field_lt s s.cursor 32
    have hn : (BitVec.ofNat 32 (s.field s.cursor 32)).toNat = s.field s.cursor 32 := by
      rw [BitVec.toNat_ofNat, Nat.mod_eq_of_lt hf]
    rw [readPart_eq 32 32 s (by omega) (by omega) hb, andThen_ok] at e
    simp only [hn] at e
    by_cases hr : s.cursor + 32 + 8 * s.field s.cursor 32 ≤ 8 * s.length
    · rw [if_pos ((fits_iff _ _).2 (by simpa using hr)), readBytes_eq _ _ (by simpa using hr), andThen_ok] at e
      have hbytes : bytesAt (advance s 32) (advance s 32).cursor (s.field s.cursor 32) =
          bytesAt s (s.cursor + 32) (s.field s.cursor 32) := by
        simp only [bytesAt, advance_cursor]
        congr 1
      have hadv : advance (advance s 32) (8 * s.field s.cursor 32) = advance s (32 + 8 * s.field s.cursor 32) := by
        simp [advance, Nat.add_assoc]
      simp only [hbytes, hadv] at e
      cases hv : utf8Valid (bytesAt s (s.cursor + 32) (s.field s.cursor 32)) with
      | true => exact .readText rfl hl hr hv (by rw [hv] at e; exact e)
      | false => exact .invalidEncoding rfl hl hr hv (by rw [hv] at e; exact e)
    · have : ¬ fits (advance s 32) (8 * s.field s.cursor 32) = true := fun h => hr (by simpa using (fits_iff _ _).1 h)
      rw [if_neg this] at e
      exact .outOfBounds hl (.inr (by omega)) e

theorem execCase_rdBytes (len : BitVec 32) (s : State) : ExecCase (.rdBytes len) s := by
  rcases transfer_cases (8 * len.toNat) s (andThen (readBytes len.toNat s) fun x => finish x.2 0 x.1) with
    ⟨hl, e⟩ | ⟨hl, hb, e⟩ | ⟨hl, hb, e⟩
  · exact .noBuffer hl (by simp) e
  · exact .outOfBounds hl ((outOfBounds_transfer (by simp) (by simp)).2 (.inr ⟨_, rfl, hb⟩)) e
  · replace e : exec (.rdBytes len) s = _ := e
    rw [readBytes_eq _ _ hb, andThen_ok] at e
    exact .readBytes len rfl hl hb e

theorem execCase_wrStr (payload : List Byte) (s : State) : ExecCase (.wrStr payload) s := by
  refine execCase_write (v := payload.length % 2 ^ 32 + 2 ^ 32 * bytesValue payload) rfl rfl rfl rfl rfl
    (fun h => writeString_ok payload s h) (fun j hj => ?_) ?_ (by simp)
  · rw [Nat.add_comm, Nat.testBit_two_pow_mul_add _ (Nat.mod_lt _ (by omega)), bytesValue_testBit]
    by_cases h32 : j < 32
    · simp only [h32, if_true, BitVec.getLsbD_ofNat, Nat.testBit_mod_two_pow]
    · simp [h32]
  · have h1 := bytesValue_lt payload
    have h2 : payload.length % 2 ^ 32 < 2 ^ 32 := Nat.mod_lt _ (by omega)
    rw [Nat.pow_add]
    calc _ < 2 ^ 32 + 2 ^ 32 * bytesValue payload := by omega
      _ = 2 ^ 32 * (bytesValue payload + 1) := by omega
      _ ≤ _ := Nat.mul_le_mul_left _ h1

theorem execCase_wrBytes (payload : List Byte) (s : State) : ExecCase (.wrBytes payload) s :=
  execCase_write rfl rfl rfl rfl rfl (fun h => writeBytes_ok payload s h)
    (fun j _ => (bytesValue_testBit payload j).symm) (bytesValue_lt payload) (by simp)

theorem execCase_intoBytes (s : State) : ExecCase .intoBytes s := by
  cases hl : s.live with
  | false => exact .noBuffer hl (by simp) (needBuffer_dead hl)
  | true =>
    refine .consumed rfl hl ((needBuffer_live hl).trans ?_)
    rw [storageBytes_ok s s.length 0 (by omega), ← List.range_eq_range']
    rfl

theorem execCase_create (n : BitVec 64) (s : State) : ExecCase (.create n) s := by
  by_cases h : n.toNat > s.maxBytes
  · exact .constructionError n rfl h (if_pos h)
  · exact .created n rfl (by omega) (if_neg h)

theorem execCase_seek (n : BitVec 64) (s : State) : ExecCase (.seek n) s := by
  cases hl : s.live with
  | false => exact .noBuffer hl (by simp) (needBuffer_dead hl)
  | true =>
    by_cases h : n.toNat > 8 * s.length
    · exact .outOfBounds hl h ((needBuffer_live hl).trans (if_pos h))
    · exact .sought n rfl hl (by omega) ((needBuffer_live hl).trans (if_neg h))

theorem execCase_wrBool (v : Bool) (s : State) : ExecCase (.wrBool v) s :=
  execCase_write (v := v.toNat) rfl rfl rfl rfl rfl (fun h => writeBits_ok (boolByte v) 1 s (by omega) (by omega) h)
    (fun j hj => by obtain rfl : j = 0 := by omega
                    cases v <;> rfl)
    (by cases v <;> decide) (by simp)

theorem execCase_rdFloat {i : Instr} {s : State} {n : Nat} {W : Nat} (hWn : W = 8 * n) (hW : W ≤ 64) (present : BitVec W → BitVec 64)
    (hp : ∀ x, present x = zext64 x)
    (he : exec i s = needBuffer s (needRoom W s (andThen (readBytes n s) fun x => finish x.2 (present (orBytes W 0 x.1)) [])))
    (hv : writtenValue i = none) (hn : bitsMoved i = some W) (hc : countOperand i = none) (hs : changesStorage i = false)
    (hg : signedReadWidth i = none)
    (hx : i ≠ .rdStr ∧ (∀ m, i ≠ .seek m) ∧ (∀ m, i ≠ .create m) ∧ ∀ m, i ≠ .rdBytes m) : ExecCase i s := by
  refine execCase_read he hv hn hc hs (fun h => ?_) hW hx
  rw [readBytes_eq n s (by omega), andThen_ok, hp, orBytes_bytesAt W s.cursor n s hWn, zext64_ofNat hW (field_lt _ _ _), finish_eq,
    presented, hg, hWn]

/-- Every command, in every state, falls under one of the cases. -/
theorem exec_cases (i : Instr) (s : State) : ExecCase i s := by
  cases i with
  | create n => exact execCase_create n s
  | intoBytes => exact execCase_intoBytes s
  | getBitPos => exact execCase_answer rfl rfl rfl (by simp)
  | getBytePos => exact execCase_answer rfl rfl rfl (by simp)
  | getCapBits => exact execCase_answer rfl rfl rfl (by simp)
  | seek n => exact execCase_seek n s
  | canWrBits n => exact execCase_answer rfl rfl rfl (by simp)
  | canRdBits n => exact execCase_answer rfl rfl rfl (by simp)
  | canWrBytes n => exact execCase_answer rfl rfl rfl (by simp)
  | canRdBytes n => exact execCase_answer rfl rfl rfl (by simp)
  | wrBits v c =>
    exact execCase_writePart (f := v.getLsbD) rfl rfl rfl rfl rfl (fun h1 h2 h => writeBits_ok v _ s h1 h2 h) (fun j h => testBit_part v _ j h)
      (mod_lt _ _) (by simp)
  | rdBits c =>
    exact execCase_readPart rfl rfl rfl rfl rfl (by omega)
      (fun h1 h2 h => finishRead_zext (readBits_eq _ s h1 h2 h) h2 (by omega) rfl) (by simp)
  | wrBool v => exact execCase_wrBool v s
  | rdBool =>
    exact execCase_read rfl rfl rfl rfl rfl
      (fun h => finishRead_zext (readBits_eq 1 s (by omega) (by omega) h) (by omega) (by omega) rfl) (by omega) (by simp)
  | wrU8 v =>
    exact execCase_write (f := v.getLsbD) rfl rfl rfl rfl rfl (fun h => writePart_ok v 8 s (by omega) h) (fun j _ => testBit_whole v j) v.isLt (by simp)
  | wrI8 v =>
    exact execCase_write (f := v.getLsbD) rfl rfl rfl rfl rfl (fun h => writePart_ok v 8 s (by omega) h) (fun j _ => testBit_whole v j) v.isLt (by simp)
  | wrU16 v =>
    exact execCase_write (f := v.getLsbD) rfl rfl rfl rfl rfl (fun h => writePart_ok v 16 s (by omega) h) (fun j _ => testBit_whole v j) v.isLt (by simp)
  | wrI16 v =>
    exact execCase_write (f := v.getLsbD) rfl rfl rfl rfl rfl (fun h => writePart_ok v 16 s (by omega) h) (fun j _ => testBit_whole v j) v.isLt (by simp)
  | wrU32 v =>
    exact execCase_write (f := v.getLsbD) rfl rfl rfl rfl rfl (fun h => writePart_ok v 32 s (by omega) h) (fun j _ => testBit_whole v j) v.isLt (by simp)
  | wrI32 v =>
    exact execCase_write (f := v.getLsbD) rfl rfl rfl rfl rfl (fun h => writePart_ok v 32 s (by omega) h) (fun j _ => testBit_whole v j) v.isLt (by simp)
  | wrU64 v =>
    exact execCase_write (f := v.getLsbD) rfl rfl rfl rfl rfl (fun h => writePart64_ok v 64 s (by omega) h) (fun j _ => testBit_whole v j) v.isLt (by simp)
  | wrI64 v =>
    exact execCase_write (f := v.getLsbD) rfl rfl rfl rfl rfl (fun h => writePart64_ok v 64 s (by omega) h) (fun j _ => testBit_whole v j) v.isLt (by simp)
  | wrU8Part v b =>
    exact execCase_writePart (f := v.getLsbD) rfl rfl rfl rfl rfl (fun h1 _ h => writePart_ok v _ s h1 h) (fun j h => testBit_part v _ j h) (mod_lt _ _) (by simp)
  | wrI8Part v b =>
    exact execCase_writePart (f := v.getLsbD) rfl rfl rfl rfl rfl (fun h1 _ h => writePart_ok v _ s h1 h) (fun j h => testBit_part v _ j h) (mod_lt _ _) (by simp)
  | wrU16Part v b =>
    exact execCase_writePart (f := v.getLsbD) rfl rfl rfl rfl rfl (fun h1 _ h => writePart_ok v _ s h1 h) (fun j h => testBit_part v _ j h) (mod_lt _ _) (by simp)
  | wrI16Part v b =>
    exact execCase_writePart (f := v.getLsbD) rfl rfl rfl rfl rfl (fun h1 _ h => writePart_ok v _ s h1 h) (fun j h => testBit_part v _ j h) (mod_lt _ _) (by simp)
  | wrU32Part v b =>
    exact execCase_writePart (f := v.getLsbD) rfl rfl rfl rfl rfl (fun h1 _ h => writePart_ok v _ s h1 h) (fun j h => testBit_part v _ j h) (mod_lt _ _) (by simp)
  | wrI32Part v b =>
    exact execCase_writePart (f := v.getLsbD) rfl rfl rfl rfl rfl (fun h1 _ h => writePart_ok v _ s h1 h) (fun j h => testBit_part v _ j h) (mod_lt _ _) (by simp)
  | wrU64Part v b =>
    exact execCase_writePart (f := v.getLsbD) rfl rfl rfl rfl rfl (fun h1 _ h => writePart64_ok v _ s h1 h) (fun j h => testBit_part v _ j h) (mod_lt _ _) (by simp)
  | wrI64Part v b =>
    exact execCase_writePart (f := v.getLsbD) rfl rfl rfl rfl rfl (fun h1 _ h => writePart64_ok v _ s h1 h) (fun j h => testBit_part v _ j h) (mod_lt _ _) (by simp)
  | rdU8 =>
    exact execCase_read rfl rfl rfl rfl rfl
      (fun h => finishRead_zext (readPart_eq 8 8 s (by omega) (by omega) h) (by omega) (by omega) rfl) (by omega) (by simp)
  | rdI8 =>
    exact execCase_read rfl rfl rfl rfl rfl
      (fun h => finishRead_sext (readPart_eq 8 8 s (by omega) (by omega) h) (by omega) (by omega) (by omega) rfl) (by omega) (by simp)
  | rdU16 =>
    exact execCase_read rfl rfl rfl rfl rfl
      (fun h => finishRead_zext (readPart_eq 16 16 s (by omega) (by omega) h) (by omega) (by omega) rfl) (by omega) (by simp)
  | rdI16 =>
    exact execCase_read rfl rfl rfl rfl rfl
      (fun h => finishRead_sext (readPart_eq 16 16 s (by omega) (by omega) h) (by omega) (by omega) (by omega) rfl) (by omega) (by simp)
  | rdU32 =>
    exact execCase_read rfl rfl rfl rfl rfl
      (fun h => finishRead_zext (readPart_eq 32 32 s (by omega) (by omega) h) (by omega) (by omega) rfl) (by omega) (by simp)
  | rdI32 =>
    exact execCase_read rfl rfl rfl rfl rfl
      (fun h => finishRead_sext (readPart_eq 32 32 s (by omega) (by omega) h) (by omega) (by omega) (by omega) rfl) (by omega) (by simp)
  | rdU64 =>
    exact execCase_read rfl rfl rfl rfl rfl
      (fun h => finishRead_zext (readPart64_eq 64 s (by omega) (by omega) h) (by omega) (by omega) rfl) (by omega) (by simp)
  | rdI64 =>
    exact execCase_read rfl rfl rfl rfl rfl
      (fun h => finishRead_sext (readPart64_eq 64 s (by omega) (by omega) h) (by omega) (by omega) (by omega) rfl) (by omega) (by simp)
  | rdU8Part b =>
    exact execCase_readPart rfl rfl rfl rfl rfl (by omega)
      (fun h1 h2 h => finishRead_zext (readPart_eq 8 _ s h1 h2 h) h2 (by omega) rfl) (by simp)
  | rdI8Part b =>
    exact execCase_readPart rfl rfl rfl rfl rfl (by omega)
      (fun h1 h2 h => finishRead_sext (readPart_eq 8 _ s h1 h2 h) h2 (by omega) (by omega) rfl) (by simp)
  | rdU16Part b =>
    exact execCase_readPart rfl rfl rfl rfl rfl (by omega)
      (fun h1 h2 h => finishRead_zext (readPart_eq 16 _ s h1 h2 h) h2 (by omega) rfl) (by simp)
  | rdI16Part b =>
    exact execCase_readPart rfl rfl rfl rfl rfl (by omega)
      (fun h1 h2 h => finishRead_sext (readPart_eq 16 _ s h1 h2 h) h2 (by omega) (by omega) rfl) (by simp)
  | rdU32Part b =>
    exact execCase_readPart rfl rfl rfl rfl rfl (by omega)
      (fun h1 h2 h => finishRead_zext (readPart_eq 32 _ s h1 h2 h) h2 (by omega) rfl) (by simp)
  | rdI32Part b =>
    exact execCase_readPart rfl rfl rfl rfl rfl (by omega)
      (fun h1 h2 h => finishRead_sext (readPart_eq 32 _ s h1 h2 h) h2 (by omega) (by omega) rfl) (by simp)
  | rdU64Part b =>
    exact execCase_readPart rfl rfl rfl rfl rfl (by omega)
      (fun h1 h2 h => finishRead_zext (readPart64_eq _ s h1 h2 h) h2 (by omega) rfl) (by simp)
  | rdI64Part b =>
    exact execCase_readPart rfl rfl rfl rfl rfl (by omega)
      (fun h1 h2 h => finishRead_sext (readPart64_eq _ s h1 h2 h) h2 (by omega) (by omega) rfl) (by simp)
  | wrF32 v =>
    exact execCase_write (f := v.getLsbD) rfl rfl rfl rfl rfl (fun h => writeBytes_pattern 4 v s h) (fun j _ => testBit_whole v j) v.isLt (by simp)
  | wrF64 v =>
    exact execCase_write (f := v.getLsbD) rfl rfl rfl rfl rfl (fun h => writeBytes_pattern 8 v s h) (fun j _ => testBit_whole v j) v.isLt (by simp)
  | rdF32 => exact execCase_rdFloat (n := 4) rfl (by omega) zext64 (fun _ => rfl) rfl rfl rfl rfl rfl rfl (by simp)
  | rdF64 =>
    exact execCase_rdFloat (n := 8) rfl (by omega) id (fun x => (BitVec.setWidth_eq x).symm) rfl rfl rfl rfl rfl rfl (by simp)
  | wrBytes payload => exact execCase_wrBytes payload s
  | rdBytes len => exact execCase_rdBytes len s
  | wrStr payload => exact execCase_wrStr payload s
  | rdStr => exact execCase_rdStr s

end Sys2Proof.Machine
end

