-- ==== Sys2Proof/Laws/Channels.lean ====
section
/-! SUPPORT. What a step finds on the channels, one lemma for each case (30_encoding.md R71, R72;
70_reset_and_hazards.md R270). -/

namespace Sys2Proof.Machine

theorem collect_whole {w : Word128} {got : List Byte} {s : State} (h : payloadCount w - got.length ≤ s.wp.length) :
    collect w got s =
      .command ⟨w, got ++ s.wp.take (payloadCount w - got.length)⟩ (takePayload s (payloadCount w - got.length)) := by
  simp only [collect]
  rw [if_neg (by omega)]

theorem collect_short {w : Word128} {got : List Byte} {s : State} (h : s.wp.length < payloadCount w - got.length) :
    collect w got s = .quiet (holdPayload s w got) := by
  simp only [collect]
  rw [if_pos h]

theorem fetch_reset {s : State} (h : s.rst = true) : fetch s = .quiet (resetBlock s) := by
  simp [fetch, h]

theorem fetch_inFlight {s : State} {f : InFlight} (h : s.rst = false) (hf : s.inFlight = some f) :
    fetch s = collect f.word f.taken s := by
  simp [fetch, h, hf]

theorem fetch_idle {s : State} (h : s.rst = false) (hf : s.inFlight = none) (hc : s.cmd = []) : fetch s = .quiet s := by
  simp [fetch, h, hf, hc]

theorem fetch_next {s : State} {w : Word128} {rest : List Word128} (h : s.rst = false) (hf : s.inFlight = none)
    (hc : s.cmd = w :: rest) : fetch s = collect w [] (takeWord s rest) := by
  simp [fetch, h, hf, hc]

/-- Everything a step finds: what it leaves when it is quiet, and how a command's state differs from the state
before. -/
theorem fetch_cases (s : State) :
    (∃ t, fetch s = .quiet t ∧
      ((s.rst = true ∧ t = resetBlock s) ∨ (s.rst = false ∧ t = s) ∨
       (s.rst = false ∧ ∃ w got r, t = holdPayload r w got ∧ (r = s ∨ ∃ rest, r = takeWord s rest) ∧
        s.wp.length < payloadCount w - got.length))) ∨
    (∃ c t n, fetch s = .command c t ∧ s.rst = false ∧
      (t = takePayload s n ∨ ∃ rest, t = takePayload (takeWord s rest) n)) := by
  cases hr : s.rst with
  | true => exact .inl ⟨_, fetch_reset hr, .inl ⟨rfl, rfl⟩⟩
  | false =>
    cases hf : s.inFlight with
    | some f =>
      rw [fetch_inFlight hr hf]
      rcases Nat.lt_or_ge s.wp.length (payloadCount f.word - f.taken.length) with h | h
      · exact .inl ⟨_, collect_short h, .inr (.inr ⟨rfl, _, _, s, rfl, .inl rfl, h⟩)⟩
      · exact .inr ⟨_, _, _, collect_whole h, rfl, .inl rfl⟩
    | none =>
      cases hc : s.cmd with
      | nil => exact .inl ⟨_, fetch_idle hr hf hc, .inr (.inl ⟨rfl, rfl⟩)⟩
      | cons w rest =>
        rw [fetch_next hr hf hc]
        rcases Nat.lt_or_ge s.wp.length (payloadCount w - ([] : List Byte).length) with h | h
        · exact .inl ⟨_, collect_short h, .inr (.inr ⟨rfl, _, _, _, rfl, .inr ⟨rest, rfl⟩, h⟩)⟩
        · exact .inr ⟨_, _, _, collect_whole h, rfl, .inr ⟨rest, rfl⟩⟩

/-- A step on a command the block has taken. -/
theorem step_command {s t : State} {c : Command} (h : fetch s = .command c t) : step s = runCommand c t := by
  simp [step, h]

/-- A step with nothing to execute. -/
theorem step_quiet {s t : State} (h : fetch s = .quiet t) : step s = .next t := by
  simp [step, h]

end Sys2Proof.Machine
end

