-- ==== Sys2Proof/Laws/PerInstr.lean ====
section
/-! SUPPORT. A fact about every command as it is encoded: OP is its row of the opcode map, RSVD is zero, so the word
is legal (30_encoding.md R62, R66). -/

namespace Sys2Proof.Laws.EncodedFields

/-- The encoder's word holds the command's OP and a zero RSVD. -/
def Statement (i : Instr) : Prop :=
  opField (encode i).word = opcode i ∧ rsvdField (encode i).word = 0#16

theorem of_pack {i : Instr} {op nb : BitVec 8} {len : BitVec 32} {arg : BitVec 64} (h : encodeWord i = packWord op nb len arg)
    (ho : opcode i = op) : Statement i := by
  simp [Statement, encode, h, ho]

theorem create (byteLength : BitVec 64) : Statement (.create byteLength) := of_pack rfl rfl
theorem intoBytes : Statement .intoBytes := of_pack rfl rfl
theorem getBitPos : Statement .getBitPos := of_pack rfl rfl
theorem getBytePos : Statement .getBytePos := of_pack rfl rfl
theorem getCapBits : Statement .getCapBits := of_pack rfl rfl
theorem seek (offset : BitVec 64) : Statement (.seek offset) := of_pack rfl rfl
theorem canWrBits (n : BitVec 64) : Statement (.canWrBits n) := of_pack rfl rfl
theorem canRdBits (n : BitVec 64) : Statement (.canRdBits n) := of_pack rfl rfl
theorem canWrBytes (n : BitVec 64) : Statement (.canWrBytes n) := of_pack rfl rfl
theorem canRdBytes (n : BitVec 64) : Statement (.canRdBytes n) := of_pack rfl rfl
theorem wrBits (value : Byte) (count : BitVec 8) : Statement (.wrBits value count) := of_pack rfl rfl
theorem rdBits (count : BitVec 8) : Statement (.rdBits count) := of_pack rfl rfl
theorem wrBool (value : Bool) : Statement (.wrBool value) := of_pack rfl rfl
theorem rdBool : Statement .rdBool := of_pack rfl rfl
theorem wrU8 (value : BitVec 8) : Statement (.wrU8 value) := of_pack rfl rfl
theorem wrI8 (value : BitVec 8) : Statement (.wrI8 value) := of_pack rfl rfl
theorem wrU16 (value : BitVec 16) : Statement (.wrU16 value) := of_pack rfl rfl
theorem wrI16 (value : BitVec 16) : Statement (.wrI16 value) := of_pack rfl rfl
theorem wrU32 (value : BitVec 32) : Statement (.wrU32 value) := of_pack rfl rfl
theorem wrI32 (value : BitVec 32) : Statement (.wrI32 value) := of_pack rfl rfl
theorem wrU64 (value : BitVec 64) : Statement (.wrU64 value) := of_pack rfl rfl
theorem wrI64 (value : BitVec 64) : Statement (.wrI64 value) := of_pack rfl rfl
theorem wrU8Part (value : BitVec 8) (bits : BitVec 8) : Statement (.wrU8Part value bits) := of_pack rfl rfl
theorem wrI8Part (value : BitVec 8) (bits : BitVec 8) : Statement (.wrI8Part value bits) := of_pack rfl rfl
theorem wrU16Part (value : BitVec 16) (bits : BitVec 8) : Statement (.wrU16Part value bits) := of_pack rfl rfl
theorem wrI16Part (value : BitVec 16) (bits : BitVec 8) : Statement (.wrI16Part value bits) := of_pack rfl rfl
theorem wrU32Part (value : BitVec 32) (bits : BitVec 8) : Statement (.wrU32Part value bits) := of_pack rfl rfl
theorem wrI32Part (value : BitVec 32) (bits : BitVec 8) : Statement (.wrI32Part value bits) := of_pack rfl rfl
theorem wrU64Part (value : BitVec 64) (bits : BitVec 8) : Statement (.wrU64Part value bits) := of_pack rfl rfl
theorem wrI64Part (value : BitVec 64) (bits : BitVec 8) : Statement (.wrI64Part value bits) := of_pack rfl rfl
theorem rdU8 : Statement .rdU8 := of_pack rfl rfl
theorem rdI8 : Statement .rdI8 := of_pack rfl rfl
theorem rdU16 : Statement .rdU16 := of_pack rfl rfl
theorem rdI16 : Statement .rdI16 := of_pack rfl rfl
theorem rdU32 : Statement .rdU32 := of_pack rfl rfl
theorem rdI32 : Statement .rdI32 := of_pack rfl rfl
theorem rdU64 : Statement .rdU64 := of_pack rfl rfl
theorem rdI64 : Statement .rdI64 := of_pack rfl rfl
theorem rdU8Part (bits : BitVec 8) : Statement (.rdU8Part bits) := of_pack rfl rfl
theorem rdI8Part (bits : BitVec 8) : Statement (.rdI8Part bits) := of_pack rfl rfl
theorem rdU16Part (bits : BitVec 8) : Statement (.rdU16Part bits) := of_pack rfl rfl
theorem rdI16Part (bits : BitVec 8) : Statement (.rdI16Part bits) := of_pack rfl rfl
theorem rdU32Part (bits : BitVec 8) : Statement (.rdU32Part bits) := of_pack rfl rfl
theorem rdI32Part (bits : BitVec 8) : Statement (.rdI32Part bits) := of_pack rfl rfl
theorem rdU64Part (bits : BitVec 8) : Statement (.rdU64Part bits) := of_pack rfl rfl
theorem rdI64Part (bits : BitVec 8) : Statement (.rdI64Part bits) := of_pack rfl rfl
theorem wrF32 (pattern : BitVec 32) : Statement (.wrF32 pattern) := of_pack rfl rfl
theorem wrF64 (pattern : BitVec 64) : Statement (.wrF64 pattern) := of_pack rfl rfl
theorem rdF32 : Statement .rdF32 := of_pack rfl rfl
theorem rdF64 : Statement .rdF64 := of_pack rfl rfl
theorem wrBytes (payload : List Byte) : Statement (.wrBytes payload) := of_pack rfl rfl
theorem rdBytes (len : BitVec 32) : Statement (.rdBytes len) := of_pack rfl rfl
theorem wrStr (payload : List Byte) : Statement (.wrStr payload) := of_pack rfl rfl
theorem rdStr : Statement .rdStr := of_pack rfl rfl

end Sys2Proof.Laws.EncodedFields
end

