-- ==== Sys2Proof/Laws/Utf8.lean ====
section
/-! SUPPORT. Valid UTF-8: taking one pattern of the table off the front of a sequence of bytes. -/

namespace Sys2Proof.Machine

/-- A pattern that the bytes begin with is as long as its row. -/
theorem afterRow_some {row : List (Nat × Nat)} {l rest : List Byte} (h : afterRow row l = some rest) :
    ∃ front, l = front ++ rest ∧ front.length = row.length := by
  induction row generalizing l with
  | nil => exact ⟨[], by simpa [afterRow] using h, rfl⟩
  | cons r row ih =>
    cases l with
    | nil => simp [afterRow] at h
    | cons b l =>
      simp only [afterRow] at h
      split at h
      · obtain ⟨f, hf, hl⟩ := ih h
        exact ⟨b :: f, by simp [hf], by simp [hl]⟩
      · cases h

/-- The first pattern that fits is one of the rows. -/
theorem afterAny_some {rows : List (List (Nat × Nat))} {l rest : List Byte} (h : afterAny rows l = some rest) :
    ∃ row ∈ rows, afterRow row l = some rest := by
  induction rows with
  | nil => simp [afterAny] at h
  | cons row rows ih =>
    simp only [afterAny] at h
    cases hr : afterRow row l with
    | some r =>
      rw [hr] at h
      exact ⟨row, by simp, by simpa [hr] using h⟩
    | none =>
      rw [hr] at h
      obtain ⟨row', hm, hrow⟩ := ih h
      exact ⟨row', by simp [hm], hrow⟩

/-- Every pattern takes at least one byte. -/
theorem afterAny_utf8Rows_shorter {l rest : List Byte} (h : afterAny utf8Rows l = some rest) :
    rest.length < l.length := by
  obtain ⟨row, hm, hr⟩ := afterAny_some h
  obtain ⟨front, rfl, hl⟩ := afterRow_some hr
  have all : ∀ r ∈ utf8Rows, 0 < r.length := by decide
  have := all row hm
  simp
  omega

/-- Any fuel that is at least the number of bytes gives the same answer. -/
theorem utf8Check_fuel {n : Nat} {l : List Byte} (h : l.length ≤ n) : utf8Check n l = utf8Valid l := by
  have key : ∀ (k : Nat) (l : List Byte) (m : Nat), l.length ≤ k → k ≤ m → utf8Check m l = utf8Check k l := by
    intro k
    induction k with
    | zero =>
      intro l m hl _
      have : l = [] := List.length_eq_zero_iff.1 (by omega)
      subst this
      cases m <;> rfl
    | succ k ih =>
      intro l m hl hm
      obtain ⟨m, rfl⟩ : ∃ m', m = m' + 1 := ⟨m - 1, by omega⟩
      cases l with
      | nil => rfl
      | cons b l =>
        simp only [utf8Check]
        cases ha : afterAny utf8Rows (b :: l) with
        | none => rfl
        | some rest =>
          have := afterAny_utf8Rows_shorter ha
          simp only [List.length_cons] at this hl
          exact ih rest m (by omega) (by omega)
  exact key l.length l n (Nat.le_refl _) h

/-- One step of the check: take the pattern at the front, then go on. -/
theorem utf8Valid_cons (b : Byte) (l : List Byte) :
    utf8Valid (b :: l) =
      match afterAny utf8Rows (b :: l) with
      | some rest => utf8Valid rest
      | none => false := by
  unfold utf8Valid
  simp only [List.length_cons, utf8Check]
  cases ha : afterAny utf8Rows (b :: l) with
  | none => rfl
  | some rest =>
    have := afterAny_utf8Rows_shorter ha
    exact utf8Check_fuel (by simp only [List.length_cons] at this; omega)

@[simp] theorem utf8Valid_nil : utf8Valid [] = true := rfl

end Sys2Proof.Machine
end

