-- ==== Sys2Proof/Tests/Slice0.lean ====
section
/-! SUPPORT. The model's own tests. Expected results are the spec's: command words written out from 30_encoding.md R60, R61 and R66, and
the vectors of 95_test_vectors.md (each test names its vector). -/

namespace Sys2Proof.Machine.Tests

/-! ## Well-formed commands -/

/-- The one check: a payload whose length does not fit LEN is refused, one that just fits is not. -/
theorem test_payload_too_long : (Instr.wrBytes (List.replicate (2 ^ 32) 0)).wellFormed = false ∧
    ¬ (Instr.wrStr (List.replicate (2 ^ 32) 0)).WellFormed := by
  simp [Instr.wellFormed, Instr.WellFormed, PayloadFits, -List.reduceReplicate]

theorem test_payload_longest : (Instr.wrBytes (List.replicate (2 ^ 32 - 1) 0)).wellFormed = true := by
  simp [Instr.wellFormed, PayloadFits, -List.reduceReplicate]

/-! ## Decoding: one word for every row of the opcode map, with every ignored field set -/

theorem test_decode_buffer :
    decode ⟨0x11223344556677F90102030400002B00, []⟩ = .ok (.create 0x11223344556677F9) ∧
    decode ⟨0x11223344556677F90102030400002B01, []⟩ = .ok .intoBytes ∧
    decode ⟨0x11223344556677F90102030400002B02, []⟩ = .ok .getBitPos ∧
    decode ⟨0x11223344556677F90102030400002B03, []⟩ = .ok .getBytePos ∧
    decode ⟨0x11223344556677F90102030400002B04, []⟩ = .ok .getCapBits ∧
    decode ⟨0x11223344556677F90102030400002B05, []⟩ = .ok (.seek 0x11223344556677F9) := by
  decide

theorem test_decode_predicates :
    decode ⟨0x11223344556677F90102030400002B10, []⟩ = .ok (.canWrBits 0x11223344556677F9) ∧
    decode ⟨0x11223344556677F90102030400002B11, []⟩ = .ok (.canRdBits 0x11223344556677F9) ∧
    decode ⟨0x11223344556677F90102030400002B12, []⟩ = .ok (.canWrBytes 0x11223344556677F9) ∧
    decode ⟨0x11223344556677F90102030400002B13, []⟩ = .ok (.canRdBytes 0x11223344556677F9) := by
  decide

theorem test_decode_bits :
    decode ⟨0x11223344556677F90102030400002B20, []⟩ = .ok (.wrBits 0xF9 0x2B) ∧
    decode ⟨0x11223344556677F90102030400002B21, []⟩ = .ok (.rdBits 0x2B) ∧
    decode ⟨0x11223344556677F90102030400002B22, []⟩ = .ok (.wrBool true) ∧
    decode ⟨0x11223344556677F90102030400002B23, []⟩ = .ok .rdBool := by
  decide

theorem test_decode_integer_writes :
    decode ⟨0x11223344556677F90102030400002B40, []⟩ = .ok (.wrU8 0xF9) ∧
    decode ⟨0x11223344556677F90102030400002B41, []⟩ = .ok (.wrI8 0xF9) ∧
    decode ⟨0x11223344556677F90102030400002B42, []⟩ = .ok (.wrU16 0x77F9) ∧
    decode ⟨0x11223344556677F90102030400002B43, []⟩ = .ok (.wrI16 0x77F9) ∧
    decode ⟨0x11223344556677F90102030400002B44, []⟩ = .ok (.wrU32 0x556677F9) ∧
    decode ⟨0x11223344556677F90102030400002B45, []⟩ = .ok (.wrI32 0x556677F9) ∧
    decode ⟨0x11223344556677F90102030400002B46, []⟩ = .ok (.wrU64 0x11223344556677F9) ∧
    decode ⟨0x11223344556677F90102030400002B47, []⟩ = .ok (.wrI64 0x11223344556677F9) ∧
    decode ⟨0x11223344556677F90102030400002B48, []⟩ = .ok (.wrU8Part 0xF9 0x2B) ∧
    decode ⟨0x11223344556677F90102030400002B49, []⟩ = .ok (.wrI8Part 0xF9 0x2B) ∧
    decode ⟨0x11223344556677F90102030400002B4A, []⟩ = .ok (.wrU16Part 0x77F9 0x2B) ∧
    decode ⟨0x11223344556677F90102030400002B4B, []⟩ = .ok (.wrI16Part 0x77F9 0x2B) ∧
    decode ⟨0x11223344556677F90102030400002B4C, []⟩ = .ok (.wrU32Part 0x556677F9 0x2B) ∧
    decode ⟨0x11223344556677F90102030400002B4D, []⟩ = .ok (.wrI32Part 0x556677F9 0x2B) ∧
    decode ⟨0x11223344556677F90102030400002B4E, []⟩ = .ok (.wrU64Part 0x11223344556677F9 0x2B) ∧
    decode ⟨0x11223344556677F90102030400002B4F, []⟩ = .ok (.wrI64Part 0x11223344556677F9 0x2B) := by
  decide

theorem test_decode_integer_reads :
    decode ⟨0x11223344556677F90102030400002B50, []⟩ = .ok .rdU8 ∧
    decode ⟨0x11223344556677F90102030400002B51, []⟩ = .ok .rdI8 ∧
    decode ⟨0x11223344556677F90102030400002B52, []⟩ = .ok .rdU16 ∧
    decode ⟨0x11223344556677F90102030400002B53, []⟩ = .ok .rdI16 ∧
    decode ⟨0x11223344556677F90102030400002B54, []⟩ = .ok .rdU32 ∧
    decode ⟨0x11223344556677F90102030400002B55, []⟩ = .ok .rdI32 ∧
    decode ⟨0x11223344556677F90102030400002B56, []⟩ = .ok .rdU64 ∧
    decode ⟨0x11223344556677F90102030400002B57, []⟩ = .ok .rdI64 ∧
    decode ⟨0x11223344556677F90102030400002B58, []⟩ = .ok (.rdU8Part 0x2B) ∧
    decode ⟨0x11223344556677F90102030400002B59, []⟩ = .ok (.rdI8Part 0x2B) ∧
    decode ⟨0x11223344556677F90102030400002B5A, []⟩ = .ok (.rdU16Part 0x2B) ∧
    decode ⟨0x11223344556677F90102030400002B5B, []⟩ = .ok (.rdI16Part 0x2B) ∧
    decode ⟨0x11223344556677F90102030400002B5C, []⟩ = .ok (.rdU32Part 0x2B) ∧
    decode ⟨0x11223344556677F90102030400002B5D, []⟩ = .ok (.rdI32Part 0x2B) ∧
    decode ⟨0x11223344556677F90102030400002B5E, []⟩ = .ok (.rdU64Part 0x2B) ∧
    decode ⟨0x11223344556677F90102030400002B5F, []⟩ = .ok (.rdI64Part 0x2B) := by
  decide

theorem test_decode_floats :
    decode ⟨0x11223344556677F90102030400002B60, []⟩ = .ok (.wrF32 0x556677F9) ∧
    decode ⟨0x11223344556677F90102030400002B61, []⟩ = .ok (.wrF64 0x11223344556677F9) ∧
    decode ⟨0x11223344556677F90102030400002B62, []⟩ = .ok .rdF32 ∧
    decode ⟨0x11223344556677F90102030400002B63, []⟩ = .ok .rdF64 := by
  decide

theorem test_decode_bytes :
    decode ⟨0x11223344556677F90000000200002B70, [0xC3, 0xA9]⟩ = .ok (.wrBytes [0xC3, 0xA9]) ∧
    decode ⟨0x11223344556677F90102030400002B71, []⟩ = .ok (.rdBytes 0x01020304) ∧
    decode ⟨0x11223344556677F90000000200002B72, [0xC3, 0xA9]⟩ = .ok (.wrStr [0xC3, 0xA9]) ∧
    decode ⟨0x11223344556677F90102030400002B73, []⟩ = .ok .rdStr := by
  decide

theorem test_reserved_words_refused :
    decode ⟨0x00000000000000000000000000000006, []⟩ = .error (.reservedOpcode 0x06) ∧
    decode ⟨0x000000000000000000000000000000FF, []⟩ = .error (.reservedOpcode 0xFF) ∧
    decode ⟨0x00000000000000000000000000010000, []⟩ = .error (.reservedBits 1) ∧
    decode ⟨0x00000000000000000000000080000072, []⟩ = .error (.reservedBits 0x8000) ∧
    decode ⟨0x00000000000000000000000200000070, [0xAA]⟩ = .error (.payloadLength 2 1) := by
  decide

theorem test_table_word : decodeTableWord 16 0x1B4C = some (.wrU32Part 0 27) ∧ decodeTableWord 8 0x73 = some .rdStr ∧
    decodeTableWord 8 0x06 = none := by decide

/-! ## The assembler (30_encoding.md R73, R74) -/

/-- S1a, P1's REWIND, V-FLT: a float, a negative value, a text and a list of bytes. -/
theorem test_assemble :
    assembleLine "WR_U32_PART 839011, 27 ; comment".toList = .ok (some ⟨0x00000000000CCD630000000000001B4C, []⟩) ∧
    assembleLine "REWIND".toList = .ok (some ⟨0x00000000000000000000000000000005, []⟩) ∧
    assembleLine "WR_I16 -2".toList = .ok (some ⟨0x000000000000FFFE0000000000000043, []⟩) ∧
    assembleLine "WR_F32 1.5".toList = .ok (some ⟨0x000000003FC000000000000000000060, []⟩) ∧
    assembleLine "WR_BYTES [0xDE, 0xAD, 0xBE]".toList = .ok (some ⟨0x00000000000000000000000300000070, [0xDE, 0xAD, 0xBE]⟩) := by
  decide

theorem test_assemble_text :
    assembleLine "WR_STR \"h\u00e9\"".toList = .ok (some ⟨0x00000000000000000000000300000072, [0x68, 0xC3, 0xA9]⟩) ∧
    assembleLine "SKIP 3".toList = .error .unknownMnemonic := by
  decide

/-! ## One step of each command, from the vectors -/

/-- Bytes as cells. -/
def cells (bytes : List Nat) : List Host.Cell :=
  (bytes.zipIdx.filter (fun x => decide (x.1 ≠ 0))).map fun x => (x.2, BitVec.ofNat 8 x.1)

/-- A live Buffer of these bytes. -/
def buffer (bytes : List Nat) (cursor : Nat) : State :=
  { State.reset with live := true, length := bytes.length, storage := cells bytes, cursor := cursor }

/-- One step with a command offered: the responses, the read payload, and `live`, `cursor` and storage afterwards. -/
def after (s : State) (word : Word128) (payload : List Byte) : Option (List Word128 × List Byte × Bool × Nat × List Byte) :=
  match step (offer s [⟨word, payload⟩]) with
  | .next t => some (t.rsp, t.rp, t.live, t.cursor, (List.range t.length).map (Memory.read t.storage))
  | .fault _ => none
  | .refused _ => none

/-! ### Buffer and cursor -/

/-- V-BUF-4 -/
theorem test_create : after (buffer [0xFF, 0xFF] 9) 0x00000000000000030000000000000000 [] =
    some ([0x00000000000000000000000000000000], [], true, 0, [0x00, 0x00, 0x00]) := by decide

/-- V-BUF-3 -/
theorem test_create_error : after (buffer [0xFF, 0xFF] 9) 0x00000000000100010000000000000000 [] =
    some ([0x00000000000000000000000000000003], [], true, 9, [0xFF, 0xFF]) := by decide

/-- P1 step 9 -/
theorem test_into_bytes : after (buffer [0x0B, 0x1C, 0xFC, 0xFF, 0xFF, 0xFF, 0xAB, 0x02] 58) 0x00000000000000000000000000000001 [] =
    some ([0x00000000000000000000000800000000], [0x0B, 0x1C, 0xFC, 0xFF, 0xFF, 0xFF, 0xAB, 0x02], false, 0, []) := by decide

/-- V-BUF-19 -/
theorem test_into_bytes_error : after State.reset 0x00000000000000000000000000000001 [] =
    some ([0x00000000000000000000000000000004], [], false, 0, []) := by decide

/-- V-BUF-9 -/
theorem test_get_bit_pos : after (buffer [0x63, 0xCD, 0x0C, 0x00] 27) 0x00000000000000000000000000000002 [] =
    some ([0x000000000000001B0000000000000000], [], true, 27, [0x63, 0xCD, 0x0C, 0x00]) := by decide

/-- V-BUF-2 -/
theorem test_get_bit_pos_error : after State.reset 0x00000000000000000000000000000002 [] =
    some ([0x00000000000000000000000000000004], [], false, 0, []) := by decide

/-- V-BUF-10 -/
theorem test_get_byte_pos : after (buffer [0x63, 0xCD, 0x0C, 0x00] 27) 0x00000000000000000000000000000003 [] =
    some ([0x00000000000000030000000000000000], [], true, 27, [0x63, 0xCD, 0x0C, 0x00]) := by decide

/-- V-BUF-11 -/
theorem test_get_cap_bits : after (buffer [0x63, 0xCD, 0x0C, 0x00] 27) 0x00000000000000000000000000000004 [] =
    some ([0x00000000000000200000000000000000], [], true, 27, [0x63, 0xCD, 0x0C, 0x00]) := by decide

/-- P5 step 9 -/
theorem test_get_cap_bits_error : after State.reset 0x00000000000000000000000000000004 [] =
    some ([0x00000000000000000000000000000004], [], false, 0, []) := by decide

/-- S4f -/
theorem test_seek : after (buffer [0x1F, 0x38, 0x00] 18) 0x00000000000000050000000000000005 [] =
    some ([0x00000000000000000000000000000000], [], true, 5, [0x1F, 0x38, 0x00]) := by decide

/-- V-BUF-14 -/
theorem test_seek_error : after (buffer [0x63, 0xCD, 0x0C, 0x00] 32) 0x00000000000000210000000000000005 [] =
    some ([0x00000000000000000000000000000001], [], true, 32, [0x63, 0xCD, 0x0C, 0x00]) := by decide

/-! ### Predicates -/

/-- V-PRD-1 -/
theorem test_can_wr_bits : after (buffer [0x00, 0x00, 0x00, 0x00] 27) 0x00000000000000050000000000000010 [] =
    some ([0x00000000000000010000000000000000], [], true, 27, [0x00, 0x00, 0x00, 0x00]) := by decide

/-- V-PRD-14 -/
theorem test_can_wr_bits_error : after State.reset 0x00000000000000000000000000000010 [] =
    some ([0x00000000000000000000000000000004], [], false, 0, []) := by decide

/-- V-PRD-4 -/
theorem test_can_rd_bits : after (buffer [0x00, 0x00, 0x00, 0x00] 27) 0x00000000000000050000000000000011 [] =
    some ([0x00000000000000010000000000000000], [], true, 27, [0x00, 0x00, 0x00, 0x00]) := by decide

/-- V-PRD-6 -/
theorem test_can_wr_bytes : after (buffer [0x00, 0x00, 0x00, 0x00] 8) 0x00000000000000030000000000000012 [] =
    some ([0x00000000000000010000000000000000], [], true, 8, [0x00, 0x00, 0x00, 0x00]) := by decide

/-- V-PRD-9 -/
theorem test_can_rd_bytes : after (buffer [0x00, 0x00] 3) 0x00000000000000010000000000000013 [] =
    some ([0x00000000000000010000000000000000], [], true, 3, [0x00, 0x00]) := by decide

/-! ### Bits and bools -/

/-- V-BIT-3 -/
theorem test_wr_bits : after (buffer [0xFF] 3) 0x00000000000000090000000000000420 [] =
    some ([0x00000000000000000000000000000000], [], true, 7, [0x4F]) := by decide

/-- V-BIT-9 -/
theorem test_wr_bits_error : after (buffer [0x00] 0) 0x00000000000000010000000000000020 [] =
    some ([0x00000000000000000000000000000001], [], true, 0, [0x00]) := by decide

/-- V-BIT-15 -/
theorem test_rd_bits : after (buffer [0x4F] 3) 0x00000000000000000000000000000421 [] =
    some ([0x00000000000000090000000000000000], [], true, 7, [0x4F]) := by decide

/-- V-BIT-19 -/
theorem test_rd_bits_error : after (buffer [0xFF] 5) 0x00000000000000000000000000000421 [] =
    some ([0x00000000000000000000000000000001], [], true, 5, [0xFF]) := by decide

/-- V-BOOL-3 -/
theorem test_wr_bool : after (buffer [0x7F] 7) 0x00000000000000010000000000000022 [] =
    some ([0x00000000000000000000000000000000], [], true, 8, [0xFF]) := by decide

/-- V-BUF-6 -/
theorem test_wr_bool_error : after (buffer [] 0) 0x00000000000000010000000000000022 [] =
    some ([0x00000000000000000000000000000001], [], true, 0, []) := by decide

/-- V-BOOL-6 -/
theorem test_rd_bool : after (buffer [0x04] 2) 0x00000000000000000000000000000023 [] =
    some ([0x00000000000000010000000000000000], [], true, 3, [0x04]) := by decide

/-- V-BOOL-8 -/
theorem test_rd_bool_error : after (buffer [0xFF] 8) 0x00000000000000000000000000000023 [] =
    some ([0x00000000000000000000000000000001], [], true, 8, [0xFF]) := by decide

/-! ### Integer writes -/

/-- V-INT-2 -/
theorem test_wr_u8 : after (buffer [0x0F, 0x00] 4) 0x00000000000000AB0000000000000040 [] =
    some ([0x00000000000000000000000000000000], [], true, 12, [0xBF, 0x0A]) := by decide

/-- V-ERR-10 -/
theorem test_wr_u8_error : after (buffer [0x00] 6) 0x00000000000000FF0000000000000040 [] =
    some ([0x00000000000000000000000000000001], [], true, 6, [0x00]) := by decide

/-- V-INT-3 -/
theorem test_wr_i8 : after (buffer [0x00, 0x00] 1) 0x00000000000000FF0000000000000041 [] =
    some ([0x00000000000000000000000000000000], [], true, 9, [0xFE, 0x01]) := by decide

/-- V-INT-W3 -/
theorem test_wr_u16 : after (buffer [0x07, 0x00, 0x00, 0x00, 0x00, 0x00, 0x00, 0x00, 0x00, 0x00] 3) 0x000000000000BEEF0000000000000042 [] =
    some ([0x00000000000000000000000000000000], [], true, 19, [0x7F, 0xF7, 0x05, 0x00, 0x00, 0x00, 0x00, 0x00, 0x00, 0x00]) := by decide

/-- P3 step 6 -/
theorem test_wr_u16_error : after (buffer [0x03, 0x00, 0x00, 0x00, 0x68, 0xC3, 0xA9, 0x00] 56) 0x00000000000000070000000000000042 [] =
    some ([0x00000000000000000000000000000001], [], true, 56, [0x03, 0x00, 0x00, 0x00, 0x68, 0xC3, 0xA9, 0x00]) := by decide

/-- V-INT-5 -/
theorem test_wr_i16 : after (buffer [0x05, 0x00, 0x00] 3) 0x000000000000FFFE0000000000000043 [] =
    some ([0x00000000000000000000000000000000], [], true, 19, [0xF5, 0xFF, 0x07]) := by decide

/-- V-INT-W5 -/
theorem test_wr_u32 : after (buffer [0x07, 0x00, 0x00, 0x00, 0x00, 0x00, 0x00, 0x00, 0x00, 0x00] 3) 0x00000000DEADBEEF0000000000000044 [] =
    some ([0x00000000000000000000000000000000], [], true, 35, [0x7F, 0xF7, 0x6D, 0xF5, 0x06, 0x00, 0x00, 0x00, 0x00, 0x00]) := by decide

/-- V-INT-30 -/
theorem test_wr_u32_error : after (buffer [0x11, 0x22, 0x33, 0x44] 1) 0x00000000DEADBEEF0000000000000044 [] =
    some ([0x00000000000000000000000000000001], [], true, 1, [0x11, 0x22, 0x33, 0x44]) := by decide

/-- P1 step 5 -/
theorem test_wr_i32 : after (buffer [0x0B, 0x1C, 0x00, 0x00, 0x00, 0x00, 0x00, 0x00] 17) 0x00000000FFFFFFFE0000000000000045 [] =
    some ([0x00000000000000000000000000000000], [], true, 49, [0x0B, 0x1C, 0xFC, 0xFF, 0xFF, 0xFF, 0x01, 0x00]) := by decide

set_option maxRecDepth 4000 in
/-- V-INT-W7 -/
theorem test_wr_u64 : after (buffer [0x07, 0x00, 0x00, 0x00, 0x00, 0x00, 0x00, 0x00, 0x00, 0x00] 3) 0x0123456789ABCDEF0000000000000046 [] =
    some ([0x00000000000000000000000000000000], [], true, 67, [0x7F, 0x6F, 0x5E, 0x4D, 0x3C, 0x2B, 0x1A, 0x09, 0x00, 0x00]) := by decide

set_option maxRecDepth 4000 in
/-- V-INT-8 -/
theorem test_wr_i64 : after (buffer [0x1F, 0x00, 0x00, 0x00, 0x00, 0x00, 0x00, 0x00, 0x00] 5) 0xFFFFFFFFFFFFFFFF0000000000000047 [] =
    some ([0x00000000000000000000000000000000], [], true, 69, [0xFF, 0xFF, 0xFF, 0xFF, 0xFF, 0xFF, 0xFF, 0xFF, 0x1F]) := by decide

/-- S6b -/
theorem test_wr_u8_part : after (buffer [0x2B, 0x00] 6) 0x00000000000000350000000000000648 [] =
    some ([0x00000000000000000000000000000000], [], true, 12, [0x6B, 0x0D]) := by decide

/-- V-ERR-9 -/
theorem test_wr_u8_part_error : after (buffer [0x00] 6) 0x00000000000000010000000000000948 [] =
    some ([0x00000000000000000000000000000001], [], true, 6, [0x00]) := by decide

/-- V-INT-W10 -/
theorem test_wr_i8_part : after (buffer [0x07, 0x00, 0x00, 0x00, 0x00, 0x00, 0x00, 0x00, 0x00, 0x00] 3) 0x00000000000000FD0000000000000449 [] =
    some ([0x00000000000000000000000000000000], [], true, 7, [0x6F, 0x00, 0x00, 0x00, 0x00, 0x00, 0x00, 0x00, 0x00, 0x00]) := by decide

/-- S4b -/
theorem test_wr_u16_part : after (buffer [0x05, 0x00] 3) 0x00000000000001C00000000000000D4A [] =
    some ([0x00000000000000000000000000000000], [], true, 16, [0x05, 0x0E]) := by decide

/-- V-INT-W12 -/
theorem test_wr_i16_part : after (buffer [0x07, 0x00, 0x00, 0x00, 0x00, 0x00, 0x00, 0x00, 0x00, 0x00] 3) 0x000000000000FFFD0000000000000A4B [] =
    some ([0x00000000000000000000000000000000], [], true, 13, [0xEF, 0x1F, 0x00, 0x00, 0x00, 0x00, 0x00, 0x00, 0x00, 0x00]) := by decide

/-- S4e -/
theorem test_wr_u32_part : after (buffer [0x1F, 0x00, 0x00] 5) 0x00000000000001C00000000000000D4C [] =
    some ([0x00000000000000000000000000000000], [], true, 18, [0x1F, 0x38, 0x00]) := by decide

/-- V-INT-W14 -/
theorem test_wr_i32_part : after (buffer [0x07, 0x00, 0x00, 0x00, 0x00, 0x00, 0x00, 0x00, 0x00, 0x00] 3) 0x00000000FFFFFFFF0000000000001F4D [] =
    some ([0x00000000000000000000000000000000], [], true, 34, [0xFF, 0xFF, 0xFF, 0xFF, 0x03, 0x00, 0x00, 0x00, 0x00, 0x00]) := by decide

/-- V-INT-W15 -/
theorem test_wr_u64_part : after (buffer [0x07, 0x00, 0x00, 0x00, 0x00, 0x00, 0x00, 0x00, 0x00, 0x00] 3) 0x0123456789ABCDEF000000000000284E [] =
    some ([0x00000000000000000000000000000000], [], true, 43, [0x7F, 0x6F, 0x5E, 0x4D, 0x3C, 0x03, 0x00, 0x00, 0x00, 0x00]) := by decide

/-- V-INT-27 -/
theorem test_wr_u64_part_error : after (buffer [0x00, 0x00, 0x00, 0x00, 0x00, 0x00, 0x00, 0x00, 0x00] 0) 0x0000000000000001000000000000414E [] =
    some ([0x00000000000000000000000000000001], [], true, 0, [0x00, 0x00, 0x00, 0x00, 0x00, 0x00, 0x00, 0x00, 0x00]) := by decide

/-- V-INT-W16 -/
theorem test_wr_i64_part : after (buffer [0x07, 0x00, 0x00, 0x00, 0x00, 0x00, 0x00, 0x00, 0x00, 0x00] 3) 0x00000000771CBCAB000000000000324F [] =
    some ([0x00000000000000000000000000000000], [], true, 53, [0x5F, 0xE5, 0xE5, 0xB8, 0x03, 0x00, 0x00, 0x00, 0x00, 0x00]) := by decide

/-! ### Integer reads -/

/-- V-INT-R1 -/
theorem test_rd_u8 : after (buffer [0xED, 0xCB, 0xA9, 0x87, 0x65, 0x43, 0x21, 0xF0, 0xDE, 0xBC] 3) 0x00000000000000000000000000000050 [] =
    some ([0x000000000000007D0000000000000000], [], true, 11, [0xED, 0xCB, 0xA9, 0x87, 0x65, 0x43, 0x21, 0xF0, 0xDE, 0xBC]) := by decide

/-- P2 step 11 -/
theorem test_rd_u8_error : after (buffer [0x63, 0xCD, 0x0C, 0x58, 0xE5, 0xE5, 0xB8, 0x03, 0x00, 0x80, 0x1B, 0xD5, 0x9E, 0x1E, 0x22, 0x0A, 0x01, 0x08] 141) 0x00000000000000000000000000000050 [] =
    some ([0x00000000000000000000000000000001], [], true, 141, [0x63, 0xCD, 0x0C, 0x58, 0xE5, 0xE5, 0xB8, 0x03, 0x00, 0x80, 0x1B, 0xD5, 0x9E, 0x1E, 0x22, 0x0A, 0x01, 0x08]) := by decide

/-- V-INT-R2 -/
theorem test_rd_i8 : after (buffer [0xED, 0xCB, 0xA9, 0x87, 0x65, 0x43, 0x21, 0xF0, 0xDE, 0xBC] 3) 0x00000000000000000000000000000051 [] =
    some ([0x000000000000007D0000000000000000], [], true, 11, [0xED, 0xCB, 0xA9, 0x87, 0x65, 0x43, 0x21, 0xF0, 0xDE, 0xBC]) := by decide

/-- V-INT-R3 -/
theorem test_rd_u16 : after (buffer [0xED, 0xCB, 0xA9, 0x87, 0x65, 0x43, 0x21, 0xF0, 0xDE, 0xBC] 3) 0x00000000000000000000000000000052 [] =
    some ([0x000000000000397D0000000000000000], [], true, 19, [0xED, 0xCB, 0xA9, 0x87, 0x65, 0x43, 0x21, 0xF0, 0xDE, 0xBC]) := by decide

/-- V-INT-R4 -/
theorem test_rd_i16 : after (buffer [0xED, 0xCB, 0xA9, 0x87, 0x65, 0x43, 0x21, 0xF0, 0xDE, 0xBC] 3) 0x00000000000000000000000000000053 [] =
    some ([0x000000000000397D0000000000000000], [], true, 19, [0xED, 0xCB, 0xA9, 0x87, 0x65, 0x43, 0x21, 0xF0, 0xDE, 0xBC]) := by decide

/-- V-INT-R5 -/
theorem test_rd_u32 : after (buffer [0xED, 0xCB, 0xA9, 0x87, 0x65, 0x43, 0x21, 0xF0, 0xDE, 0xBC] 3) 0x00000000000000000000000000000054 [] =
    some ([0x00000000B0F5397D0000000000000000], [], true, 35, [0xED, 0xCB, 0xA9, 0x87, 0x65, 0x43, 0x21, 0xF0, 0xDE, 0xBC]) := by decide

/-- V-INT-31 -/
theorem test_rd_u32_error : after (buffer [0x11, 0x22, 0x33, 0x44] 1) 0x00000000000000000000000000000054 [] =
    some ([0x00000000000000000000000000000001], [], true, 1, [0x11, 0x22, 0x33, 0x44]) := by decide

/-- V-INT-R6 -/
theorem test_rd_i32 : after (buffer [0xED, 0xCB, 0xA9, 0x87, 0x65, 0x43, 0x21, 0xF0, 0xDE, 0xBC] 3) 0x00000000000000000000000000000055 [] =
    some ([0xFFFFFFFFB0F5397D0000000000000000], [], true, 35, [0xED, 0xCB, 0xA9, 0x87, 0x65, 0x43, 0x21, 0xF0, 0xDE, 0xBC]) := by decide

/-- V-INT-R7 -/
theorem test_rd_u64 : after (buffer [0xED, 0xCB, 0xA9, 0x87, 0x65, 0x43, 0x21, 0xF0, 0xDE, 0xBC] 3) 0x00000000000000000000000000000056 [] =
    some ([0xDE04286CB0F5397D0000000000000000], [], true, 67, [0xED, 0xCB, 0xA9, 0x87, 0x65, 0x43, 0x21, 0xF0, 0xDE, 0xBC]) := by decide

/-- V-INT-R8 -/
theorem test_rd_i64 : after (buffer [0xED, 0xCB, 0xA9, 0x87, 0x65, 0x43, 0x21, 0xF0, 0xDE, 0xBC] 3) 0x00000000000000000000000000000057 [] =
    some ([0xDE04286CB0F5397D0000000000000000], [], true, 67, [0xED, 0xCB, 0xA9, 0x87, 0x65, 0x43, 0x21, 0xF0, 0xDE, 0xBC]) := by decide

/-- S6e -/
theorem test_rd_u8_part : after (buffer [0x6B, 0x0D] 6) 0x00000000000000000000000000000658 [] =
    some ([0x00000000000000350000000000000000], [], true, 12, [0x6B, 0x0D]) := by decide

/-- V-INT-R10 -/
theorem test_rd_i8_part : after (buffer [0xED, 0xCB, 0xA9, 0x87, 0x65, 0x43, 0x21, 0xF0, 0xDE, 0xBC] 3) 0x00000000000000000000000000000459 [] =
    some ([0x000000000000000D0000000000000000], [], true, 7, [0xED, 0xCB, 0xA9, 0x87, 0x65, 0x43, 0x21, 0xF0, 0xDE, 0xBC]) := by decide

/-- S4d -/
theorem test_rd_u16_part : after (buffer [0x05, 0x0E] 3) 0x00000000000000000000000000000D5A [] =
    some ([0x00000000000001C00000000000000000], [], true, 16, [0x05, 0x0E]) := by decide

/-- V-INT-R12 -/
theorem test_rd_i16_part : after (buffer [0xED, 0xCB, 0xA9, 0x87, 0x65, 0x43, 0x21, 0xF0, 0xDE, 0xBC] 3) 0x00000000000000000000000000000A5B [] =
    some ([0x000000000000017D0000000000000000], [], true, 13, [0xED, 0xCB, 0xA9, 0x87, 0x65, 0x43, 0x21, 0xF0, 0xDE, 0xBC]) := by decide

/-- V-INT-29 -/
theorem test_rd_i16_part_error : after (buffer [0xFF, 0xFF, 0xFF, 0xFF, 0xFF] 0) 0x0000000000000000000000000000005B [] =
    some ([0x00000000000000000000000000000001], [], true, 0, [0xFF, 0xFF, 0xFF, 0xFF, 0xFF]) := by decide

/-- S4g -/
theorem test_rd_u32_part : after (buffer [0x1F, 0x38, 0x00] 5) 0x00000000000000000000000000000D5C [] =
    some ([0x00000000000001C00000000000000000], [], true, 18, [0x1F, 0x38, 0x00]) := by decide

/-- V-INT-28 -/
theorem test_rd_u32_part_error : after (buffer [0xFF, 0xFF, 0xFF, 0xFF, 0xFF] 0) 0x0000000000000000000000000000215C [] =
    some ([0x00000000000000000000000000000001], [], true, 0, [0xFF, 0xFF, 0xFF, 0xFF, 0xFF]) := by decide

/-- V-INT-R14 -/
theorem test_rd_i32_part : after (buffer [0xED, 0xCB, 0xA9, 0x87, 0x65, 0x43, 0x21, 0xF0, 0xDE, 0xBC] 3) 0x00000000000000000000000000001F5D [] =
    some ([0x0000000030F5397D0000000000000000], [], true, 34, [0xED, 0xCB, 0xA9, 0x87, 0x65, 0x43, 0x21, 0xF0, 0xDE, 0xBC]) := by decide

/-- V-INT-R15 -/
theorem test_rd_u64_part : after (buffer [0xED, 0xCB, 0xA9, 0x87, 0x65, 0x43, 0x21, 0xF0, 0xDE, 0xBC] 3) 0x0000000000000000000000000000285E [] =
    some ([0x0000006CB0F5397D0000000000000000], [], true, 43, [0xED, 0xCB, 0xA9, 0x87, 0x65, 0x43, 0x21, 0xF0, 0xDE, 0xBC]) := by decide

/-- V-INT-R16 -/
theorem test_rd_i64_part : after (buffer [0xED, 0xCB, 0xA9, 0x87, 0x65, 0x43, 0x21, 0xF0, 0xDE, 0xBC] 3) 0x0000000000000000000000000000325F [] =
    some ([0x0000286CB0F5397D0000000000000000], [], true, 53, [0xED, 0xCB, 0xA9, 0x87, 0x65, 0x43, 0x21, 0xF0, 0xDE, 0xBC]) := by decide

/-! ### Floats -/

/-- V-FLT-2 -/
theorem test_wr_f32 : after (buffer [0x01, 0x00, 0x00, 0x00, 0x00] 1) 0x000000007FA000010000000000000060 [] =
    some ([0x00000000000000000000000000000000], [], true, 33, [0x03, 0x00, 0x40, 0xFF, 0x00]) := by decide

set_option maxRecDepth 4000 in
/-- V-FLT-4 -/
theorem test_wr_f64 : after (buffer [0x07, 0x00, 0x00, 0x00, 0x00, 0x00, 0x00, 0x00, 0x00] 3) 0x40085110F4F6A8DC0000000000000061 [] =
    some ([0x00000000000000000000000000000000], [], true, 67, [0xE7, 0x46, 0xB5, 0xA7, 0x87, 0x88, 0x42, 0x00, 0x02]) := by decide

/-- V-FLT-9 -/
theorem test_wr_f64_error : after (buffer [0x00, 0x00, 0x00, 0x00, 0x00, 0x00, 0x00] 0) 0x3FF00000000000000000000000000061 [] =
    some ([0x00000000000000000000000000000001], [], true, 0, [0x00, 0x00, 0x00, 0x00, 0x00, 0x00, 0x00]) := by decide

/-- V-FLT-6 -/
theorem test_rd_f32 : after (buffer [0x03, 0x00, 0x40, 0xFF, 0x00] 1) 0x00000000000000000000000000000062 [] =
    some ([0x000000007FA000010000000000000000], [], true, 33, [0x03, 0x00, 0x40, 0xFF, 0x00]) := by decide

/-- V-FLT-10 -/
theorem test_rd_f32_error : after (buffer [0x00, 0x00, 0x00, 0x00] 1) 0x00000000000000000000000000000062 [] =
    some ([0x00000000000000000000000000000001], [], true, 1, [0x00, 0x00, 0x00, 0x00]) := by decide

/-- V-FLT-7 -/
theorem test_rd_f64 : after (buffer [0xE7, 0x46, 0xB5, 0xA7, 0x87, 0x88, 0x42, 0x00, 0x02] 3) 0x00000000000000000000000000000063 [] =
    some ([0x40085110F4F6A8DC0000000000000000], [], true, 67, [0xE7, 0x46, 0xB5, 0xA7, 0x87, 0x88, 0x42, 0x00, 0x02]) := by decide

/-! ### Bytes and strings -/

/-- V-BYT-3 -/
theorem test_wr_bytes : after (buffer [0xAA] 5) 0x00000000000000000000000000000070 [] =
    some ([0x00000000000000000000000000000000], [], true, 5, [0xAA]) := by decide

/-- V-BYT-4 -/
theorem test_wr_bytes_error : after (buffer [0xAA, 0xBB] 1) 0x00000000000000000000000200000070 [0x01, 0x02] =
    some ([0x00000000000000000000000000000001], [], true, 1, [0xAA, 0xBB]) := by decide

/-- V-BYT-7 -/
theorem test_rd_bytes : after (buffer [0xFF, 0x03, 0x00] 1) 0x00000000000000000000000200000071 [] =
    some ([0x00000000000000000000000200000000], [0xFF, 0x01], true, 17, [0xFF, 0x03, 0x00]) := by decide

/-- V-BYT-9 -/
theorem test_rd_bytes_error : after (buffer [0xAA] 0) 0x0000000000000000FFFFFFFF00000071 [] =
    some ([0x00000000000000000000000000000001], [], true, 0, [0xAA]) := by decide

/-- V-STR-4 -/
theorem test_wr_str : after (buffer [0x01, 0x00, 0x00, 0x00, 0x00, 0x00] 1) 0x00000000000000000000000100000072 [0x41] =
    some ([0x00000000000000000000000000000000], [], true, 41, [0x03, 0x00, 0x00, 0x00, 0x82, 0x00]) := by decide

/-- V-STR-3 -/
theorem test_wr_str_error : after (buffer [0x00, 0x00, 0x00, 0x00] 0) 0x00000000000000000000000100000072 [0x41] =
    some ([0x00000000000000000000000000000001], [], true, 0, [0x00, 0x00, 0x00, 0x00]) := by decide

/-- V-STR-8 -/
theorem test_rd_str : after (buffer [0x03, 0x00, 0x00, 0x00, 0x82, 0x00] 1) 0x00000000000000000000000000000073 [] =
    some ([0x00000000000000000000000100000000], [0x41], true, 41, [0x03, 0x00, 0x00, 0x00, 0x82, 0x00]) := by decide

/-- V-STR-11 -/
theorem test_rd_str_error : after (buffer [0x01, 0x00, 0x00] 0) 0x00000000000000000000000000000073 [] =
    some ([0x00000000000000000000000000000001], [], true, 0, [0x01, 0x00, 0x00]) := by decide

/-! ### Words and channels -/

/-- V-ERR: a reserved bit set in a WR_BYTES word takes no payload. -/
theorem test_illegal_word :
    after State.reset 0x00000000000000000000000200010070 [0xAA, 0xBB] =
      some ([0x00000000000000000000000000000005], [], false, 0, []) := by decide

/-- The host's question: the row's command runs as the first after reset. -/
theorem test_withFetchWord :
    step (State.reset.withFetchWord 8 0x70) = .next (respond State.reset ErrorKind.noBuffer.code 0 []) := rfl

/-! ## Witnesses: for each statement with hypotheses, states and operands that meet them all, at the boundaries of each
clause -/

/-- Two bytes, six bits used: ten bits left. -/
def two : State := buffer [0x3F, 0x00] 6

/-- Eight bytes, nothing used: sixty-four bits left. -/
def eight : State := buffer [0xEF, 0xCD, 0xAB, 0x89, 0x67, 0x45, 0x23, 0x81] 0

/-- A string of three bytes, filling its Buffer. -/
def text : State := buffer [0x03, 0x00, 0x00, 0x00, 0x68, 0xC3, 0xA9] 0

/-- A string of no bytes, filling its Buffer. -/
def noText : State := buffer [0x00, 0x00, 0x00, 0x00] 0

/-- A string that is not text. -/
def badText : State := buffer [0x01, 0x00, 0x00, 0x00, 0xFF] 0

/-- A Buffer filled to its end. -/
def full : State := buffer [0xA5] 8

theorem two_inv : two.Inv where
  parameter := by decide
  lengthBound := by decide
  cursorBound := by decide
  noBuffer h := by cases h
  cellsWf := by decide
  cellsBound := by decide
  waiting _ h := by cases h

theorem eight_inv : eight.Inv where
  parameter := by decide
  lengthBound := by decide
  cursorBound := by decide
  noBuffer h := by cases h
  cellsWf := by decide
  cellsBound := by decide
  waiting _ h := by cases h

theorem text_inv : text.Inv where
  parameter := by decide
  lengthBound := by decide
  cursorBound := by decide
  noBuffer h := by cases h
  cellsWf := by decide
  cellsBound := by decide
  waiting _ h := by cases h

theorem full_inv : full.Inv where
  parameter := by decide
  lengthBound := by decide
  cursorBound := by decide
  noBuffer h := by cases h
  cellsWf := by decide
  cellsBound := by decide
  waiting _ h := by cases h

theorem noText_inv : noText.Inv where
  parameter := by decide
  lengthBound := by decide
  cursorBound := by decide
  noBuffer h := by cases h
  cellsWf := by decide
  cellsBound := by decide
  waiting _ h := by cases h

theorem hi_text : Utf8Text [0x68, 0xC3, 0xA9] := .row1 (by decide) (.row2 (by decide) (by decide) .empty)

theorem witness_ResetMeetsInvariant : Config.MaxBytesLegal 1 ∧ Config.MaxBytesLegal (2 ^ 32 - 1) := by decide

theorem witness_ResetInputStep : { two with rst := true }.rst = true := rfl

theorem witness_IdleStepKeepsState : two.rst = false ∧ two.inFlight = none ∧ two.cmd = [] := by decide

/-- One payload byte short, for a word just offered and for one in flight. -/
theorem witness_ShortPayloadWaits :
    (let s := { two with cmd := [0x00000000000000000000000200000070], wp := [0xAA] }
     s.rst = false ∧ s.inFlight = none ∧ s.cmd = [0x00000000000000000000000200000070] ∧
      s.wp.length < payloadCount 0x00000000000000000000000200000070) ∧
    (let f : InFlight := ⟨0x00000000000000000000000200000070, [0xAA]⟩
     let s := { two with inFlight := some f }
     s.rst = false ∧ s.inFlight = some f ∧ s.wp.length < payloadCount f.word - f.taken.length) := by decide

/-- The payload's last byte just arrived, for a word just offered and for one in flight. -/
theorem witness_StepRunsDecodedCommand :
    (let w : Word128 := 0x00000000000000000000000200000070
     let s := { two with cmd := [w, 5], wp := [0xAA, 0xBB] }
     s.rst = false ∧ s.inFlight = none ∧ s.cmd = [w, 5] ∧ payloadCount w ≤ s.wp.length ∧
      decode ⟨w, s.wp.take (payloadCount w)⟩ = .ok (.wrBytes [0xAA, 0xBB])) ∧
    (let f : InFlight := ⟨0x00000000000000000000000200000070, [0xAA]⟩
     let s := { two with inFlight := some f, wp := [0xBB] }
     s.rst = false ∧ s.inFlight = some f ∧ payloadCount f.word - f.taken.length ≤ s.wp.length ∧
      decode ⟨f.word, f.taken ++ s.wp.take (payloadCount f.word - f.taken.length)⟩ = .ok (.wrBytes [0xAA, 0xBB])) := by decide

theorem witness_OfferedProgramRunsInOrder :
    Idle State.reset ∧ ∀ i ∈ [Instr.create 6, .wrStr [0x41], .intoBytes, .rdStr], i.WellFormed := by
  refine ⟨⟨rfl, rfl, rfl, rfl⟩, ?_⟩
  simp [Instr.WellFormed, PayloadFits]

/-- A step that answers, and with it a step from a state that meets the invariant. -/
theorem witness_BlockNeverHalts :
    ∃ s t : State, s.Inv ∧ step s = .next t ∧ t.rsp ≠ s.rsp :=
  ⟨{ two with cmd := [0x00000000000000000000000000000002] }, { two with rsp := [0x00000000000000060000000000000000] },
    { two_inv with waiting := fun _ h => by cases h }, rfl, by decide⟩

theorem witness_StepKeepsInvariant :
    (∃ s t : State, s.Inv ∧ step s = .next t) ∧ (∃ (i : Instr) (s t : State), s.Inv ∧ exec i s = .next t) :=
  ⟨⟨two, two, two_inv, rfl⟩, ⟨.getBitPos, two, respond two statusOk 6 [], two_inv, rfl⟩⟩

/-- At the bounds: length = MAX_BYTES and cursor = 8 * length; a command that succeeds and one that fails; a step. -/
theorem witness_SpecInvariantIsKept :
    let s := { two with maxBytes := 2, cursor := 16 }
    s.SpecInv ∧ (∃ t, exec .intoBytes s = .next t ∧ t.live = false) ∧
      exec .rdBool s = .next (respond s ErrorKind.outOfBounds.code 0 []) ∧ step s = .next s :=
  ⟨⟨by decide, by decide, fun h => by cases h⟩, ⟨_, rfl, rfl⟩, rfl, rfl⟩

theorem witness_OpcodeMapDecodes :
    ([] : List Byte).length = (0 : BitVec 32).toNat ∧ ([0xC3, 0xA9] : List Byte).length = (2 : BitVec 32).toNat := by decide

theorem witness_DecodeInvertsEncode :
    (Instr.wrBytes []).WellFormed ∧ (Instr.wrStr [0xC3, 0xA9]).WellFormed ∧ Instr.rdStr.WellFormed := by decide

theorem witness_DecodedCommandsAreWellFormed :
    decode ⟨0x00000000000000000000000200000072, [0xC3, 0xA9]⟩ = .ok (.wrStr [0xC3, 0xA9]) := by decide

/-- The ends of the reserved ranges, a reserved bit at either end of RSVD, and legal neighbours. -/
theorem witness_IllegalWordsAnswered :
    (ReservedOp 0x06 ∧ ReservedOp 0x0F ∧ ReservedOp 0x14 ∧ ReservedOp 0x1F ∧ ReservedOp 0x24 ∧ ReservedOp 0x3F ∧ ReservedOp 0x64 ∧
      ReservedOp 0x6F ∧ ReservedOp 0x74 ∧ ReservedOp 0xFF) ∧
    (rsvdField 0x10000#128 ≠ 0 ∧ rsvdField 0x80000000#128 ≠ 0) ∧
    (let s := { two with cmd := [0x10000], wp := [0xAA] }
     s.rst = false ∧ s.inFlight = none ∧ s.cmd = [0x10000]) ∧
    (rsvdField 0x73#128 = 0 ∧ ¬ ReservedOp (opField 0x73#128).toNat ∧ ([] : List Byte).length = payloadCount 0x73) ∧
    (rsvdField 0x00000000000000000000000100000070#128 = 0 ∧
      ¬ ReservedOp (opField 0x00000000000000000000000100000070#128).toNat ∧
      ([0xAA] : List Byte).length = payloadCount 0x00000000000000000000000100000070) :=
  ⟨⟨by decide, by decide, by decide, by decide, by decide, by decide, by decide, by decide, by decide, by decide⟩,
    by decide, by decide, by decide, by decide⟩

theorem witness_OpcodesAreBuiltFromFields :
    integerKind (.wrU8 0) = some ⟨false, false, 0, false⟩ ∧ integerKind (.rdI64Part 0) = some ⟨true, true, 3, true⟩ ∧
    floatKind (.wrF32 0) = some (false, false) ∧ floatKind .rdF64 = some (true, true) := ⟨rfl, rfl, rfl, rfl⟩

/-- In eight bytes the command of the example succeeds. -/
theorem witness_WorkedEncodingExample :
    ∃ u rdata payload, Answers (.wrU32Part 839011 27) eight u statusOk rdata payload :=
  ⟨{ eight with storage := cells [0x63, 0xCD, 0x0C, 0x00, 0x67, 0x45, 0x23, 0x81], cursor := 27 }, 0, [], rfl, rfl⟩

theorem witness_CreateMakesZeroedBuffer :
    (65536 : BitVec 64).toNat ≤ two.maxBytes ∧ (0 : BitVec 64).toNat ≤ two.maxBytes ∧ (65537 : BitVec 64).toNat > two.maxBytes := by
  decide

theorem witness_IntoBytesReturnsStorage : two.live = true := rfl

theorem witness_AccessorsAnswerPosition : two.Inv ∧ two.live = true ∧ full.Inv ∧ full.live = true :=
  ⟨two_inv, rfl, full_inv, rfl⟩

theorem witness_SeekSetsCursor :
    two.live = true ∧ (16 : BitVec 64).toNat ≤ 8 * two.length ∧ 8 * two.length < (17 : BitVec 64).toNat := by decide

theorem witness_PredicatesAreExact : two.live = true ∧ full.live = true := ⟨rfl, rfl⟩

theorem witness_PredicatesAgreeWithCommands :
    (Instr.rdStr.WellFormed ∧ text.live = true ∧ bitsMoved .rdStr = some 32) ∧
    ((Instr.wrU16Part 0 10).WellFormed ∧ two.live = true ∧ bitsMoved (.wrU16Part 0 10) = some 10) ∧
    ((Instr.wrBytes []).WellFormed ∧ full.live = true ∧ bitsMoved (.wrBytes []) = some 0) :=
  ⟨⟨trivial, rfl, rfl⟩, ⟨trivial, rfl, rfl⟩, ⟨by decide, rfl, rfl⟩⟩

/-- The least and the greatest count, and a field that ends where storage ends. -/
theorem witness_WrBitsWritesField :
    (1 ≤ (1 : BitVec 8).toNat ∧ (1 : BitVec 8).toNat ≤ 8) ∧ (1 ≤ (8 : BitVec 8).toNat ∧ (8 : BitVec 8).toNat ≤ 8) ∧
    two.live = true ∧ two.cursor + (8 : BitVec 8).toNat ≤ 8 * two.length ∧
    (let s := { two with cursor := 8 }; s.live = true ∧ s.cursor + (8 : BitVec 8).toNat = 8 * s.length) := by decide

theorem witness_RdBitsReadsField :
    1 ≤ (8 : BitVec 8).toNat ∧ (8 : BitVec 8).toNat ≤ 8 ∧ 1 ≤ (1 : BitVec 8).toNat ∧ (1 : BitVec 8).toNat ≤ 8 ∧ two.live = true ∧
      two.cursor + (8 : BitVec 8).toNat ≤ 8 * two.length := by decide

theorem witness_BoolIsOneBit :
    let s := { two with cursor := 15 }
    s.live = true ∧ s.cursor + 1 ≤ 8 * s.length := by decide

/-- Room for 64 bits exactly, and so for every narrower field. -/
theorem witness_FullWidthWrites : eight.live = true ∧ eight.cursor + 64 ≤ 8 * eight.length := by decide

/-- The least count and each type's greatest, with room. -/
theorem witness_PartWidthWrites :
    (1 ≤ (1 : BitVec 8).toNat ∧ (1 : BitVec 8).toNat ≤ 8) ∧ (1 ≤ (8 : BitVec 8).toNat ∧ (8 : BitVec 8).toNat ≤ 8) ∧
    (1 ≤ (16 : BitVec 8).toNat ∧ (16 : BitVec 8).toNat ≤ 16) ∧ (1 ≤ (32 : BitVec 8).toNat ∧ (32 : BitVec 8).toNat ≤ 32) ∧
    (1 ≤ (64 : BitVec 8).toNat ∧ (64 : BitVec 8).toNat ≤ 64) ∧
    eight.live = true ∧ eight.cursor + (64 : BitVec 8).toNat ≤ 8 * eight.length := by decide

theorem witness_FullWidthUnsignedReads : eight.live = true ∧ eight.cursor + 64 ≤ 8 * eight.length := by decide

/-- The field's top bit is 1, so the readings are negative. -/
theorem witness_FullWidthSignedReads :
    eight.live = true ∧ eight.cursor + 64 ≤ 8 * eight.length ∧ signedOf 64 (eight.field eight.cursor 64) < 0 := by decide

theorem witness_PartWidthUnsignedReads :
    (1 ≤ (1 : BitVec 8).toNat ∧ (1 : BitVec 8).toNat ≤ 8) ∧ (1 ≤ (8 : BitVec 8).toNat ∧ (8 : BitVec 8).toNat ≤ 8) ∧
    (1 ≤ (16 : BitVec 8).toNat ∧ (16 : BitVec 8).toNat ≤ 16) ∧ (1 ≤ (32 : BitVec 8).toNat ∧ (32 : BitVec 8).toNat ≤ 32) ∧
    (1 ≤ (64 : BitVec 8).toNat ∧ (64 : BitVec 8).toNat ≤ 64) ∧
    eight.live = true ∧ eight.cursor + (64 : BitVec 8).toNat ≤ 8 * eight.length := by decide

/-- As for the unsigned reads, and a count one below the width, where the reading is not negative. -/
theorem witness_PartWidthSignedReads :
    (1 ≤ (1 : BitVec 8).toNat ∧ (1 : BitVec 8).toNat ≤ 8) ∧ (1 ≤ (8 : BitVec 8).toNat ∧ (8 : BitVec 8).toNat ≤ 8) ∧
    (1 ≤ (16 : BitVec 8).toNat ∧ (16 : BitVec 8).toNat ≤ 16) ∧ (1 ≤ (32 : BitVec 8).toNat ∧ (32 : BitVec 8).toNat ≤ 32) ∧
    (1 ≤ (64 : BitVec 8).toNat ∧ (64 : BitVec 8).toNat ≤ 64) ∧ (1 ≤ (7 : BitVec 8).toNat ∧ (7 : BitVec 8).toNat < 8) ∧
    eight.live = true ∧ eight.cursor + (64 : BitVec 8).toNat ≤ 8 * eight.length := by decide

theorem witness_FloatWrites : eight.live = true ∧ eight.cursor + 64 ≤ 8 * eight.length := by decide

theorem witness_FloatReads : eight.live = true ∧ eight.cursor + 64 ≤ 8 * eight.length := by decide

/-- One byte at an unaligned cursor, and none in a full Buffer. -/
theorem witness_WrBytesWritesPayload :
    two.live = true ∧ two.cursor + 8 * ([0xAA] : List Byte).length ≤ 8 * two.length ∧
    full.live = true ∧ full.cursor + 8 * ([] : List Byte).length ≤ 8 * full.length := by decide

theorem witness_RdBytesReadsBytes :
    eight.live = true ∧ eight.cursor + 8 * (8 : BitVec 32).toNat ≤ 8 * eight.length ∧
    full.live = true ∧ full.cursor + 8 * (0 : BitVec 32).toNat ≤ 8 * full.length := by decide

theorem witness_WrStrWritesCountAndPayload :
    text.live = true ∧ text.cursor + (32 + 8 * ([0x68, 0xC3, 0xA9] : List Byte).length) ≤ 8 * text.length ∧
    noText.live = true ∧ noText.cursor + (32 + 8 * ([] : List Byte).length) ≤ 8 * noText.length := by decide

theorem text_bytes : bytesAt text (text.cursor + 32) 3 = [0x68, 0xC3, 0xA9] := by decide

/-- A text that ends where storage ends, and the empty one. -/
theorem witness_RdStrReadsValidText :
    (text.live = true ∧ text.cursor + 32 ≤ 8 * text.length ∧ 3 = text.field text.cursor 32 ∧
      text.cursor + 32 + 8 * 3 ≤ 8 * text.length ∧ Utf8Text (bytesAt text (text.cursor + 32) 3)) ∧
    (noText.live = true ∧ noText.cursor + 32 ≤ 8 * noText.length ∧ 0 = noText.field noText.cursor 32 ∧
      noText.cursor + 32 + 8 * 0 ≤ 8 * noText.length ∧ Utf8Text (bytesAt noText (noText.cursor + 32) 0)) :=
  ⟨⟨rfl, by decide, by decide, by decide, by rw [text_bytes]; exact hi_text⟩,
   ⟨rfl, by decide, by decide, by decide, .empty⟩⟩

/-- A write, a scalar read, RD_BYTES and RD_STR that succeed. -/
theorem witness_StreamLaw :
    (writtenValue (.wrI8Part 0xFF 5) = some 0x1F ∧ bitsMoved (.wrI8Part 0xFF 5) = some 5 ∧
      ∃ u, Answers (.wrI8Part 0xFF 5) two u statusOk 0 []) ∧
    (writtenValue (.rdU8Part 5) = none ∧ bitsMoved (.rdU8Part 5) = some 5 ∧ ∃ u, Answers (.rdU8Part 5) two u statusOk 0 []) ∧
    (writtenValue (.rdBytes 1) = none ∧ bitsMoved (.rdBytes 1) = some 8 ∧ ∃ u, Answers (.rdBytes 1) two u statusOk 0 [0x00]) ∧
    (writtenValue .rdStr = none ∧ bitsMoved .rdStr = some 32 ∧ ∃ u, Answers .rdStr text u statusOk 0 [0x68, 0xC3, 0xA9]) :=
  ⟨⟨rfl, rfl, { two with storage := cells [0xFF, 0x07], cursor := 11 }, rfl, rfl⟩,
   ⟨rfl, rfl, { two with cursor := 11 }, rfl, rfl⟩,
   ⟨rfl, rfl, { two with cursor := 14 }, rfl, rfl⟩,
   ⟨rfl, rfl, { text with cursor := 56 }, rfl, rfl⟩⟩

/-- Two fields that meet inside a byte and end where storage ends. -/
theorem witness_AdjacentFieldsKeepBothValues :
    writtenValue (.wrU8Part 0x2B 4) = some 0xB ∧ bitsMoved (.wrU8Part 0x2B 4) = some 4 ∧ CountLegal (.wrU8Part 0x2B 4) ∧
    writtenValue (.wrBits 0x35 6) = some 0x35 ∧ bitsMoved (.wrBits 0x35 6) = some 6 ∧ CountLegal (.wrBits 0x35 6) ∧
    two.live = true ∧ two.cursor + 4 + 6 ≤ 8 * two.length := by
  refine ⟨rfl, rfl, ?_, rfl, rfl, ?_, rfl, by decide⟩ <;> · rintro c h; cases h; decide

/-- A three-bit field and a text of one byte in six cleared bytes. -/
theorem witness_FrontToBackIsConcatenation :
    streamOf [.wrU8Part 5 3, .wrStr [0x41]] = some (43, 5 + 2 ^ 3 * (1 + 2 ^ 32 * 0x41)) ∧
    (∀ i ∈ [Instr.wrU8Part 5 3, .wrStr [0x41]], CountLegal i) ∧
    (let s := buffer [0, 0, 0, 0, 0, 0] 0
     s.live = true ∧ s.cursor + 43 ≤ 8 * s.length ∧ ∀ g, s.cursor ≤ g → g < 8 * s.length → s.bit g = false) := by
  refine ⟨by decide, ?_, rfl, by decide, fun g _ _ => ?_⟩
  · intro i hi
    fin_cases hi <;> · rintro c h; cases h; try decide
  · simp [State.bit, buffer, cells]

/-- Room for 64 bits exactly; the least and the greatest counts; a value for each side of the last clause. -/
theorem witness_IntegerRoundTrip :
    eight.Inv ∧ eight.live = true ∧ eight.cursor + 64 ≤ 8 * eight.length ∧
    (1 ≤ (1 : BitVec 8).toNat ∧ (1 : BitVec 8).toNat ≤ 8) ∧ (1 ≤ (8 : BitVec 8).toNat ∧ (8 : BitVec 8).toNat ≤ 8) ∧
    (1 ≤ (16 : BitVec 8).toNat ∧ (16 : BitVec 8).toNat ≤ 16) ∧ (1 ≤ (32 : BitVec 8).toNat ∧ (32 : BitVec 8).toNat ≤ 32) ∧
    (1 ≤ (64 : BitVec 8).toNat ∧ (64 : BitVec 8).toNat ≤ 64) ∧
    signedOf 16 ((0xFFFD : BitVec 16).toNat % 2 ^ 16) = (0xFFFD : BitVec 16).toInt ∧
    signedOf 16 ((0xFFFD : BitVec 16).toNat % 2 ^ 10) = 1021 := by
  refine ⟨eight_inv, rfl, ?_⟩
  decide

theorem witness_PatternRoundTrip :
    eight.Inv ∧ eight.live = true ∧ eight.cursor + 64 ≤ 8 * eight.length ∧
    (1 ≤ (1 : BitVec 8).toNat ∧ (1 : BitVec 8).toNat ≤ 8) ∧ (1 ≤ (8 : BitVec 8).toNat ∧ (8 : BitVec 8).toNat ≤ 8) := by
  refine ⟨eight_inv, rfl, ?_⟩
  decide

theorem witness_StringRoundTrip :
    (text.Inv ∧ text.live = true ∧ Utf8Text [0x68, 0xC3, 0xA9] ∧
      text.cursor + 32 + 8 * ([0x68, 0xC3, 0xA9] : List Byte).length ≤ 8 * text.length) ∧
    (noText.Inv ∧ noText.live = true ∧ Utf8Text [] ∧ noText.cursor + 32 + 8 * ([] : List Byte).length ≤ 8 * noText.length) :=
  ⟨⟨text_inv, rfl, hi_text, by decide⟩, ⟨noText_inv, rfl, .empty, by decide⟩⟩

theorem witness_Utf8ValidIsTheTable :
    utf8Valid [0x68, 0xC3, 0xA9] = true ∧ (0xC0 : Byte) ∈ [0x41, (0xC0 : Byte)] ∧ (0xC1 : Byte) ∈ [(0xC1 : Byte)] ∧
    ((0xF5 : Byte) ∈ [(0xF5 : Byte)] ∧ 0xF5 ≤ (0xF5 : Byte).toNat) ∧ ((0xFF : Byte) ∈ [(0xFF : Byte)] ∧ 0xF5 ≤ (0xFF : Byte).toNat) ∧
    Between 0x80 0xBF 0x80 ∧ Between 0x80 0xBF 0xBF ∧ Between 0xA0 0xBF 0xA0 ∧ Between 0xA0 0xBF 0xBF ∧
    Between 0xC2 0xF4 0xC2 ∧ Between 0xC2 0xF4 0xF4 ∧ Between 0xE0 0xF4 0xE0 ∧ Between 0xF0 0xF4 0xF0 ∧ Between 0xF0 0xF4 0xF4 := by decide

theorem witness_WrStrIsCountThenBytes :
    text.live = true ∧ text.cursor + 32 + 8 * ([0x68, 0xC3, 0xA9] : List Byte).length ≤ 8 * text.length ∧
    noText.live = true ∧ noText.cursor + 32 + 8 * ([] : List Byte).length ≤ 8 * noText.length := by decide

/-- One bit short: of a count, of capacity, of SEEK's range, of a string's prefix and of its body; a count of zero and one above the
width. -/
theorem witness_OutOfBoundsExactly :
    Raises (.wrBits 0 0) .outOfBounds two ∧ Raises (.rdBits 9) .outOfBounds two ∧ Raises (.wrU16Part 0 11) .outOfBounds two ∧
    Raises (.wrBool true) .outOfBounds full ∧ Raises (.seek 17) .outOfBounds two ∧ Raises .rdStr .outOfBounds two ∧
    Raises .rdStr .outOfBounds (buffer [0x01, 0x00, 0x00, 0x00] 0) ∧ Raises (.rdBytes 2) .outOfBounds two ∧
    Raises (.wrStr []) .outOfBounds two ∧ Raises .rdF64 .outOfBounds two :=
  ⟨rfl, rfl, rfl, rfl, rfl, rfl, rfl, rfl, rfl, rfl⟩

theorem witness_InvalidEncodingExactly : Raises .rdStr .invalidEncoding badText := rfl

theorem witness_ConstructionErrorExactly : Raises (.create 65537) .constructionError two := rfl

theorem witness_NoBufferExactly :
    Raises .intoBytes .noBuffer State.reset ∧ Raises (.wrBits 0 0) .noBuffer State.reset ∧ Raises .rdStr .noBuffer State.reset ∧
    (∃ t, exec .intoBytes two = .next t) ∧
    (∃ (i : Instr) (t : State), exec i State.reset = .next t ∧ State.reset.live = false ∧ t.live = true) ∧
    (∃ (i : Instr) (t : State), exec i two = .next t ∧ two.live = true ∧ t.live = false) :=
  ⟨rfl, rfl, rfl, ⟨respond (dropBuffer two) 0 0 [0x3F, 0x00], rfl⟩,
   ⟨.create 1, respond (makeBuffer State.reset 1) 0 0 [], rfl, rfl, rfl⟩,
   ⟨.intoBytes, respond (dropBuffer two) 0 0 [0x3F, 0x00], rfl, rfl, rfl⟩⟩

theorem witness_ErrorsAreNotSticky : Raises (.rdBits 9) .outOfBounds two ∧ Raises .rdStr .invalidEncoding badText := ⟨rfl, rfl⟩

theorem witness_ResponseWordFields :
    ∃ (i : Instr) (s t : State), s.Inv ∧ exec i s = .next t ∧ t.rp ≠ [] :=
  ⟨.rdBytes 1, two, respond { two with cursor := 14 } 0 0 [0x00], two_inv, rfl, by decide⟩

theorem witness_CommandsReadOnlyTheBuffer :
    SameBuffer two { two with cmd := [5], wp := [0xAA], rsp := [4], rp := [0x01], inFlight := some ⟨0x70, []⟩, rst := true } :=
  ⟨rfl, rfl, rfl, rfl, rfl⟩

theorem witness_OnlyTheseCommandsChangeState :
    (changesStorage .rdStr = false ∧ exec .rdStr text = .next (respond { text with cursor := 56 } 0 0 [0x68, 0xC3, 0xA9])) ∧
    exec .getBitPos two = .next (respond two 0 6 []) := ⟨⟨rfl, rfl⟩, rfl⟩

theorem witness_CursorOnlyAdvances :
    (∃ t, exec (.rdBits 8) two = .next t) ∧
    (bitsMoved (.rdBytes 1) = some 8 ∧ ∃ u, Answers (.rdBytes 1) two u statusOk 0 [0x00]) ∧
    (∃ u, Answers .rdStr text u statusOk 0 [0x68, 0xC3, 0xA9]) :=
  ⟨⟨respond { two with cursor := 14 } 0 0 [], rfl⟩, ⟨rfl, { two with cursor := 14 }, rfl, rfl⟩, ⟨{ text with cursor := 56 }, rfl, rfl⟩⟩

end Sys2Proof.Machine.Tests
end

/-! PROOFS. The statements of 00_scope.md: what a step adds to a command's meaning (O6), that an error is an answer that
changes nothing (O52), and that a command's answer and effect depend on the Buffer and MAX_BYTES alone (O55). -/

namespace Sys2Proof.Machine

/-! ## A step is the decoded command's meaning -/

theorem runCommand_decoded {c : Command} {i : Instr} (s : State) (h : decode c = .ok i) : runCommand c s = exec i s := by
  simp [runCommand, h]

/-- A step that finds the command word `w`, `got` of its payload taken before and the rest of it offered. -/
theorem step_collected {s t : State} {w : Word128} {got : List Byte} {i : Instr} (hf : fetch s = collect w got t)
    (hp : payloadCount w - got.length ≤ t.wp.length)
    (hd : decode ⟨w, got ++ t.wp.take (payloadCount w - got.length)⟩ = .ok i) :
    step s = exec i (takePayload t (payloadCount w - got.length)) := by
  rw [step_command (hf.trans (collect_whole hp)), runCommand_decoded _ hd]

/-- Settles O6: what `fetch` finds in each of the two cases is a whole command. -/
theorem stepRunsDecodedCommand : Obligations.StepRunsDecodedCommand := by
  refine ⟨fun s w rest i hr hf hc hp hd => ?_, fun s f i hr hf hp hd => ?_⟩
  · have hstep := step_collected (got := []) (fetch_next hr hf hc) hp hd
    have htaken : takePayload (takeWord s rest) (payloadCount w) =
        { s with cmd := rest, wp := s.wp.drop (payloadCount w) } := by simp [takePayload, takeWord, hf]
    exact hstep.trans (congrArg (exec i) htaken)
  · exact step_collected (fetch_inFlight hr hf) hp hd

/-! ## One answer, and an error changes nothing -/

/-- What `ErrorsChangeNothing` says of one command in one state. -/
def AnswersAsAllowed (i : Instr) (s : State) : Prop :=
  ∃ u status rdata payload, Answers i s u status rdata payload ∧ status ∈ mayAnswer i ∧
    (status ≠ statusOk → u = s ∧ rdata = 0 ∧ payload = [])

theorem answersAsAllowed_ok {i : Instr} {s u : State} {rdata : BitVec 64} {payload : List Byte}
    (he : exec i s = .next (respond u statusOk rdata payload)) (hu : OnlyBuffer s u) : AnswersAsAllowed i s :=
  ⟨u, statusOk, rdata, payload, ⟨hu, he⟩, statusOk_mem_mayAnswer i, fun hne => absurd rfl hne⟩

theorem answersAsAllowed_error {i : Instr} {s : State} {e : ErrorKind} (h : exec i s = raise e s)
    (hm : e.code ∈ mayAnswer i) : AnswersAsAllowed i s :=
  ⟨s, e.code, 0, [], raises_answers.1 h, hm, fun _ => ⟨rfl, rfl, rfl⟩⟩

/-- A command with an OutOfBounds condition is SEEK or moves bits. -/
theorem OutOfBoundsCondition.seek_or_moves {i : Instr} {s : State} (h : OutOfBoundsCondition i s) :
    (∃ n, i = .seek n) ∨ ∃ n, bitsMoved i = some n := by
  by_cases hseek : ∃ n, i = .seek n
  · exact .inl hseek
  · by_cases hstr : i = .rdStr
    · exact .inr ⟨32, by rw [hstr]; rfl⟩
    · rcases (outOfBounds_transfer hstr (not_exists.1 hseek)).1 h with ⟨c, hc, -⟩ | ⟨n, hn, -⟩
      · exact .inr ⟨c.1, countOperand_bitsMoved hc⟩
      · exact .inr ⟨n, hn⟩

/-- Settles O52, by the cases of `exec_cases`: four raise an error, the others answer OK. -/
theorem errorsChangeNothing : Obligations.ErrorsChangeNothing := by
  intro i s
  change AnswersAsAllowed i s
  cases exec_cases i s with
  | noBuffer _ hi he => exact answersAsAllowed_error he (noBuffer_mem_mayAnswer hi)
  | outOfBounds _ hc he => exact answersAsAllowed_error he (outOfBounds_mem_mayAnswer hc.seek_or_moves)
  | invalidEncoding hi _ _ _ he => subst hi; exact answersAsAllowed_error he (by decide)
  | constructionError n hi _ he => subst hi; exact answersAsAllowed_error he (.tail _ (.head _))
  | created n _ _ he => exact answersAsAllowed_ok he rfl
  | consumed _ _ he => exact answersAsAllowed_ok he rfl
  | sought offset _ _ _ he => exact answersAsAllowed_ok he rfl
  | answered rdata _ _ _ _ he => exact answersAsAllowed_ok he rfl
  | wrote t n v _ _ _ _ _ _ _ hw he => exact answersAsAllowed_ok he hw.onlyBuffer
  | readScalar n _ _ _ _ _ _ _ _ _ he => exact answersAsAllowed_ok he rfl
  | readBytes len _ _ _ he => exact answersAsAllowed_ok he rfl
  | readText _ _ _ _ he => exact answersAsAllowed_ok he rfl

/-! ## The Buffer of one state in another

`withBuffer c s` puts the Buffer of `s` into the surroundings of `c`. What a subroutine does in `withBuffer c s` is what it
does in `s`, put into the same surroundings; so a command cannot tell the surroundings apart. -/

/-- `c` with the Buffer of `s`: parameter, reset input and channels are those of `c`. -/
def withBuffer (c s : State) : State :=
  { c with live := s.live, length := s.length, storage := s.storage, cursor := s.cursor }

theorem SameBuffer.withBuffer_eq {s t : State} (h : SameBuffer s t) : withBuffer t s = t := by
  obtain ⟨-, hlive, hlength, hstorage, hcursor⟩ := h
  simp [withBuffer, hlive, hlength, hstorage, hcursor]

theorem onlyBuffer_withBuffer (c u : State) : OnlyBuffer c (withBuffer c u) := rfl

theorem sameBuffer_withBuffer {c d : State} (u : State) (h : c.maxBytes = d.maxBytes) :
    SameBuffer (withBuffer c u) (withBuffer d u) := ⟨h, rfl, rfl, rfl, rfl⟩

@[simp] theorem withBuffer_length (c s : State) : (withBuffer c s).length = s.length := rfl
@[simp] theorem withBuffer_cursor (c s : State) : (withBuffer c s).cursor = s.cursor := rfl

@[simp] theorem advance_withBuffer (c s : State) (n : Nat) : advance (withBuffer c s) n = withBuffer c (advance s n) := rfl

@[simp] theorem memRead_withBuffer (c s : State) (p : Nat) : memRead (withBuffer c s) p = memRead s p := rfl

@[simp] theorem memWrite_withBuffer (c s : State) (p : Nat) (v : Byte) :
    memWrite (withBuffer c s) p v = withBuffer c <$> memWrite s p v := by
  by_cases h : p < s.length <;> simp only [memWrite, withBuffer_length, h, if_true, if_false] <;> rfl

/-! ## Subroutines that touch the Buffer alone -/

/-- A subroutine that writes: its outcome does not depend on the surroundings, and it leaves them as they are. -/
def WritesLocally (w : State → Except Fault State) : Prop := ∀ c s, w (withBuffer c s) = withBuffer c <$> w s

/-- A subroutine that reads: its outcome does not depend on the surroundings, and it leaves them as they are. -/
def ReadsLocally {α : Type} (r : State → Except Fault (α × State)) : Prop :=
  ∀ c s, r (withBuffer c s) = Prod.map id (withBuffer c) <$> r s

theorem WritesLocally.bind {w w' : State → Except Fault State} (h : WritesLocally w) (h' : WritesLocally w') :
    WritesLocally fun s => w s >>= w' := by
  intro c s
  simp only [h c s, map_bind, bind_map_left, h' c]

theorem ReadsLocally.bind {α β : Type} {r : State → Except Fault (α × State)} {k : α → State → Except Fault (β × State)}
    (h : ReadsLocally r) (h' : ∀ a, ReadsLocally (k a)) : ReadsLocally fun s => r s >>= fun x => k x.1 x.2 := by
  intro c s
  simp only [h c s, map_bind, bind_map_left, Prod.map_fst, Prod.map_snd, id, h' _ c]

theorem readsLocally_ok {α : Type} (a : α) : ReadsLocally fun s => .ok (a, s) := fun _ _ => rfl

theorem writeBits_local (v : Byte) (n : Nat) : WritesLocally (writeBits v n) := by
  intro c s
  simp only [writeBits, withBuffer_cursor, memRead_withBuffer, memWrite_withBuffer, bind_map_left, advance_withBuffer]
  by_cases hfit : n ≤ 8 - s.cursor % 8
  · simp only [if_pos hfit, map_bind]; rfl
  · simp only [if_neg hfit, map_bind]; rfl

theorem readBits_local (n : Nat) : ReadsLocally (readBits n) := by
  intro c s
  simp only [readBits, withBuffer_cursor, memRead_withBuffer, advance_withBuffer]
  by_cases hbyte : s.cursor % 8 = 0 ∧ n = 8
  · simp only [hbyte, and_self, if_true, map_bind]; rfl
  · by_cases hfit : n ≤ 8 - s.cursor % 8
    · simp only [hbyte, hfit, if_false, if_true, map_bind]; rfl
    · simp only [hbyte, hfit, if_false, map_bind]; rfl

theorem writeCalls_local {W : Nat} (v : BitVec W) (b n j : Nat) : WritesLocally (writeCalls v b n j) := by
  induction n generalizing j with
  | zero => exact fun _ _ => rfl
  | succ n ih => exact (writeBits_local _ _).bind (ih (j + 1))

theorem writePart_local {W : Nat} (v : BitVec W) (b : Nat) : WritesLocally (writePart v b) :=
  writeCalls_local v b (callCount b) 0

theorem writePart64_local (v : BitVec 64) (b : Nat) : WritesLocally (writePart64 v b) := by
  intro c s
  unfold writePart64
  split
  · exact writePart_local _ _ c s
  · exact (writePart_local _ _).bind (writePart_local _ _) c s

theorem readCalls_local (W b n j : Nat) (r : BitVec W) : ReadsLocally (readCalls W b n j r) := by
  induction n generalizing j r with
  | zero => exact readsLocally_ok r
  | succ n ih => exact (readBits_local _).bind fun x => ih (j + 1) (r ||| (x.setWidth W <<< (8 * j)))

theorem readPart_local (W b : Nat) : ReadsLocally (readPart W b) := readCalls_local W b (callCount b) 0 0

theorem readPart64_local (b : Nat) : ReadsLocally (readPart64 b) := by
  intro c s
  unfold readPart64
  split
  · exact (readPart_local 32 b).bind (fun lo => readsLocally_ok (lo.setWidth 64)) c s
  · exact (readPart_local 32 32).bind (fun lo => (readPart_local 32 (b - 32)).bind fun hi =>
      readsLocally_ok ((hi.setWidth 64 <<< 32) ||| lo.setWidth 64)) c s

theorem writeBytes_local (l : List Byte) : WritesLocally (writeBytes l) := by
  induction l with
  | nil => exact fun _ _ => rfl
  | cons b l ih => exact (writeBits_local b 8).bind ih

theorem readBytes_local (n : Nat) : ReadsLocally (readBytes n) := by
  induction n with
  | zero => exact readsLocally_ok []
  | succ n ih => exact (readBits_local 8).bind fun b => ih.bind fun rest => readsLocally_ok (b :: rest)

theorem writeString_local (payload : List Byte) : WritesLocally (writeString payload) :=
  (writePart_local _ 32).bind (writeBytes_local payload)

theorem storageBytes_withBuffer (c s : State) (n p : Nat) : storageBytes (withBuffer c s) n p = storageBytes s n p := by
  induction n generalizing p with
  | zero => rfl
  | succ n ih => simp only [storageBytes, memRead_withBuffer, ih]

/-! ## Commands that cannot tell the surroundings apart -/

/-- An outcome for each state `c` of surroundings is the same answer, or the same fault, in all that have MAX_BYTES `m`. -/
inductive Uniform (m : Nat) (o : State → Out) : Prop where
  | answers (u : State) (status : BitVec 8) (rdata : BitVec 64) (payload : List Byte) :
      (∀ c, c.maxBytes = m → o c = .next (respond (withBuffer c u) status rdata payload)) → Uniform m o
  | faults (f : Fault) : (∀ c, c.maxBytes = m → o c = .fault f) → Uniform m o

section
variable {m : Nat}

theorem uniform_finish (u : State) (rdata : BitVec 64) (payload : List Byte) :
    Uniform m fun c => finish (withBuffer c u) rdata payload :=
  .answers u statusOk rdata payload fun _ _ => rfl

theorem uniform_raise (e : ErrorKind) (u : State) : Uniform m fun c => raise e (withBuffer c u) :=
  .answers u e.code 0 [] fun _ _ => rfl

theorem Uniform.congr {o o' : State → Out} (h : Uniform m o) (e : ∀ c, c.maxBytes = m → o' c = o c) : Uniform m o' := by
  cases h with
  | answers u status rdata payload h => exact .answers u status rdata payload fun c hc => (e c hc).trans (h c hc)
  | faults f h => exact .faults f fun c hc => (e c hc).trans (h c hc)

/-- A check that does not look at the surroundings. -/
theorem uniform_ite (p : Prop) [Decidable p] {o o' : State → Out} (h : Uniform m o) (h' : Uniform m o') :
    Uniform m fun c => if p then o c else o' c := by
  by_cases hp : p
  · simpa only [if_pos hp] using h
  · simpa only [if_neg hp] using h'

theorem uniform_needBuffer (s : State) {k : State → Out} (h : Uniform m k) :
    Uniform m fun c => needBuffer (withBuffer c s) (k c) :=
  uniform_ite (s.live = true) h (uniform_raise .noBuffer s)

theorem uniform_needCount (n W : Nat) (s : State) {k : State → Out} (h : Uniform m k) :
    Uniform m fun c => needCount n W (withBuffer c s) (k c) :=
  uniform_ite (n < 1 ∨ n > W) (uniform_raise .outOfBounds s) h

theorem uniform_needRoom (n : Nat) (s : State) {k : State → Out} (h : Uniform m k) :
    Uniform m fun c => needRoom n (withBuffer c s) (k c) :=
  uniform_ite (fits s n = true) h (uniform_raise .outOfBounds s)

/-- A subroutine's result that does not depend on the surroundings, handed on. -/
theorem uniform_andThen {α : Type} (r : Except Fault α) {k : State → α → Out} (h : ∀ a, Uniform m fun c => k c a) :
    Uniform m fun c => andThen r (k c) := by
  cases r with
  | ok a => exact h a
  | error f => exact .faults f fun _ _ => rfl

/-- What a read found, handed on with the state it left. -/
theorem uniform_andThen_read {α : Type} {r : State → Except Fault (α × State)} (hr : ReadsLocally r) (u : State)
    {k : State → α × State → Out} (h : ∀ a v, Uniform m fun c => k c (a, withBuffer c v)) :
    Uniform m fun c => andThen (r (withBuffer c u)) (k c) := by
  refine (uniform_andThen (r u) (k := fun c x => k c (x.1, withBuffer c x.2)) fun x => h x.1 x.2).congr fun c _ => ?_
  rw [hr c u]
  cases r u <;> rfl

theorem uniform_finishWrite {w : State → Except Fault State} (hw : WritesLocally w) (u : State) :
    Uniform m fun c => finishWrite (w (withBuffer c u)) := by
  refine (uniform_andThen (w u) (k := fun c t => finish (withBuffer c t) 0 []) fun t => uniform_finish t 0 []).congr fun c _ => ?_
  rw [hw c u]
  cases w u <;> rfl

/-- A command of fixed width (60_exceptions.md R248). -/
theorem uniform_transfer (n : Nat) (s : State) {k : State → Out} (h : Uniform m k) :
    Uniform m fun c => needBuffer (withBuffer c s) (needRoom n (withBuffer c s) (k c)) :=
  uniform_needBuffer s (uniform_needRoom n s h)

/-- A command with a count operand (60_exceptions.md R248). -/
theorem uniform_part (n W : Nat) (s : State) {k : State → Out} (h : Uniform m k) :
    Uniform m fun c => needBuffer (withBuffer c s) (needCount n W (withBuffer c s) (needRoom n (withBuffer c s) (k c))) :=
  uniform_needBuffer s (uniform_needCount n W s (uniform_needRoom n s h))

theorem uniform_write (n : Nat) (s : State) {w : State → Except Fault State} (hw : WritesLocally w) :
    Uniform m fun c => needBuffer (withBuffer c s) (needRoom n (withBuffer c s) (finishWrite (w (withBuffer c s)))) :=
  uniform_transfer n s (uniform_finishWrite hw s)

theorem uniform_writePart (n W : Nat) (s : State) {w : State → Except Fault State} (hw : WritesLocally w) :
    Uniform m fun c => needBuffer (withBuffer c s)
      (needCount n W (withBuffer c s) (needRoom n (withBuffer c s) (finishWrite (w (withBuffer c s))))) :=
  uniform_part n W s (uniform_finishWrite hw s)

theorem uniform_finishRead {W : Nat} (present : BitVec W → BitVec 64) {r : State → Except Fault (BitVec W × State)}
    (hr : ReadsLocally r) (u : State) : Uniform m fun c => finishRead present (r (withBuffer c u)) :=
  uniform_andThen_read hr u fun x v => uniform_finish v (present x) []

theorem uniform_read (n : Nat) (s : State) {W : Nat} (present : BitVec W → BitVec 64)
    {r : State → Except Fault (BitVec W × State)} (hr : ReadsLocally r) :
    Uniform m fun c => needBuffer (withBuffer c s) (needRoom n (withBuffer c s) (finishRead present (r (withBuffer c s)))) :=
  uniform_transfer n s (uniform_finishRead present hr s)

theorem uniform_readPart (n W : Nat) (s : State) {W' : Nat} (present : BitVec W' → BitVec 64)
    {r : State → Except Fault (BitVec W' × State)} (hr : ReadsLocally r) :
    Uniform m fun c => needBuffer (withBuffer c s)
      (needCount n W (withBuffer c s) (needRoom n (withBuffer c s) (finishRead present (r (withBuffer c s))))) :=
  uniform_part n W s (uniform_finishRead present hr s)

/-- A command that answers about the Buffer and changes nothing. -/
theorem uniform_answer (s : State) (rdata : BitVec 64) :
    Uniform m fun c => needBuffer (withBuffer c s) (finish (withBuffer c s) rdata []) :=
  uniform_needBuffer s (uniform_finish s rdata [])

end

theorem exec_create_uniform (n : BitVec 64) (s : State) : Uniform s.maxBytes fun c => exec (.create n) (withBuffer c s) := by
  refine (uniform_ite (n.toNat > s.maxBytes) (uniform_raise .constructionError s)
    (uniform_finish (makeBuffer s n.toNat) 0 [])).congr fun c hc => ?_
  rw [← hc]
  rfl

theorem exec_intoBytes_uniform (s : State) : Uniform s.maxBytes fun c => exec .intoBytes (withBuffer c s) := by
  refine (uniform_needBuffer s (uniform_andThen (storageBytes s s.length 0)
    fun bytes => uniform_finish (dropBuffer s) 0 bytes)).congr fun c _ => ?_
  rw [← storageBytes_withBuffer c]
  rfl

theorem exec_rdStr_uniform (s : State) : Uniform s.maxBytes fun c => exec .rdStr (withBuffer c s) :=
  uniform_transfer 32 s <| uniform_andThen_read (readPart_local 32 32) s fun n u =>
    uniform_ite (fits u (8 * n.toNat) = true)
      (uniform_andThen_read (readBytes_local n.toNat) u fun bytes v =>
        uniform_ite (utf8Valid bytes = true) (uniform_finish v 0 bytes) (uniform_raise .invalidEncoding s))
      (uniform_raise .outOfBounds s)

/-- Every command, one arm per constructor: its checks look at the Buffer, its subroutine is local. -/
theorem exec_uniform (i : Instr) (s : State) : Uniform s.maxBytes fun c => exec i (withBuffer c s) := by
  cases i with
  | create n => exact exec_create_uniform n s
  | intoBytes => exact exec_intoBytes_uniform s
  | getBitPos => exact uniform_answer s (BitVec.ofNat 64 s.cursor)
  | getBytePos => exact uniform_answer s (BitVec.ofNat 64 (s.cursor / 8))
  | getCapBits => exact uniform_answer s (BitVec.ofNat 64 (8 * s.length))
  | seek n =>
    exact uniform_needBuffer s (uniform_ite (n.toNat > 8 * s.length) (uniform_raise .outOfBounds s)
      (uniform_finish (moveCursor s n.toNat) 0 []))
  | canWrBits n | canRdBits n => exact uniform_answer s (answer (fits s n.toNat))
  | canWrBytes n | canRdBytes n => exact uniform_answer s (answer (fits s (8 * n.toNat)))
  | wrBits v b => exact uniform_writePart b.toNat 8 s (writeBits_local v b.toNat)
  | rdBits b => exact uniform_readPart b.toNat 8 s zext64 (readBits_local b.toNat)
  | wrBool v => exact uniform_write 1 s (writeBits_local (boolByte v) 1)
  | rdBool => exact uniform_read 1 s zext64 (readBits_local 1)
  | wrU8 v | wrI8 v => exact uniform_write 8 s (writePart_local v 8)
  | wrU16 v | wrI16 v => exact uniform_write 16 s (writePart_local v 16)
  | wrU32 v | wrI32 v => exact uniform_write 32 s (writePart_local v 32)
  | wrU64 v | wrI64 v => exact uniform_write 64 s (writePart64_local v 64)
  | wrU8Part v b | wrI8Part v b => exact uniform_writePart b.toNat 8 s (writePart_local v b.toNat)
  | wrU16Part v b | wrI16Part v b => exact uniform_writePart b.toNat 16 s (writePart_local v b.toNat)
  | wrU32Part v b | wrI32Part v b => exact uniform_writePart b.toNat 32 s (writePart_local v b.toNat)
  | wrU64Part v b | wrI64Part v b => exact uniform_writePart b.toNat 64 s (writePart64_local v b.toNat)
  | rdU8 => exact uniform_read 8 s zext64 (readPart_local 8 8)
  | rdI8 => exact uniform_read 8 s sext64 (readPart_local 8 8)
  | rdU16 => exact uniform_read 16 s zext64 (readPart_local 16 16)
  | rdI16 => exact uniform_read 16 s sext64 (readPart_local 16 16)
  | rdU32 => exact uniform_read 32 s zext64 (readPart_local 32 32)
  | rdI32 => exact uniform_read 32 s sext64 (readPart_local 32 32)
  | rdU64 => exact uniform_read 64 s zext64 (readPart64_local 64)
  | rdI64 => exact uniform_read 64 s sext64 (readPart64_local 64)
  | rdU8Part b => exact uniform_readPart b.toNat 8 s zext64 (readPart_local 8 b.toNat)
  | rdI8Part b => exact uniform_readPart b.toNat 8 s sext64 (readPart_local 8 b.toNat)
  | rdU16Part b => exact uniform_readPart b.toNat 16 s zext64 (readPart_local 16 b.toNat)
  | rdI16Part b => exact uniform_readPart b.toNat 16 s sext64 (readPart_local 16 b.toNat)
  | rdU32Part b => exact uniform_readPart b.toNat 32 s zext64 (readPart_local 32 b.toNat)
  | rdI32Part b => exact uniform_readPart b.toNat 32 s sext64 (readPart_local 32 b.toNat)
  | rdU64Part b => exact uniform_readPart b.toNat 64 s zext64 (readPart64_local b.toNat)
  | rdI64Part b => exact uniform_readPart b.toNat 64 s sext64 (readPart64_local b.toNat)
  | wrF32 v => exact uniform_write 32 s (writeBytes_local (bytesOf 4 v))
  | wrF64 v => exact uniform_write 64 s (writeBytes_local (bytesOf 8 v))
  | rdF32 =>
    exact uniform_transfer 32 s (uniform_andThen_read (readBytes_local 4) s fun l u => uniform_finish u (zext64 (orBytes 32 0 l)) [])
  | rdF64 =>
    exact uniform_transfer 64 s (uniform_andThen_read (readBytes_local 8) s fun l u => uniform_finish u (orBytes 64 0 l) [])
  | wrBytes payload => exact uniform_write (8 * payload.length) s (writeBytes_local payload)
  | rdBytes len =>
    exact uniform_transfer (8 * len.toNat) s
      (uniform_andThen_read (readBytes_local len.toNat) s fun l u => uniform_finish u 0 l)
  | wrStr payload => exact uniform_write (32 + 8 * payload.length) s (writeString_local payload)
  | rdStr => exact exec_rdStr_uniform s

/-- Settles O55: both states are surroundings for the Buffer they share, and `exec_uniform` gives one answer in all of them;
that it is an answer and no fault is `errorsChangeNothing`. -/
theorem commandsReadOnlyTheBuffer : Obligations.CommandsReadOnlyTheBuffer := by
  intro i s t h
  cases exec_uniform i s with
  | answers u status rdata payload ha =>
    have hs : exec i s = .next (respond (withBuffer s u) status rdata payload) := ha s rfl
    have ht : exec i t = .next (respond (withBuffer t u) status rdata payload) := by
      simpa only [h.withBuffer_eq] using ha t h.maxBytes.symm
    exact ⟨withBuffer s u, withBuffer t u, status, rdata, payload, ⟨onlyBuffer_withBuffer s u, hs⟩,
      ⟨onlyBuffer_withBuffer t u, ht⟩, sameBuffer_withBuffer u h.maxBytes⟩
  | faults f hf =>
    obtain ⟨u, status, rdata, payload, ⟨-, he⟩, -⟩ := errorsChangeNothing i s
    have hfault : exec i s = .fault f := hf s rfl
    rw [he] at hfault
    cases hfault

end Sys2Proof.Machine

/-! PROOFS. The statements of 10_state.md: what a reset leaves (O1, O2), what a command can change of the Buffer (O56, O57),
and the invariants that every command and every step keep (O58, O9). `Leaves` says once which Buffers a command can leave; each
statement about commands is read off its cases. -/

namespace Sys2Proof.Machine

/-! ## The cells of storage -/

/-- The model's clauses on the cells (log 6): canonical form, and no cell at or above `length`. -/
structure State.CellsInv (s : State) : Prop where
  wf : Memory.wf s.storage
  bound : ∀ c ∈ s.storage, c.1 < s.length

/-- A subroutine that writes keeps the clauses on the cells. -/
def KeepsCells (w : State → Except Fault State) : Prop := ∀ s t, w s = .ok t → s.CellsInv → t.CellsInv

theorem memWrite_keepsCells (p : Nat) (v : Byte) : KeepsCells fun s => memWrite s p v := by
  intro s t hw hs
  obtain ⟨hwf, hbound, -⟩ := memWrite_keeps hw
  exact ⟨hwf hs.wf, hbound hs.bound⟩

theorem ok_keepsCells : KeepsCells fun s => .ok s := by
  intro s t h hs
  cases h
  exact hs

theorem advance_keepsCells (n : Nat) : KeepsCells fun s => .ok (advance s n) := by
  intro s t h hs
  cases h
  exact ⟨hs.wf, hs.bound⟩

/-- A subroutine that gives a result has given one at each of its stages. -/
theorem bind_eq_ok {α β : Type} {x : Except Fault α} {k : α → Except Fault β} {b : β} (h : (x >>= k) = .ok b) :
    ∃ a, x = .ok a ∧ k a = .ok b := by
  cases x with
  | error f => cases h
  | ok a => exact ⟨a, rfl, h⟩

theorem KeepsCells.bind {w w' : State → Except Fault State} (h : KeepsCells w) (h' : KeepsCells w') :
    KeepsCells fun s => w s >>= w' := by
  intro s r hr hs
  obtain ⟨t, ht, hr⟩ := bind_eq_ok hr
  exact h' t r hr (h s t ht hs)

theorem memWrite_advance_keepsCells (p : Nat) (v : Byte) (n : Nat) :
    KeepsCells fun s => memWrite s p v >>= fun t => .ok (advance t n) :=
  (memWrite_keepsCells p v).bind (advance_keepsCells n)

/-- The fit case stores one byte, the split case two; the bytes read first only decide which. -/
theorem writeBits_keepsCells (v : Byte) (c : Nat) : KeepsCells (writeBits v c) := by
  intro s t h hs
  unfold writeBits at h
  dsimp only at h
  split at h
  · obtain ⟨b, -, h⟩ := bind_eq_ok h
    exact memWrite_advance_keepsCells _ _ c s t h hs
  · obtain ⟨b, -, h⟩ := bind_eq_ok h
    obtain ⟨u, hu, h⟩ := bind_eq_ok h
    obtain ⟨b', -, h⟩ := bind_eq_ok h
    exact memWrite_advance_keepsCells _ _ c u t h (memWrite_keepsCells _ _ s u hu hs)

theorem writeCalls_keepsCells {W : Nat} (v : BitVec W) (b n j : Nat) : KeepsCells (writeCalls v b n j) := by
  induction n generalizing j with
  | zero => exact ok_keepsCells
  | succ n ih => exact (writeBits_keepsCells _ _).bind (ih (j + 1))

theorem writePart_keepsCells {W : Nat} (v : BitVec W) (b : Nat) : KeepsCells (writePart v b) :=
  writeCalls_keepsCells v b (callCount b) 0

theorem writePart64_keepsCells (v : BitVec 64) (b : Nat) : KeepsCells (writePart64 v b) := by
  intro s t h
  unfold writePart64 at h
  split at h
  · exact writePart_keepsCells _ _ s t h
  · exact ((writePart_keepsCells _ _).bind (writePart_keepsCells _ _)) s t h

theorem writeBytes_keepsCells (l : List Byte) : KeepsCells (writeBytes l) := by
  induction l with
  | nil => exact ok_keepsCells
  | cons b l ih => exact (writeBits_keepsCells b 8).bind ih

theorem writeString_keepsCells (payload : List Byte) : KeepsCells (writeString payload) :=
  (writePart_keepsCells _ 32).bind (writeBytes_keepsCells payload)

/-- An outcome of a command that began in `s` keeps the clauses on the cells. -/
def CellsKept (s : State) (o : Out) : Prop := ∀ t, o = .next t → s.CellsInv → t.CellsInv

theorem cellsKept_raise (e : ErrorKind) (s : State) : CellsKept s (raise e s) := by
  intro t h hs
  cases h
  exact ⟨hs.wf, hs.bound⟩

theorem cellsKept_finishWrite {w : State → Except Fault State} (hw : KeepsCells w) (s : State) :
    CellsKept s (finishWrite (w s)) := by
  intro t h hs
  cases hu : w s with
  | error f =>
    rw [hu] at h
    cases h
  | ok u =>
    rw [hu] at h
    cases h
    have hcells := hw s u hu hs
    exact ⟨hcells.wf, hcells.bound⟩

theorem cellsKept_write (n : Nat) (s : State) {w : State → Except Fault State} (hw : KeepsCells w) :
    CellsKept s (needBuffer s (needRoom n s (finishWrite (w s)))) := by
  rcases transfer_cases n s (finishWrite (w s)) with ⟨-, he⟩ | ⟨-, -, he⟩ | ⟨-, -, he⟩ <;> rw [he]
  · exact cellsKept_raise _ s
  · exact cellsKept_raise _ s
  · exact cellsKept_finishWrite hw s

theorem cellsKept_writePart (n W : Nat) (s : State) {w : State → Except Fault State} (hw : KeepsCells w) :
    CellsKept s (needBuffer s (needCount n W s (needRoom n s (finishWrite (w s))))) := by
  rcases part_cases n W s (finishWrite (w s)) with ⟨-, he⟩ | ⟨-, -, he⟩ | ⟨-, -, -, -, he⟩ <;> rw [he]
  · exact cellsKept_raise _ s
  · exact cellsKept_raise _ s
  · exact cellsKept_finishWrite hw s

/-- Every write command keeps the clauses on the cells: it stores through `memWrite` alone. -/
theorem exec_write_cellsKept {i : Instr} {v : Nat} (hv : writtenValue i = some v) (s : State) : CellsKept s (exec i s) := by
  cases i with
  | wrBits v b => exact cellsKept_writePart b.toNat 8 s (writeBits_keepsCells v b.toNat)
  | wrBool v => exact cellsKept_write 1 s (writeBits_keepsCells (boolByte v) 1)
  | wrU8 v | wrI8 v => exact cellsKept_write 8 s (writePart_keepsCells v 8)
  | wrU16 v | wrI16 v => exact cellsKept_write 16 s (writePart_keepsCells v 16)
  | wrU32 v | wrI32 v => exact cellsKept_write 32 s (writePart_keepsCells v 32)
  | wrU64 v | wrI64 v => exact cellsKept_write 64 s (writePart64_keepsCells v 64)
  | wrU8Part v b | wrI8Part v b => exact cellsKept_writePart b.toNat 8 s (writePart_keepsCells v b.toNat)
  | wrU16Part v b | wrI16Part v b => exact cellsKept_writePart b.toNat 16 s (writePart_keepsCells v b.toNat)
  | wrU32Part v b | wrI32Part v b => exact cellsKept_writePart b.toNat 32 s (writePart_keepsCells v b.toNat)
  | wrU64Part v b | wrI64Part v b => exact cellsKept_writePart b.toNat 64 s (writePart64_keepsCells v b.toNat)
  | wrF32 v => exact cellsKept_write 32 s (writeBytes_keepsCells (bytesOf 4 v))
  | wrF64 v => exact cellsKept_write 64 s (writeBytes_keepsCells (bytesOf 8 v))
  | wrBytes payload => exact cellsKept_write (8 * payload.length) s (writeBytes_keepsCells payload)
  | wrStr payload => exact cellsKept_write (32 + 8 * payload.length) s (writeString_keepsCells payload)
  | _ => cases hv

/-! ## What a command leaves -/

/-- The bits of 20_memory.md R46 that a transfer moves when it answers OK: those of `bitsMoved`, and for RD_STR the body
after its count too. -/
def transferBits (i : Instr) (s : State) : Option Nat :=
  match i with
  | .rdStr => some (32 + 8 * s.field s.cursor 32)
  | i => bitsMoved i

theorem transferBits_rdStr (s : State) : transferBits .rdStr s = some (32 + 8 * s.field s.cursor 32) := rfl

theorem transferBits_eq {i : Instr} (s : State) (h : i ≠ .rdStr) : transferBits i s = bitsMoved i := by
  cases i with
  | rdStr => exact absurd rfl h
  | _ => rfl

theorem transferBits_none {i : Instr} (s : State) (h : bitsMoved i = none) : transferBits i s = none := by
  rw [transferBits_eq s (by rintro rfl; cases h), h]

/-- `Leaves i s u status`: a command begun in `s` that answers `status` can leave `u`, but for its response. -/
inductive Leaves (i : Instr) (s : State) : State → BitVec 8 → Prop where
  /-- An error (60_exceptions.md R249). -/
  | failed (e : ErrorKind) : Leaves i s s e.code
  /-- An accessor or a predicate. -/
  | answered : bitsMoved i = none → Leaves i s s statusOk
  /-- CREATE (40_buffer_cursor.md R91). -/
  | created (n : BitVec 64) : i = .create n → n.toNat ≤ s.maxBytes → Leaves i s (makeBuffer s n.toNat) statusOk
  /-- INTO_BYTES (40_buffer_cursor.md R92). -/
  | consumed : i = .intoBytes → Leaves i s (dropBuffer s) statusOk
  /-- SEEK (40_buffer_cursor.md R96). -/
  | sought (offset : BitVec 64) : i = .seek offset → s.live = true → offset.toNat ≤ 8 * s.length →
      Leaves i s (moveCursor s offset.toNat) statusOk
  /-- A read: the cursor alone. -/
  | took (n : Nat) : transferBits i s = some n → s.live = true → s.cursor + n ≤ 8 * s.length →
      Leaves i s (advance s n) statusOk
  /-- A write: a field at the cursor. -/
  | wrote (t : State) (n : Nat) (f : Nat → Bool) : transferBits i s = some n → changesStorage i = true → s.live = true →
      s.cursor + n ≤ 8 * s.length → FieldWritten s t n f → (s.CellsInv → t.CellsInv) → Leaves i s t statusOk

/-- Every command answers, and what it leaves is one of the cases of `Leaves`. -/
theorem exec_leaves (i : Instr) (s : State) :
    ∃ u status rdata payload, Leaves i s u status ∧ exec i s = .next (respond u status rdata payload) := by
  cases exec_cases i s with
  | noBuffer _ _ he => exact ⟨_, _, _, _, .failed .noBuffer, he⟩
  | outOfBounds _ _ he => exact ⟨_, _, _, _, .failed .outOfBounds, he⟩
  | invalidEncoding _ _ _ _ he => exact ⟨_, _, _, _, .failed .invalidEncoding, he⟩
  | constructionError n _ _ he => exact ⟨_, _, _, _, .failed .constructionError, he⟩
  | created n hi hn he => exact ⟨_, _, _, _, .created n hi hn, he⟩
  | consumed hi _ he => exact ⟨_, _, _, _, .consumed hi, he⟩
  | sought offset hi hl hn he => exact ⟨_, _, _, _, .sought offset hi hl hn, he⟩
  | answered rdata hb _ _ _ he => exact ⟨_, _, _, _, .answered hb, he⟩
  | wrote t n v hv hn _ hc hl hr _ hw he =>
    have hstr : i ≠ .rdStr := by rintro rfl; cases hc
    have hcells : s.CellsInv → t.CellsInv := fun hs =>
      have h := exec_write_cellsKept hv s _ he hs
      ⟨h.wf, h.bound⟩
    exact ⟨_, _, _, _, .wrote t n _ ((transferBits_eq s hstr).trans hn) hc hl hr hw hcells, he⟩
  | readScalar n _ hn _ _ hstr _ _ hl hr he => exact ⟨_, _, _, _, .took n ((transferBits_eq s hstr).trans hn) hl hr, he⟩
  | readBytes len hi hl hr he =>
    subst hi
    exact ⟨_, _, _, _, .took (8 * len.toNat) rfl hl hr, he⟩
  | readText hi hl hr _ he =>
    subst hi
    exact ⟨_, _, _, _, .took _ (transferBits_rdStr s) hl (by omega), he⟩

theorem Leaves.onlyBuffer {i : Instr} {s u : State} {status : BitVec 8} (h : Leaves i s u status) : OnlyBuffer s u := by
  cases h with
  | wrote t n f _ _ _ _ hw _ => exact hw.onlyBuffer
  | _ => rfl

/-- The next state of a command is a state it leaves, with a response. -/
theorem leaves_of_exec {i : Instr} {s t : State} (h : exec i s = .next t) :
    ∃ u status rdata payload, Leaves i s u status ∧ t = respond u status rdata payload := by
  obtain ⟨u, status, rdata, payload, hu, he⟩ := exec_leaves i s
  exact ⟨u, status, rdata, payload, hu, Host.Outcome.next.inj (h.symm.trans he)⟩

/-- The state of an answer is a state the command leaves. -/
theorem leaves_of_answers {i : Instr} {s u : State} {status : BitVec 8} {rdata : BitVec 64} {payload : List Byte}
    (h : Answers i s u status rdata payload) : Leaves i s u status := by
  obtain ⟨v, status', rdata', payload', hv, he⟩ := exec_leaves i s
  obtain ⟨rfl, rfl, -, -⟩ := answers_unique h ⟨hv.onlyBuffer, he⟩
  exact hv

/-! ## What a command changes -/

section
variable {i : Instr} {s u : State} {status : BitVec 8}

theorem Leaves.storage_eq (h : Leaves i s u status) (hi : changesStorage i = false) : u.storage = s.storage := by
  cases h with
  | failed e => rfl
  | answered _ => rfl
  | created n hc _ => subst hc; cases hi
  | consumed hc => subst hc; cases hi
  | sought offset _ _ _ => rfl
  | took n _ _ _ => rfl
  | wrote t n f _ hc _ _ _ _ => rw [hi] at hc; cases hc

theorem Leaves.length_live_eq (h : Leaves i s u status) (hinto : i ≠ .intoBytes) (hcreate : ∀ n, i ≠ .create n) :
    u.length = s.length ∧ u.live = s.live := by
  cases h with
  | created n hc _ => exact absurd hc (hcreate n)
  | consumed hc => exact absurd hc hinto
  | wrote t n f _ _ _ _ hw _ => rw [hw.rest]; exact ⟨rfl, rfl⟩
  | _ => exact ⟨rfl, rfl⟩

/-- A command that moves no bits, changes no storage and is not SEEK leaves the state as it is. -/
theorem Leaves.eq_self (h : Leaves i s u status) (hb : bitsMoved i = none) (hi : changesStorage i = false)
    (hseek : ∀ n, i ≠ .seek n) : u = s := by
  cases h with
  | failed e => rfl
  | answered _ => rfl
  | created n hc _ => subst hc; cases hi
  | consumed hc => subst hc; cases hi
  | sought offset hc _ _ => exact absurd hc (hseek offset)
  | took n hn _ _ => rw [transferBits_none s hb] at hn; cases hn
  | wrote t n f hn _ _ _ _ _ => rw [transferBits_none s hb] at hn; cases hn

theorem Leaves.cursor_le (h : Leaves i s u status) (hinto : i ≠ .intoBytes) (hcreate : ∀ n, i ≠ .create n)
    (hseek : ∀ n, i ≠ .seek n) : s.cursor ≤ u.cursor := by
  cases h with
  | failed e => exact Nat.le_refl _
  | answered _ => exact Nat.le_refl _
  | created n hc _ => exact absurd hc (hcreate n)
  | consumed hc => exact absurd hc hinto
  | sought offset hc _ _ => exact absurd hc (hseek offset)
  | took n _ _ _ => exact Nat.le_add_right _ _
  | wrote t n f _ _ _ _ hw _ => rw [hw.cursor_eq]; exact Nat.le_add_right _ _

/-- A transfer that answers OK advances the cursor by its bits (20_memory.md R46). -/
theorem Leaves.cursor_eq (h : Leaves i s u statusOk) {n : Nat} (hn : transferBits i s = some n) :
    u.cursor = s.cursor + n := by
  generalize hok : statusOk = status at h
  cases h with
  | failed e => exact absurd hok.symm (errorCode_ne_ok e)
  | answered hb => rw [transferBits_none s hb] at hn; cases hn
  | created m hc _ => subst hc; cases hn
  | consumed hc => subst hc; cases hn
  | sought offset hc _ _ => subst hc; cases hn
  | took m hm _ _ => cases hn.symm.trans hm; rfl
  | wrote t m f hm _ _ _ hw _ => cases hn.symm.trans hm; exact hw.cursor_eq

end

/-- The accessors (40_buffer_cursor.md R93 to R95) and the predicates (46_bounds_predicates.md). -/
def AsksOnly (i : Instr) : Prop :=
  i = .getBitPos ∨ i = .getBytePos ∨ i = .getCapBits ∨
    ∃ n, i = .canWrBits n ∨ i = .canRdBits n ∨ i = .canWrBytes n ∨ i = .canRdBytes n

theorem AsksOnly.moves_nothing {i : Instr} (h : AsksOnly i) :
    bitsMoved i = none ∧ changesStorage i = false ∧ ∀ n, i ≠ .seek n := by
  rcases h with rfl | rfl | rfl | ⟨n, rfl | rfl | rfl | rfl⟩ <;> exact ⟨rfl, rfl, by simp⟩

/-- Settles O56: of the Buffers a command can leave, by `Leaves`; the rest is its frame. -/
theorem onlyTheseCommandsChangeState : Obligations.OnlyTheseCommandsChangeState := by
  intro i s t h
  obtain ⟨u, status, rdata, payload, hu, rfl⟩ := leaves_of_exec h
  have hframe : OnlyBuffer s u := hu.onlyBuffer
  refine ⟨hu.storage_eq, hu.length_live_eq, fun hi => ?_, ?_⟩
  · obtain ⟨hb, hc, hseek⟩ := AsksOnly.moves_nothing hi
    obtain rfl := hu.eq_self hb hc hseek
    exact ⟨rfl, rfl, rfl, rfl, rfl⟩
  · rw [hframe]
    exact ⟨rfl, rfl, rfl, rfl, rfl⟩

/-- Settles O57: the cursor of the Buffers a command can leave, by `Leaves`. -/
theorem cursorOnlyAdvances : Obligations.CursorOnlyAdvances := by
  refine ⟨fun i s t h hinto hcreate hseek => ?_, fun i s u n rdata payload hn hi h => ?_, fun s u rdata payload h => ?_⟩
  · obtain ⟨u, status, rdata, payload, hu, rfl⟩ := leaves_of_exec h
    exact hu.cursor_le hinto hcreate hseek
  · exact (leaves_of_answers h).cursor_eq ((transferBits_eq s hi).trans hn)
  · rw [(leaves_of_answers h).cursor_eq (transferBits_rdStr s), Nat.add_assoc]

/-! ## The invariants and a command -/

theorem State.SpecInv.of_live {s : State} (hlive : s.live = true) (hlength : s.length ≤ s.maxBytes)
    (hcursor : s.cursor ≤ 8 * s.length) : s.SpecInv :=
  ⟨hlength, hcursor, fun hdead => by rw [hlive] at hdead; cases hdead⟩

theorem State.SpecInv.of_noBuffer {s : State} (hlength : s.length = 0) (hcursor : s.cursor = 0) : s.SpecInv :=
  ⟨by omega, by omega, fun _ => ⟨hlength, hcursor⟩⟩

theorem State.CellsInv.of_empty {s : State} (h : s.storage = []) : s.CellsInv := by
  constructor <;> rw [h]
  · exact ⟨.nil, fun c hc => by cases hc⟩
  · intro c hc
    cases hc

theorem Leaves.keeps_specInv {i : Instr} {s u : State} {status : BitVec 8} (h : Leaves i s u status) (hs : s.SpecInv) :
    u.SpecInv := by
  cases h with
  | failed e => exact hs
  | answered _ => exact hs
  | created n _ hn => exact .of_live rfl hn (Nat.zero_le _)
  | consumed _ => exact .of_noBuffer rfl rfl
  | sought offset _ hl hn => exact .of_live hl hs.lengthBound hn
  | took n _ hl hr => exact .of_live hl hs.lengthBound hr
  | wrote t n f _ _ hl hr hw _ => rw [hw.rest]; exact .of_live hl hs.lengthBound hr

theorem Leaves.keeps_cellsInv {i : Instr} {s u : State} {status : BitVec 8} (h : Leaves i s u status) (hs : s.CellsInv) :
    u.CellsInv := by
  cases h with
  | failed e => exact hs
  | answered _ => exact hs
  | created n _ _ => exact .of_empty rfl
  | consumed _ => exact .of_empty rfl
  | sought offset _ _ _ => exact ⟨hs.wf, hs.bound⟩
  | took n _ _ _ => exact ⟨hs.wf, hs.bound⟩
  | wrote t n f _ _ _ _ _ hcells => exact hcells hs

theorem State.SpecInv.respond {s : State} (h : s.SpecInv) (status : BitVec 8) (rdata : BitVec 64) (payload : List Byte) :
    (respond s status rdata payload).SpecInv :=
  ⟨h.lengthBound, h.cursorBound, h.noBuffer⟩

theorem State.Inv.respond {s : State} (h : s.Inv) (status : BitVec 8) (rdata : BitVec 64) (payload : List Byte) :
    (respond s status rdata payload).Inv :=
  ⟨h.parameter, h.lengthBound, h.cursorBound, h.noBuffer, h.cellsWf, h.cellsBound, h.waiting⟩

/-- A command in flight still misses payload (30_encoding.md R72; log 4). -/
def State.Waits (s : State) : Prop := ∀ f, s.inFlight = some f → f.taken.length < payloadCount f.word

/-- The whole invariant by its parts: the parameter, R26, the cells, the command in flight. -/
theorem State.inv_iff (s : State) :
    s.Inv ↔ Config.MaxBytesLegal s.maxBytes ∧ s.SpecInv ∧ s.CellsInv ∧ s.Waits := by
  constructor
  · intro h
    exact ⟨h.parameter, ⟨h.lengthBound, h.cursorBound, h.noBuffer⟩, ⟨h.cellsWf, h.cellsBound⟩, h.waiting⟩
  · rintro ⟨hparam, hspec, hcells, hwaits⟩
    exact ⟨hparam, hspec.lengthBound, hspec.cursorBound, hspec.noBuffer, hcells.wf, hcells.bound, hwaits⟩

theorem exec_keeps_specInv {i : Instr} {s t : State} (hs : s.SpecInv) (h : exec i s = .next t) : t.SpecInv := by
  obtain ⟨u, status, rdata, payload, hu, rfl⟩ := leaves_of_exec h
  exact (hu.keeps_specInv hs).respond status rdata payload

theorem exec_keeps_inv {i : Instr} {s t : State} (hs : s.Inv) (h : exec i s = .next t) : t.Inv := by
  obtain ⟨u, status, rdata, payload, hu, rfl⟩ := leaves_of_exec h
  obtain ⟨hparam, hspec, hcells, hwaits⟩ := (State.inv_iff s).1 hs
  have hframe : OnlyBuffer s u := hu.onlyBuffer
  have hparam' : Config.MaxBytesLegal u.maxBytes := by rw [hframe]; exact hparam
  have hwaits' : u.Waits := by rw [hframe]; exact hwaits
  have hinv : u.Inv := (State.inv_iff u).2 ⟨hparam', hu.keeps_specInv hspec, hu.keeps_cellsInv hcells, hwaits'⟩
  exact hinv.respond status rdata payload

/-! ## The invariants and a step -/

/-- The state a step has after it has looked at the channels. -/
def Fetched.state : Fetched → State
  | .quiet s => s
  | .command _ s => s

/-- Whatever holds after a look at the channels, after every command and after an illegal word's answer holds after every
step. -/
theorem step_keeps {P : State → Prop} (hfetch : ∀ s, P s → P (fetch s).state)
    (hexec : ∀ (i : Instr) (s t : State), P s → exec i s = .next t → P t)
    (hillegal : ∀ s, P s → P (respond s ErrorKind.illegalCommand.code 0 [])) {s t : State} (hs : P s)
    (h : step s = .next t) : P t := by
  have hfetched := hfetch s hs
  cases hf : fetch s with
  | quiet u =>
    rw [hf] at hfetched
    rw [step_quiet hf] at h
    cases h
    exact hfetched
  | command c u =>
    rw [hf] at hfetched
    rw [step_command hf] at h
    cases hd : decode c with
    | ok i => exact hexec i u t hfetched (by rwa [runCommand_decoded u hd] at h)
    | error e =>
      have hraise : runCommand c u = raise .illegalCommand u := by simp [runCommand, hd]
      rw [hraise] at h
      cases h
      exact hillegal u hfetched

/-- A look at the channels leaves the Buffer as it is, or is a reset. -/
theorem fetch_buffer (s : State) : SameBuffer s (fetch s).state ∨ (fetch s).state = resetBlock s := by
  rcases fetch_cases s with ⟨t, hf, ⟨-, ht⟩ | ⟨-, rfl⟩ | ⟨-, w, got, r, rfl, rfl | ⟨rest, rfl⟩, -⟩⟩ |
      ⟨c, t, n, hf, -, rfl | ⟨rest, rfl⟩⟩ <;> rw [hf]
  · exact .inr ht
  all_goals exact .inl ⟨rfl, rfl, rfl, rfl, rfl⟩

theorem waits_of_not_inFlight {s : State} (h : s.inFlight = none) : s.Waits := by
  intro f hf
  rw [h] at hf
  cases hf

theorem holdPayload_waits {s : State} {w : Word128} {got : List Byte} (h : s.wp.length < payloadCount w - got.length) :
    (holdPayload s w got).Waits := by
  intro f hf
  cases hf
  simp only [List.length_append]
  omega

/-- A word taken with too little payload offered waits; a command handed on is in flight no more. -/
theorem fetch_waits {s : State} (hs : s.Waits) : (fetch s).state.Waits := by
  rcases fetch_cases s with ⟨t, hf, ⟨-, rfl⟩ | ⟨-, rfl⟩ | ⟨-, w, got, r, rfl, rfl | ⟨rest, rfl⟩, hshort⟩⟩ |
      ⟨c, t, n, hf, -, rfl | ⟨rest, rfl⟩⟩ <;> rw [hf]
  · exact waits_of_not_inFlight rfl
  · exact hs
  · exact holdPayload_waits hshort
  · exact holdPayload_waits (s := takeWord s rest) hshort
  · exact waits_of_not_inFlight rfl
  · exact waits_of_not_inFlight rfl

theorem SameBuffer.specInv {s t : State} (h : SameBuffer s t) (hs : s.SpecInv) : t.SpecInv := by
  obtain ⟨hmax, hlive, hlength, -, hcursor⟩ := h
  obtain ⟨hlen, hcur, hdead⟩ := hs
  rw [hlength, hmax] at hlen
  rw [hcursor, hlength] at hcur
  rw [hlive, hlength, hcursor] at hdead
  exact ⟨hlen, hcur, hdead⟩

theorem SameBuffer.cellsInv {s t : State} (h : SameBuffer s t) (hs : s.CellsInv) : t.CellsInv := by
  obtain ⟨hwf, hbound⟩ := hs
  rw [h.storage] at hwf hbound
  rw [h.length] at hbound
  exact ⟨hwf, hbound⟩

theorem fetch_keeps_maxBytes (s : State) : (fetch s).state.maxBytes = s.maxBytes := by
  rcases fetch_buffer s with h | h
  · exact h.maxBytes.symm
  · rw [h, resetBlock_maxBytes]

theorem fetch_keeps_specInv {s : State} (hs : s.SpecInv) : (fetch s).state.SpecInv := by
  rcases fetch_buffer s with h | h
  · exact h.specInv hs
  · rw [h]
    exact .of_noBuffer rfl rfl

theorem fetch_keeps_cellsInv {s : State} (hs : s.CellsInv) : (fetch s).state.CellsInv := by
  rcases fetch_buffer s with h | h
  · exact h.cellsInv hs
  · rw [h]
    exact .of_empty rfl

theorem fetch_keeps_inv {s : State} (hs : s.Inv) : (fetch s).state.Inv := by
  obtain ⟨hparam, hspec, hcells, hwaits⟩ := (State.inv_iff s).1 hs
  rw [State.inv_iff, fetch_keeps_maxBytes]
  exact ⟨hparam, fetch_keeps_specInv hspec, fetch_keeps_cellsInv hcells, fetch_waits hwaits⟩

/-! ## Reset, and the invariants settled -/

theorem resetOf_specInv (n : Nat) : (State.resetOf n).SpecInv := .of_noBuffer rfl rfl

theorem resetOf_inv {n : Nat} (hn : Config.MaxBytesLegal n) : (State.resetOf n).Inv :=
  (State.inv_iff _).2 ⟨hn, resetOf_specInv n, .of_empty rfl, waits_of_not_inFlight rfl⟩

/-- Settles O1: the four items and the parameter as `State.resetOf` has them. -/
theorem resetLeavesNoBuffer : Obligations.ResetLeavesNoBuffer := fun _ => ⟨rfl, rfl, rfl, rfl, rfl⟩

/-- Settles O2: 65536 is a legal MAX_BYTES. -/
theorem resetMeetsInvariant : Obligations.ResetMeetsInvariant :=
  ⟨resetOf_inv (n := Config.vectorMaxBytes) (by decide), fun _ hn => resetOf_inv hn⟩

/-- Settles O58: R26 holds at reset, and the Buffers a command can leave (`Leaves`) keep it, as does a look at the channels. -/
theorem specInvariantIsKept : Obligations.SpecInvariantIsKept :=
  ⟨resetOf_specInv, fun _ _ _ hs h => exec_keeps_specInv hs h, fun _ _ hs h =>
    step_keeps (P := State.SpecInv) (fun _ => fetch_keeps_specInv) (fun _ _ _ => exec_keeps_specInv)
      (fun _ hu => hu.respond _ _ _) hs h⟩

/-- Settles O9: R26 as for O58; the cells because every write stores through `memWrite`; a command in flight because only a
look at the channels changes it. -/
theorem stepKeepsInvariant : Obligations.StepKeepsInvariant :=
  ⟨fun _ hn => resetOf_inv hn, fun _ _ hs h =>
    step_keeps (P := State.Inv) (fun _ => fetch_keeps_inv) (fun _ _ _ => exec_keeps_inv) (fun _ hu => hu.respond _ _ _) hs h,
    fun _ _ _ hs h => exec_keeps_inv hs h⟩

end Sys2Proof.Machine

/-! PROOFS. The statements of 20_memory.md: the stream law (O39), and commands offered to an idle block as their meanings in
order (O7). -/

namespace Sys2Proof.Machine

/-! ## What a transfer that succeeds does -/

/-- `Moves i s n u rdata payload`: a command of `n` bits (`bitsMoved`) begun in `s` can answer OK with `rdata` and `payload`
and leave `u`. -/
inductive Moves (i : Instr) (s : State) (n : Nat) : State → BitVec 64 → List Byte → Prop where
  /-- A write: its value in a field at the cursor. -/
  | wrote (t : State) (v : Nat) : writtenValue i = some v → v < 2 ^ n → FieldWritten s t n v.testBit → Moves i s n t 0 []
  /-- A scalar read: the field at the cursor, presented as its type says. -/
  | readScalar : writtenValue i = none → i ≠ .rdStr → (∀ len, i ≠ .rdBytes len) →
      Moves i s n (advance s n) (presented i (s.field s.cursor n)) []
  /-- RD_BYTES (45_bytes_string_codecs.md R213). -/
  | readBytes (len : BitVec 32) : i = .rdBytes len → n = 8 * len.toNat →
      Moves i s n (advance s n) 0 (bytesAt s s.cursor len.toNat)
  /-- RD_STR (45_bytes_string_codecs.md R217). -/
  | readText : i = .rdStr →
      Moves i s n (advance s (32 + 8 * s.field s.cursor 32)) 0 (bytesAt s (s.cursor + 32) (s.field s.cursor 32))

/-- A command that answers OK raised nothing. -/
theorem Answers.not_raise {i : Instr} {s u : State} {rdata : BitVec 64} {payload : List Byte} {e : ErrorKind}
    (h : Answers i s u statusOk rdata payload) : exec i s ≠ raise e s := by
  intro he
  obtain ⟨-, hcode, -, -⟩ := answers_unique h (raises_answers.1 he)
  exact errorCode_ne_ok e hcode.symm

theorem advance_onlyBuffer (s : State) (n : Nat) : OnlyBuffer s (advance s n) := rfl

/-- A transfer command that answers OK does what `Moves` says. -/
theorem moves_of_answers {i : Instr} {s u : State} {n : Nat} {rdata : BitVec 64} {payload : List Byte}
    (hn : bitsMoved i = some n) (h : Answers i s u statusOk rdata payload) : Moves i s n u rdata payload := by
  cases exec_cases i s with
  | noBuffer _ _ he => exact absurd he h.not_raise
  | outOfBounds _ _ he => exact absurd he h.not_raise
  | invalidEncoding _ _ _ _ he => exact absurd he h.not_raise
  | constructionError m _ _ he => exact absurd he h.not_raise
  | created m hi _ _ => subst hi; cases hn
  | consumed hi _ _ => subst hi; cases hn
  | sought offset hi _ _ _ => subst hi; cases hn
  | answered d hb _ _ _ _ => cases hb.symm.trans hn
  | wrote t m v hv hm _ _ _ _ hlt hw he =>
    cases hm.symm.trans hn
    obtain ⟨rfl, -, rfl, rfl⟩ := answers_unique h ⟨hw.onlyBuffer, he⟩
    exact .wrote u v hv hlt hw
  | readScalar m hv hm _ _ hstr hbytes _ _ _ he =>
    cases hm.symm.trans hn
    obtain ⟨rfl, -, rfl, rfl⟩ := answers_unique h ⟨advance_onlyBuffer _ _, he⟩
    exact .readScalar hv hstr hbytes
  | readBytes len hi _ _ he =>
    subst hi
    cases hn
    obtain ⟨rfl, -, rfl, rfl⟩ := answers_unique h ⟨advance_onlyBuffer _ _, he⟩
    exact .readBytes len rfl rfl
  | readText hi _ _ _ he =>
    obtain ⟨rfl, -, rfl, rfl⟩ := answers_unique h ⟨advance_onlyBuffer _ _, he⟩
    exact .readText hi

/-! ## The bytes of a field -/

@[simp] theorem bytesAt_length (s : State) (k n : Nat) : (bytesAt s k n).length = n := by simp [bytesAt]

/-- The bytes at bit `k`, least significant first, are the field there (20_memory.md R41). -/
theorem bytesValue_bytesAt (s : State) (k n : Nat) : bytesValue (bytesAt s k n) = s.field k (8 * n) := by
  apply Nat.eq_of_testBit_eq
  intro i
  rw [bytesValue_testBit, field_testBit]
  by_cases hi : i < 8 * n
  · rw [bitOfBytes_bytesAt s k n i hi]
    simp [hi]
  · have hbyte : n ≤ i / 8 := by omega
    simp [bitOfBytes, List.getD_eq_getElem?_getD, hbyte, hi]

/-- A string's field is its count below its bytes (45_bytes_string_codecs.md R214). -/
theorem field_text (s : State) (k n : Nat) :
    s.field k (32 + 8 * n) = s.field k 32 + 2 ^ 32 * bytesValue (bytesAt s (k + 32) n) := by
  rw [field_add, bytesValue_bytesAt]

/-- Settles O39, by the cases of `Moves`; the field of a read of bytes is the value of the bytes found. -/
theorem streamLaw : Obligations.StreamLaw := by
  refine ⟨fun i s u v n rdata payload hv hn h => ?_, fun i s u n rdata payload hv hn h => ?_⟩
  · cases moves_of_answers hn h with
    | wrote _ w hw hlt hfield =>
      cases hw.symm.trans hv
      exact ⟨hfield.value_eq hlt, hfield.cursor_eq⟩
    | readScalar hnone _ _ => cases hnone.symm.trans hv
    | readBytes len hi _ => subst hi; cases hv
    | readText hi => subst hi; cases hv
  · cases moves_of_answers hn h with
    | wrote _ w hw _ _ => cases hw.symm.trans hv
    | readScalar _ hstr hbytes =>
      split
      · exact absurd rfl hstr
      · exact absurd rfl (hbytes _)
      · exact ⟨rfl, rfl, rfl⟩
    | readBytes len hi hlen =>
      subst hi hlen
      exact ⟨rfl, rfl, bytesAt_length _ _ _, (bytesValue_bytesAt _ _ _).symm⟩
    | readText hi =>
      subst hi
      simp only [bytesAt_length, field_text, advance, Nat.add_assoc, and_self]

/-! ## An encoded command and its payload -/

/-- Decoding a command's own word and payload: the opcode map gives it back, and its payload has the length its word asks
for. -/
theorem decode_encode_of_pack {i : Instr} {op nb : BitVec 8} {len : BitVec 32} {arg : BitVec 64}
    (hword : encodeWord i = packWord op nb len arg)
    (hop : decodeOpcode op.toNat (packWord op nb len arg) (payloadOf i) = some i)
    (hlen : (payloadOf i).length = if takesPayload op = true then len.toNat else 0) : decode (encode i) = .ok i := by
  rw [encode, hword, decode_packWord, hop]
  simp [hlen]

/-- A payload that fits is as long as its LEN field says (30_encoding.md R63). -/
theorem payload_length_of_fits {payload : List Byte} (h : PayloadFits payload) :
    payload.length = (BitVec.ofNat 32 payload.length).toNat := by
  rw [BitVec.toNat_ofNat, Nat.mod_eq_of_lt h]

/-- The decoder inverts the encoder, by the shapes of R61: a payload, all of ARG, a bool, a value in the low bits of ARG, a
value and a count, a count, a length, no field. -/
theorem decode_encode {i : Instr} (hi : i.WellFormed) : decode (encode i) = .ok i := by
  cases i with
  | wrBytes payload | wrStr payload => exact decode_encode_of_pack rfl rfl (payload_length_of_fits hi)
  | create a | seek a | canWrBits a | canRdBits a | canWrBytes a | canRdBytes a =>
    exact decode_encode_of_pack rfl (by simp [decodeOpcode]) rfl
  | wrBool b => exact decode_encode_of_pack rfl (by cases b <;> simp [decodeOpcode]) rfl
  | wrU8 v | wrI8 v | wrU16 v | wrI16 v | wrU32 v | wrI32 v | wrU64 v | wrI64 v | wrF32 v | wrF64 v =>
    exact decode_encode_of_pack rfl (by simp [decodeOpcode]) rfl
  | wrBits v b | wrU8Part v b | wrI8Part v b | wrU16Part v b | wrI16Part v b | wrU32Part v b | wrI32Part v b | wrU64Part v b
      | wrI64Part v b =>
    exact decode_encode_of_pack rfl (by simp [decodeOpcode]) rfl
  | rdBits b | rdU8Part b | rdI8Part b | rdU16Part b | rdI16Part b | rdU32Part b | rdI32Part b | rdU64Part b | rdI64Part b =>
    exact decode_encode_of_pack rfl (by simp [decodeOpcode]) rfl
  | rdBytes len => exact decode_encode_of_pack rfl (by simp [decodeOpcode]) rfl
  | _ => exact decode_encode_of_pack rfl rfl rfl

/-- A command has the number of payload bytes its word asks for (30_encoding.md R71). -/
theorem payload_length_of_decode {c : Command} {i : Instr} (h : decode c = .ok i) : c.payload.length = payloadCount c.word := by
  unfold decode at h
  split at h
  · cases h
  · split at h
    · cases h
    · split at h
      · assumption
      · cases h

/-! ## Commands in front of others on the channels -/

@[simp] theorem offer_nil (s : State) : offer s [] = s := by simp [offer]

theorem sameBuffer_offer (s : State) (cs : List Command) : SameBuffer s (offer s cs) := ⟨rfl, rfl, rfl, rfl, rfl⟩

/-- What a command leaves of `s` and what it leaves of `s` with `cs` offered differ in the offer alone, if in the Buffer they
agree. -/
theorem eq_offer_of_sameBuffer {s u v : State} {cs : List Command} (hu : OnlyBuffer s u) (hv : OnlyBuffer (offer s cs) v)
    (h : SameBuffer u v) : v = offer u cs := by
  obtain ⟨-, hlive, hlength, hstorage, hcursor⟩ := h
  rw [hv, hu, ← hlive, ← hlength, ← hstorage, ← hcursor]
  rfl

theorem respond_offer (u : State) (cs : List Command) (status : BitVec 8) (rdata : BitVec 64) (payload : List Byte) :
    respond (offer u cs) status rdata payload = offer (respond u status rdata payload) cs := rfl

theorem Idle.respond_of_onlyBuffer {s u : State} (hs : Idle s) (hu : OnlyBuffer s u) (status : BitVec 8) (rdata : BitVec 64)
    (payload : List Byte) : Idle (respond u status rdata payload) := by
  unfold OnlyBuffer at hu
  rw [hu]
  exact hs

/-- A command leaves an idle block idle, and does the same with other commands offered behind it, which it leaves offered. -/
theorem exec_offer (i : Instr) {s : State} (hs : Idle s) (cs : List Command) :
    ∃ t, exec i s = .next t ∧ Idle t ∧ exec i (offer s cs) = .next (offer t cs) := by
  obtain ⟨u, v, status, rdata, payload, ⟨hu, hexec⟩, ⟨hv, hexec'⟩, huv⟩ :=
    commandsReadOnlyTheBuffer i s (offer s cs) (sameBuffer_offer s cs)
  refine ⟨respond u status rdata payload, hexec, hs.respond_of_onlyBuffer hu status rdata payload, ?_⟩
  rw [hexec', eq_offer_of_sameBuffer hu hv huv, respond_offer]

/-- A step of an idle block that is offered commands runs the first of them, its payload taken with it. -/
theorem step_offer_cons {s : State} {c : Command} {i : Instr} (hs : Idle s) (hd : decode c = .ok i) (cs : List Command) :
    step (offer s (c :: cs)) = exec i (offer s cs) := by
  obtain ⟨hrst, hflight, hcmd, hwp⟩ := hs
  have hlen := payload_length_of_decode hd
  have hoffered : (offer s (c :: cs)).wp = c.payload ++ (cs.map (·.payload)).flatten := by simp [hwp]
  have htake : (offer s (c :: cs)).wp.take (payloadCount c.word) = c.payload := by rw [hoffered, List.take_left' hlen]
  have hdrop : (offer s (c :: cs)).wp.drop (payloadCount c.word) = (offer s cs).wp := by
    rw [hoffered, List.drop_left' hlen]
    simp [hwp]
  have hwords : (offer s (c :: cs)).cmd = c.word :: (offer s cs).cmd := by simp [hcmd]
  rw [stepRunsDecodedCommand.1 (offer s (c :: cs)) c.word (offer s cs).cmd i hrst hflight hwords
    (by rw [hoffered, List.length_append]; omega) (by rw [htake]; exact hd), hdrop]
  rfl

theorem execAll_cons {i : Instr} {s t : State} (h : exec i s = .next t) (rest : List Instr) :
    execAll (i :: rest) s = execAll rest t := by
  simp [execAll, h]

theorem stepMany_succ {n : Nat} {s t : State} (h : step s = .next t) : stepMany (n + 1) s = stepMany n t := by
  simp [stepMany, h]

/-- Settles O7, by induction on the program from any idle state: the first step runs the first command and leaves the block
idle but for the rest of the program on its channels. -/
theorem offeredProgramRunsInOrder : Obligations.OfferedProgramRunsInOrder := by
  intro program
  induction program with
  | nil => exact fun s hs _ => ⟨s, rfl, hs, by simp [stepMany]⟩
  | cons i rest ih =>
    intro s hs hwf
    obtain ⟨hi, hrest⟩ := List.forall_mem_cons.1 hwf
    obtain ⟨t, hexec, ht, hoffer⟩ := exec_offer i hs (rest.map encode)
    have hstep : step (offer s ((i :: rest).map encode)) = .next (offer t (rest.map encode)) :=
      (step_offer_cons hs (decode_encode hi) _).trans hoffer
    obtain ⟨r, hall, hr, hsteps⟩ := ih t ht hrest
    exact ⟨r, (execAll_cons hexec rest).trans hall, hr, (stepMany_succ hstep).trans hsteps⟩

end Sys2Proof.Machine

/-! PROOFS. The statements of 30_encoding.md: the decoder and the encoder (O10 to O13, O16, O17), illegal words (O14), the opcode
map by fields (O15), how a full-width read sits in RDATA (O29, O30), and the fields of a response (O54). -/

namespace Sys2Proof.Machine

/-! ## What the opcode map holds -/

/-- The row of an OP value stands for a command with that OP, and it holds the payload if the OP takes one (30_encoding.md R66,
R71). -/
theorem of_decodeOpcode {op : Nat} {w : Word128} {payload : List Byte} {i : Instr} (h : decodeOpcode op w payload = some i) :
    (opcode i).toNat = op ∧ payloadOf i = if takesPayload (opcode i) = true then payload else [] := by
  unfold decodeOpcode at h
  split at h <;> cases h <;> exact ⟨rfl, rfl⟩

/-- No command has a reserved OP. -/
theorem opcode_not_reserved (i : Instr) : ¬ ReservedOp (opcode i).toNat := by
  cases i <;> simp [opcode]

/-- The opcode map has a row for every OP that is not reserved: what is left between the reserved ranges are the 54 values of
R66. -/
theorem decodeOpcode_of_not_reserved {op : Nat} (hlt : op < 256) (h : ¬ ReservedOp op) (w : Word128) (payload : List Byte) :
    ∃ i, decodeOpcode op w payload = some i := by
  unfold decodeOpcode
  split
  any_goals exact ⟨_, rfl⟩
  exfalso
  simp only [imp_false] at *
  unfold ReservedOp at h
  omega

/-! ## What the decoder answers -/

/-- When the decoder answers a command: RSVD is zero, OP has a row, and the payload has the length R71 asks for. -/
theorem decode_ok_iff {c : Command} {i : Instr} :
    decode c = .ok i ↔ rsvdField c.word = 0 ∧ decodeOpcode (opField c.word).toNat c.word c.payload = some i ∧
      c.payload.length = payloadCount c.word := by
  refine ⟨fun h => ?_, fun ⟨hrsvd, hop, hlen⟩ => by simp [decode, hrsvd, hop, hlen]⟩
  have hlen := payload_length_of_decode h
  by_cases hrsvd : rsvdField c.word = 0
  · cases hop : decodeOpcode (opField c.word).toNat c.word c.payload with
    | none => simp [decode, hrsvd, hop] at h
    | some j => simpa [decode, hrsvd, hop, hlen] using h
  · rw [decode, if_pos hrsvd] at h
    cases h

/-- Settles O12: every shape of R61 decodes to what was encoded. -/
theorem decodeInvertsEncode : Obligations.DecodeInvertsEncode := fun _ hi => decode_encode hi

/-- A packed word without payload decodes to its row's command. -/
theorem decode_row {op nb : BitVec 8} {len : BitVec 32} {arg : BitVec 64} {i : Instr} (hp : takesPayload op = false)
    (hrow : decodeOpcode op.toNat (packWord op nb len arg) [] = some i) : decode ⟨packWord op nb len arg, []⟩ = .ok i := by
  simp [decode_packWord, hrow, hp]

/-- A packed word with LEN payload bytes decodes to its row's command. -/
theorem decode_payloadRow {op nb : BitVec 8} {len : BitVec 32} {arg : BitVec 64} {payload : List Byte} {i : Instr}
    (hp : takesPayload op = true) (hlen : payload.length = len.toNat)
    (hrow : decodeOpcode op.toNat (packWord op nb len arg) payload = some i) :
    decode ⟨packWord op nb len arg, payload⟩ = .ok i := by
  simp [decode_packWord, hrow, hp, hlen]

/-- Settles O11: the 52 rows without payload, where a row's operands are the fields of the packed word, and the two with one. -/
theorem opcodeMapDecodes : Obligations.OpcodeMapDecodes := by
  intro nb len arg
  and_intros
  any_goals exact decode_row rfl (by simp [decodeOpcode])
  · exact fun payload hlen => decode_payloadRow rfl hlen rfl
  · exact fun payload hlen => decode_payloadRow rfl hlen rfl

/-- LEN is 32 bits wide. -/
theorem payloadCount_lt (w : Word128) : payloadCount w < 2 ^ 32 := by
  unfold payloadCount
  split
  · exact (lenField w).isLt
  · decide

/-- An OP without payload is followed by no payload byte (30_encoding.md R71). -/
theorem payloadCount_of_not_takes {w : Word128} (h : takesPayload (opField w) = false) : payloadCount w = 0 := by
  simp [payloadCount, h]

/-- A command's payload is the one thing that can be ill-formed about it. -/
theorem wellFormed_of_payload_fits {i : Instr} (h : PayloadFits (payloadOf i)) : i.WellFormed := by
  cases i with
  | wrBytes payload | wrStr payload => exact h
  | _ => trivial

/-- Settles O13: the row has the word's OP, and its payload is the bytes, of which there are none if the OP takes none. -/
theorem decodedCommandsAreWellFormed : Obligations.DecodedCommandsAreWellFormed := by
  intro c i h
  obtain ⟨hrsvd, hrow, hlen⟩ := decode_ok_iff.1 h
  obtain ⟨hop, hpayload⟩ := of_decodeOpcode hrow
  replace hop : opcode i = opField c.word := BitVec.eq_of_toNat_eq hop
  have hbytes : payloadOf i = c.payload := by
    rw [hpayload, hop]
    cases ht : takesPayload (opField c.word) with
    | true => rfl
    | false => exact (List.length_eq_zero_iff.1 (hlen.trans (payloadCount_of_not_takes ht))).symm
  refine ⟨wellFormed_of_payload_fits ?_, hop, hrsvd, hbytes, hlen⟩
  rw [PayloadFits, hbytes, hlen]
  exact payloadCount_lt c.word

/-! ## Illegal words -/

/-- An illegal command word (30_encoding.md R69). -/
def IllegalWord (w : Word128) : Prop := rsvdField w ≠ 0 ∨ ReservedOp (opField w).toNat

/-- A command's row has the command's OP, which is not reserved. -/
theorem decode_illegal {w : Word128} (h : IllegalWord w) (payload : List Byte) (i : Instr) :
    decode ⟨w, payload⟩ ≠ .ok i := by
  intro hd
  obtain ⟨hrsvd, hrow, -⟩ := decode_ok_iff.1 hd
  rcases h with h | h
  · exact h hrsvd
  · rw [← (of_decodeOpcode hrow).1] at h
    exact opcode_not_reserved i h

/-- Every word that is not illegal is a command's, with its payload. -/
theorem decode_legal {w : Word128} (h : ¬ IllegalWord w) {payload : List Byte} (hlen : payload.length = payloadCount w) :
    ∃ i, decode ⟨w, payload⟩ = .ok i := by
  obtain ⟨hrsvd, hop⟩ := not_or.1 h
  obtain ⟨i, hrow⟩ := decodeOpcode_of_not_reserved (opField w).isLt hop w payload
  exact ⟨i, decode_ok_iff.2 ⟨not_not.1 hrsvd, hrow, hlen⟩⟩

/-- An illegal word has no payload (30_encoding.md R69). -/
theorem payloadCount_illegal {w : Word128} (h : IllegalWord w) : payloadCount w = 0 := by
  rcases h with h | h
  · exact if_neg fun hlegal => h hlegal.1
  · refine payloadCount_of_not_takes (Bool.eq_false_iff.2 fun ht => ?_)
    have hcases : opField w = 0x70#8 ∨ opField w = 0x72#8 := by simpa [takesPayload] using ht
    rcases hcases with hop | hop <;> exact absurd (hop ▸ h) (by decide)

theorem runCommand_undecoded {c : Command} (s : State) (h : ∀ i, decode c ≠ .ok i) :
    runCommand c s = raise .illegalCommand s := by
  unfold runCommand
  split
  · exact absurd ‹_› (h _)
  · rfl

/-- A step on an illegal word takes the word alone off the channels and answers (60_exceptions.md R246). -/
theorem step_illegal {s : State} {w : Word128} {rest : List Word128} (hrst : s.rst = false) (hflight : s.inFlight = none)
    (hcmd : s.cmd = w :: rest) (h : IllegalWord w) :
    step s = .next (respond { s with cmd := rest } ErrorKind.illegalCommand.code 0 []) := by
  have hcount := payloadCount_illegal h
  have htaken : takePayload (takeWord s rest) 0 = { s with cmd := rest } := by simp [takePayload, takeWord, hflight]
  rw [step_command ((fetch_next hrst hflight hcmd).trans (collect_whole (by rw [hcount]; exact Nat.zero_le _))),
    runCommand_undecoded _ (decode_illegal h _), hcount, List.length_nil, htaken, raise_eq]

/-- Settles O14: illegal words are not decoded, a step answers them, other words are commands; the reserved values counted. -/
theorem illegalWordsAnswered : Obligations.IllegalWordsAnswered :=
  ⟨fun _ payload h => decode_illegal h payload,
    fun _ _ _ hrst hflight hcmd h => step_illegal hrst hflight hcmd h,
    fun _ _ hrsvd hop hlen => decode_legal (not_or.2 ⟨not_not.2 hrsvd, hop⟩) hlen,
    rfl⟩

/-! ## The opcode map by fields -/

/-- The OP of an integer command, from its fields (30_encoding.md R70). -/
def integerOpcode (k : IntegerKind) : BitVec 8 :=
  0b010#3 ++ BitVec.ofBool k.read ++ BitVec.ofBool k.part ++ k.widthCode ++ BitVec.ofBool k.signed

/-- The OP of a float command, from its fields: read, 64 bits (30_encoding.md R70). -/
def floatOpcode (k : Bool × Bool) : BitVec 8 := 0b011000#6 ++ BitVec.ofBool k.1 ++ BitVec.ofBool k.2

/-- An integer command's kind names its OP, and the bits it moves or the bound of its count. -/
theorem integerKind_names {i : Instr} {k : IntegerKind} (h : integerKind i = some k) :
    opcode i = integerOpcode k ∧
    (k.part = false → bitsMoved i = some (8 <<< k.widthCode.toNat)) ∧
    (k.part = true → ∃ b, countOperand i = some (b, 8 <<< k.widthCode.toNat)) := by
  cases i with
  | wrU8 | wrI8 | wrU16 | wrI16 | wrU32 | wrI32 | wrU64 | wrI64 | rdU8 | rdI8 | rdU16 | rdI16 | rdU32 | rdI32 | rdU64 | rdI64 =>
    cases h
    exact ⟨rfl, fun _ => rfl, nofun⟩
  | wrU8Part | wrI8Part | wrU16Part | wrI16Part | wrU32Part | wrI32Part | wrU64Part | wrI64Part | rdU8Part | rdI8Part
      | rdU16Part | rdI16Part | rdU32Part | rdI32Part | rdU64Part | rdI64Part =>
    cases h
    exact ⟨rfl, nofun, fun _ => ⟨_, rfl⟩⟩
  | _ => cases h

theorem floatKind_names {i : Instr} {k : Bool × Bool} (h : floatKind i = some k) :
    opcode i = floatOpcode k ∧ bitsMoved i = some (if k.2 then 64 else 32) := by
  cases i with
  | wrF32 | wrF64 | rdF32 | rdF64 =>
    cases h
    exact ⟨rfl, rfl⟩
  | _ => cases h

theorem widthCode_cases : ∀ width : BitVec 2, width = 0 ∨ width = 1 ∨ width = 2 ∨ width = 3 := by decide

/-- The row of the OP built from the fields of any integer kind is a command of that kind. -/
theorem decodeOpcode_integerOpcode (read part signed : Bool) (width : BitVec 2) :
    ∃ i, decodeOpcode (integerOpcode ⟨read, part, width, signed⟩).toNat 0 [] = some i ∧
      integerKind i = some ⟨read, part, width, signed⟩ := by
  rcases widthCode_cases width with rfl | rfl | rfl | rfl <;> cases read <;> cases part <;> cases signed <;>
    exact ⟨_, rfl, rfl⟩

theorem decodeOpcode_floatOpcode (read wide : Bool) :
    ∃ i, decodeOpcode (floatOpcode (read, wide)).toNat 0 [] = some i ∧ floatKind i = some (read, wide) := by
  cases read <;> cases wide <;> exact ⟨_, rfl, rfl⟩

/-- Settles O15: what a kind names, and a row of the opcode map for every kind. -/
theorem opcodesAreBuiltFromFields : Obligations.OpcodesAreBuiltFromFields :=
  ⟨fun _ _ => integerKind_names,
    fun read part signed width => (decodeOpcode_integerOpcode read part signed width).imp fun _ h => h.2,
    fun _ _ => floatKind_names,
    fun read wide => (decodeOpcode_floatOpcode read wide).imp fun _ h => h.2⟩

/-! ## How a full-width read sits in RDATA -/

/-- A scalar read with a legal count answers its field, presented as its type says: on a live Buffer with room no other case of
`exec_cases` is left. -/
theorem readsField_of_scalar (i : Instr) {n : Nat} (hn : bitsMoved i = some n) (hc : CountLegal i) (hv : writtenValue i = none)
    (hstr : i ≠ .rdStr) (hbytes : ∀ len, i ≠ .rdBytes len) (s : State) :
    ReadsField i n (presented i (s.field s.cursor n)) s := by
  intro hlive hroom
  cases exec_cases i s with
  | readScalar m _ hm _ _ _ _ _ _ _ he =>
    cases hm.symm.trans hn
    exact he
  | noBuffer hdead _ _ => cases hdead.symm.trans hlive
  | outOfBounds _ hb _ =>
    rcases (outOfBounds_transfer hstr (by rintro m rfl; cases hn)).1 hb with ⟨c, hcount, hillegal⟩ | ⟨m, hm, hfull⟩
    · have hlegal := hc c hcount
      omega
    · cases hm.symm.trans hn
      omega
  | invalidEncoding hi _ _ _ _ => exact absurd hi hstr
  | readText hi _ _ _ _ => exact absurd hi hstr
  | readBytes len hi _ _ _ => exact absurd hi (hbytes len)
  | wrote t m v hw _ _ _ _ _ _ _ _ => cases hw.symm.trans hv
  | answered rdata hb _ _ _ _ => cases hb.symm.trans hn
  | constructionError m hi _ _ => subst hi; cases hn
  | created m hi _ _ => subst hi; cases hn
  | consumed hi _ _ => subst hi; cases hn
  | sought offset hi _ _ _ => subst hi; cases hn

/-- Settles O29: four scalar reads that are presented unsigned. -/
theorem fullWidthUnsignedReads : Obligations.FullWidthUnsignedReads := fun s =>
  ⟨readsField_of_scalar .rdU8 rfl nofun rfl nofun nofun s, readsField_of_scalar .rdU16 rfl nofun rfl nofun nofun s,
    readsField_of_scalar .rdU32 rfl nofun rfl nofun nofun s, readsField_of_scalar .rdU64 rfl nofun rfl nofun nofun s⟩

/-- Settles O30: four scalar reads that are presented as signed at their width. -/
theorem fullWidthSignedReads : Obligations.FullWidthSignedReads := fun s =>
  ⟨readsField_of_scalar .rdI8 rfl nofun rfl nofun nofun s, readsField_of_scalar .rdI16 rfl nofun rfl nofun nofun s,
    readsField_of_scalar .rdI32 rfl nofun rfl nofun nofun s, readsField_of_scalar .rdI64 rfl nofun rfl nofun nofun s⟩

/-! ## The fields of a response -/

@[simp] theorem statusOf_responseWord (status : BitVec 8) (rlen : BitVec 32) (rdata : BitVec 64) :
    statusOf (responseWord status rlen rdata) = status := by
  apply BitVec.eq_of_getLsbD_eq
  intro i hi
  simp [statusOf, responseWord_getLsbD, hi]

/-- RSVD of a response word (30_encoding.md R64). -/
@[simp] theorem reserved_responseWord (status : BitVec 8) (rlen : BitVec 32) (rdata : BitVec 64) :
    (responseWord status rlen rdata).extractLsb' 8 24 = 0#24 := by
  apply BitVec.eq_of_getLsbD_eq
  intro i hi
  simp [responseWord_getLsbD, show 8 + i < 32 by omega]

/-- RLEN of a response word (30_encoding.md R64). -/
@[simp] theorem rlen_responseWord (status : BitVec 8) (rlen : BitVec 32) (rdata : BitVec 64) :
    (responseWord status rlen rdata).extractLsb' 32 32 = rlen := by
  apply BitVec.eq_of_getLsbD_eq
  intro i hi
  simp [responseWord_getLsbD, hi, show ¬ 32 + i < 8 by omega, show 32 + i < 64 by omega]

@[simp] theorem rdataOf_responseWord (status : BitVec 8) (rlen : BitVec 32) (rdata : BitVec 64) :
    rdataOf (responseWord status rlen rdata) = rdata := by
  apply BitVec.eq_of_getLsbD_eq
  intro i hi
  simp [rdataOf, responseWord_getLsbD, hi, show ¬ 64 + i < 8 by omega, show ¬ 64 + i < 32 by omega]

/-- The commands whose response can have a payload (30_encoding.md R65). -/
def ReturnsPayload (i : Instr) : Prop := i = .intoBytes ∨ i = .rdStr ∨ ∃ n, i = .rdBytes n

theorem Answers.payload_eq {i : Instr} {s u v : State} {status status' : BitVec 8} {rdata rdata' : BitVec 64}
    {payload payload' : List Byte} (h : Answers i s u status rdata payload)
    (he : exec i s = .next (respond v status' rdata' payload')) (hv : OnlyBuffer s v) : payload = payload' :=
  (answers_unique h ⟨hv, he⟩).2.2.2

/-- A payload comes from one of those commands only, and is no longer than the Buffer. -/
theorem payload_of_answers {i : Instr} {s u : State} {status : BitVec 8} {rdata : BitVec 64} {payload : List Byte}
    (h : Answers i s u status rdata payload) : payload = [] ∨ ReturnsPayload i ∧ payload.length ≤ s.length := by
  cases exec_cases i s with
  | consumed hi _ he =>
    rw [h.payload_eq he rfl]
    exact .inr ⟨.inl hi, by simp⟩
  | readBytes len hi _ hroom he =>
    rw [h.payload_eq he rfl, bytesAt_length]
    exact .inr ⟨.inr (.inr ⟨len, hi⟩), by omega⟩
  | readText hi _ hroom _ he =>
    rw [h.payload_eq he rfl, bytesAt_length]
    exact .inr ⟨.inr (.inl hi), by omega⟩
  | wrote _ _ _ _ _ _ _ _ _ _ hw he => exact .inl (h.payload_eq he hw.onlyBuffer)
  | noBuffer _ _ he | outOfBounds _ _ he | invalidEncoding _ _ _ _ he | constructionError _ _ _ he | created _ _ _ he
      | sought _ _ _ _ he | answered _ _ _ _ _ he | readScalar _ _ _ _ _ _ _ _ _ _ he => exact .inl (h.payload_eq he rfl)

/-- RLEN counts every payload the invariant allows. -/
theorem rlen_toNat {s : State} (hs : s.Inv) {payload : List Byte} (h : payload.length ≤ s.length) :
    (BitVec.ofNat 32 payload.length).toNat = payload.length := by
  have hparameter := hs.parameter.2
  have hlength := hs.lengthBound
  exact (payload_length_of_fits (by unfold PayloadFits; omega)).symm

/-- Settles O54: the response is the one of the command's answer, its fields those of `responseWord`. -/
theorem responseWordFields : Obligations.ResponseWordFields := by
  refine ⟨fun i s t hs he => ?_, fun status rlen rdata => by simp⟩
  obtain ⟨u, status, rdata, payload, ha, -, herror⟩ := errorsChangeNothing i s
  have hpayload := payload_of_answers ha
  obtain ⟨hu, hexec⟩ := ha
  obtain rfl := Host.Outcome.next.inj (he.symm.trans hexec)
  have hrsp : u.rsp = s.rsp := by rw [hu]
  have hrp : u.rp = s.rp := by rw [hu]
  refine ⟨_, payload, by rw [respond_rsp, hrsp], by rw [respond_rp, hrp], reserved_responseWord .., ?_,
    fun hne => ?_, fun hne => ?_⟩
  · rw [rlen_responseWord]
    rcases hpayload with rfl | ⟨-, hle⟩
    · rfl
    · exact rlen_toNat hs hle
  · rw [statusOf_responseWord] at hne
    obtain ⟨-, rfl, rfl⟩ := herror hne
    exact ⟨rfl, rdataOf_responseWord .., rlen_responseWord ..⟩
  · exact (hpayload.resolve_left hne).1

/-! ## Words and lines written out -/

/-- Settles O10: closed words, each decoded by evaluation. -/
theorem sampleWordsDecode : Obligations.SampleWordsDecode := by
  unfold Obligations.SampleWordsDecode
  decide

/-- A write that succeeds answers no data (30_encoding.md R61, R64). -/
theorem Answers.no_data_of_write {i : Instr} {s u : State} {n v : Nat} {rdata : BitVec 64} {payload : List Byte}
    (hn : bitsMoved i = some n) (hv : writtenValue i = some v) (h : Answers i s u statusOk rdata payload) :
    rdata = 0 ∧ payload = [] := by
  cases moves_of_answers hn h with
  | wrote _ _ _ _ _ => exact ⟨rfl, rfl⟩
  | readScalar hnone _ _ => cases hnone.symm.trans hv
  | readBytes len hi _ => subst hi; cases hv
  | readText hi => subst hi; cases hv

/-- Settles O16: its word and its line by evaluation, its response because it is a write. -/
theorem workedEncodingExample : Obligations.WorkedEncodingExample := by
  refine ⟨rfl, rfl, rfl, rfl, by decide, by decide, fun s u rdata payload h => ?_⟩
  obtain ⟨rfl, rfl⟩ := h.no_data_of_write rfl rfl
  rfl

/-- Every OP that is not reserved is a command's. -/
theorem exists_opcode {op : BitVec 8} (h : ¬ ReservedOp op.toNat) : ∃ i, opcode i = op := by
  obtain ⟨i, hrow⟩ := decodeOpcode_of_not_reserved op.isLt h 0 []
  exact ⟨i, BitVec.eq_of_toNat_eq (of_decodeOpcode hrow).1⟩

theorem mnemonics_not_reserved : ∀ row ∈ mnemonics, ¬ ReservedOp row.2.1.toNat := by decide

/-- Settles O17. -/
theorem rewindIsSeekZero : Obligations.RewindIsSeekZero :=
  ⟨by decide, by decide, fun row hrow => exists_opcode (mnemonics_not_reserved row hrow)⟩

end Sys2Proof.Machine

/-! PROOFS. The statements of 40_buffer_cursor.md: CREATE (O18), INTO_BYTES (O19), the accessors (O20) and SEEK (O21). -/

namespace Sys2Proof.Machine

/-! ## Making and consuming a Buffer -/

/-- A Buffer just made holds zeros only (10_state.md R23). -/
@[simp] theorem makeBuffer_bit (s : State) (n g : Nat) : (makeBuffer s n).bit g = false := by
  simp [State.bit]

theorem makeBuffer_onlyBuffer (s : State) (n : Nat) : OnlyBuffer s (makeBuffer s n) := rfl

theorem exec_create_legal {n : BitVec 64} {s : State} (h : n.toNat ≤ s.maxBytes) :
    exec (.create n) s = .next (respond (makeBuffer s n.toNat) statusOk 0 []) :=
  if_neg (Nat.not_lt.2 h)

theorem create_raises_constructionError {n : BitVec 64} {s : State} (h : n.toNat > s.maxBytes) :
    Raises (.create n) .constructionError s :=
  if_pos h

/-- Settles O18: the Buffer left is `makeBuffer`'s, which lists no cell, so that every byte of it reads zero. -/
theorem createMakesZeroedBuffer : Obligations.CreateMakesZeroedBuffer := fun n s =>
  ⟨fun hlegal => ⟨makeBuffer s n.toNat, ⟨makeBuffer_onlyBuffer s n.toNat, exec_create_legal hlegal⟩, rfl, rfl, rfl,
      read_nil, makeBuffer_bit s n.toNat⟩,
    create_raises_constructionError⟩

/-- The whole storage lies inside the Buffer, so that no read of it faults. -/
theorem storageBytes_whole (s : State) :
    storageBytes s s.length 0 = .ok ((List.range s.length).map (Memory.read s.storage)) := by
  rw [storageBytes_ok s s.length 0 (by omega), ← List.range_eq_range']

/-- Settles O19: the bytes are those of `storageBytes_whole`, the state left is `dropBuffer`'s. -/
theorem intoBytesReturnsStorage : Obligations.IntoBytesReturnsStorage := by
  intro s hlive
  have hexec : exec .intoBytes s = andThen (storageBytes s s.length 0) fun bytes => finish (dropBuffer s) 0 bytes :=
    needBuffer_live hlive
  rw [hexec, storageBytes_whole, andThen_ok]
  rfl

/-! ## The position -/

/-- MAX_BYTES is below 2^32, so that every bit offset of a Buffer fits RDATA (00_scope.md R9). -/
theorem State.Inv.capBits_lt {s : State} (hs : s.Inv) : 8 * s.length < 2 ^ 64 := by
  have hparameter := hs.parameter.2
  have hlength := hs.lengthBound
  omega

theorem State.Inv.cursor_lt {s : State} (hs : s.Inv) : s.cursor < 2 ^ 64 :=
  Nat.lt_of_le_of_lt hs.cursorBound hs.capBits_lt

/-- A command that only answers a number answers it exactly when it fits RDATA. -/
theorem answers_number {i : Instr} {s : State} {m : Nat} (he : exec i s = needBuffer s (finish s (BitVec.ofNat 64 m) []))
    (hlive : s.live = true) (hm : m < 2 ^ 64) :
    ∃ r : BitVec 64, exec i s = .next (respond s statusOk r []) ∧ r.toNat = m :=
  ⟨BitVec.ofNat 64 m, he.trans (needBuffer_live hlive), by rw [BitVec.toNat_ofNat, Nat.mod_eq_of_lt hm]⟩

/-- Settles O20: the invariant keeps the three numbers inside RDATA. -/
theorem accessorsAnswerPosition : Obligations.AccessorsAnswerPosition := fun s hs hlive =>
  ⟨answers_number rfl hlive hs.cursor_lt,
    answers_number rfl hlive (Nat.lt_of_le_of_lt (Nat.div_le_self s.cursor 8) hs.cursor_lt),
    answers_number rfl hlive hs.capBits_lt⟩

/-! ## SEEK -/

theorem exec_seek_within {offset : BitVec 64} {s : State} (hlive : s.live = true) (h : offset.toNat ≤ 8 * s.length) :
    exec (.seek offset) s = .next (respond (moveCursor s offset.toNat) statusOk 0 []) :=
  (needBuffer_live hlive).trans (if_neg (Nat.not_lt.2 h))

theorem seek_raises_outOfBounds {offset : BitVec 64} {s : State} (hlive : s.live = true) (h : 8 * s.length < offset.toNat) :
    Raises (.seek offset) .outOfBounds s :=
  (needBuffer_live hlive).trans (if_pos h)

/-- Settles O21: the offset on either side of the capacity. -/
theorem seekSetsCursor : Obligations.SeekSetsCursor := fun _ _ hlive =>
  ⟨exec_seek_within hlive, seek_raises_outOfBounds hlive⟩

end Sys2Proof.Machine

/-! PROOFS. The statements of 41_bit_engine.md: WR_BITS and RD_BITS (O24, O25), two writes in a row (O40), and writes front to
back (O41). `Appended` says what a write leaves of the stream; it is closed under one write after another. -/

namespace Sys2Proof.Machine

/-! ## A transfer that cannot fail -/

/-- A transfer with a legal count and room for its bits passes its checks; RD_STR has a second bound. -/
theorem not_outOfBounds_of_room {i : Instr} {s : State} {n : Nat} (hn : bitsMoved i = some n) (hc : CountLegal i)
    (hstr : i ≠ .rdStr) (hroom : s.cursor + n ≤ 8 * s.length) : ¬ OutOfBoundsCondition i s := by
  have hseek : ∀ m, i ≠ .seek m := by rintro m rfl; cases hn
  rw [outOfBounds_transfer hstr hseek]
  rintro (⟨c, hcount, hillegal⟩ | ⟨m, hm, hfull⟩)
  · have hlegal := hc c hcount
    omega
  · cases hm.symm.trans hn
    omega

theorem countLegal_of_le {i : Instr} {b W : Nat} (h : countOperand i = some (b, W)) (h1 : 1 ≤ b) (hW : b ≤ W) :
    CountLegal i := by
  intro c hc
  cases h.symm.trans hc
  exact ⟨h1, hW⟩

theorem WritesField.congr {i : Instr} {n : Nat} {f f' : Nat → Bool} {s : State} (h : WritesField i n f s)
    (e : ∀ j, j < n → f j = f' j) : WritesField i n f' s := by
  intro hlive hroom
  obtain ⟨t, hw, he⟩ := h hlive hroom
  exact ⟨t, hw.congr e, he⟩

/-- A write with a legal count leaves its value in its field: on a live Buffer with room no other case of `exec_cases` is
left. -/
theorem writesField_of_write {i : Instr} {n v : Nat} (hv : writtenValue i = some v) (hn : bitsMoved i = some n)
    (hc : CountLegal i) (s : State) : WritesField i n v.testBit s := by
  intro hlive hroom
  cases exec_cases i s with
  | wrote t m w hw hm _ _ _ _ _ hfield he =>
    cases hm.symm.trans hn
    cases hw.symm.trans hv
    exact ⟨t, hfield, he⟩
  | noBuffer hdead _ _ => cases hdead.symm.trans hlive
  | outOfBounds _ hb _ => exact absurd hb (not_outOfBounds_of_room hn hc (by rintro rfl; cases hv) hroom)
  | answered rdata hb _ _ _ _ => cases hb.symm.trans hn
  | readScalar m hnone _ _ _ _ _ _ _ _ _ => cases hnone.symm.trans hv
  | invalidEncoding hi _ _ _ _ | readText hi _ _ _ _ | readBytes len hi _ _ _ | constructionError m hi _ _
      | created m hi _ _ | consumed hi _ _ | sought offset hi _ _ _ => subst hi; cases hv

/-! ## WR_BITS and RD_BITS -/

/-- Settles O24: the value is the byte's low bits, which are the byte's own bits inside the field. -/
theorem wrBitsWritesField : Obligations.WrBitsWritesField := fun v c s h1 h8 =>
  (writesField_of_write (i := .wrBits v c) rfl rfl (countLegal_of_le rfl h1 h8) s).congr fun j hj =>
    (testBit_part v c.toNat j hj).symm

/-- Settles O25: a scalar read that is presented unsigned. -/
theorem rdBitsReadsField : Obligations.RdBitsReadsField := fun c s h1 h8 =>
  readsField_of_scalar (.rdBits c) rfl (countLegal_of_le rfl h1 h8) rfl nofun nofun s

/-! ## A command after a response -/

theorem OnlyBuffer.trans {s t u : State} (h : OnlyBuffer s t) (h' : OnlyBuffer t u) : OnlyBuffer s u := by
  unfold OnlyBuffer at h h'
  rw [h', h]
  rfl

theorem sameBuffer_respond (s : State) (status : BitVec 8) (rdata : BitVec 64) (payload : List Byte) :
    SameBuffer s (respond s status rdata payload) := ⟨rfl, rfl, rfl, rfl, rfl⟩

theorem eq_withBuffer {c u v : State} (hv : OnlyBuffer c v) (h : SameBuffer u v) : v = withBuffer c u := by
  obtain ⟨-, hlive, hlength, hstorage, hcursor⟩ := h
  rw [hv, ← hlive, ← hlength, ← hstorage, ← hcursor]
  rfl

theorem withBuffer_respond {s u : State} (hu : OnlyBuffer s u) (status : BitVec 8) (rdata : BitVec 64) (payload : List Byte) :
    withBuffer (respond s status rdata payload) u = respond u status rdata payload := by
  rw [hu]
  rfl

/-- A response sent before a command changes neither its answer nor its effect (00_scope.md R7). -/
theorem Answers.after_respond {i : Instr} {s u : State} {status : BitVec 8} {rdata : BitVec 64} {payload : List Byte}
    (h : Answers i s u status rdata payload) (status' : BitVec 8) (rdata' : BitVec 64) (payload' : List Byte) :
    exec i (respond s status' rdata' payload') = .next (respond (respond u status' rdata' payload') status rdata payload) := by
  obtain ⟨_, v, _, _, _, hs, ⟨hv, he⟩, huv⟩ :=
    commandsReadOnlyTheBuffer i s (respond s status' rdata' payload') (sameBuffer_respond s status' rdata' payload')
  obtain ⟨rfl, rfl, rfl, rfl⟩ := answers_unique h hs
  rw [he, eq_withBuffer hv huv, withBuffer_respond h.1]

/-! ## Fields laid down one after the other -/

/-- Every stream bit at or above the cursor is 0, as CREATE leaves them (41_bit_engine.md R121). -/
def State.ZeroAhead (s : State) : Prop := ∀ g, s.cursor ≤ g → g < 8 * s.length → s.bit g = false

/-- `u` is `s` with `n` bits of value `v` laid down at the cursor: the cursor stands after them, the bits below are unchanged,
and if there were zeros from the cursor on, there are zeros from the new cursor on. -/
structure Appended (s u : State) (n v : Nat) : Prop where
  live : u.live = s.live
  length : u.length = s.length
  cursor : u.cursor = s.cursor + n
  field : u.field s.cursor n = v
  below : ∀ g, g < s.cursor → u.bit g = s.bit g
  zeros : s.ZeroAhead → u.ZeroAhead

theorem field_eq_zero {s : State} {k n : Nat} (h : ∀ g, k ≤ g → g < k + n → s.bit g = false) : s.field k n = 0 := by
  apply Nat.eq_of_testBit_eq
  intro i
  rw [field_testBit, Nat.zero_testBit]
  by_cases hi : i < n
  · rw [h (k + i) (by omega) (by omega), Bool.and_false]
  · simp [hi]

@[simp] theorem respond_field (s : State) (status : BitVec 8) (rdata : BitVec 64) (payload : List Byte) (k n : Nat) :
    (respond s status rdata payload).field k n = s.field k n :=
  field_congr fun _ _ => rfl

/-- The bits above a field in its last byte are cleared or left alone (R149), those of later bytes left alone: zeros stay. -/
theorem FieldWritten.zeroAhead {s t : State} {n : Nat} {f : Nat → Bool} (h : FieldWritten s t n f) (hs : s.ZeroAhead) :
    t.ZeroAhead := by
  intro g hg hlen
  rw [h.cursor_eq] at hg
  rw [h.length_eq] at hlen
  have hzero : s.bit g = false := hs g (by omega) hlen
  by_cases hbyte : g < 8 * ((s.cursor + n + 7) / 8)
  · rw [h.above g hg hbyte, hzero, ite_self]
  · rw [h.beyond (by omega), hzero]

theorem Appended.refl (s : State) : Appended s s 0 0 where
  live := rfl
  length := rfl
  cursor := rfl
  field := rfl
  below _ _ := rfl
  zeros := id

theorem Appended.respond {s u : State} {n v : Nat} (h : Appended s u n v) (status : BitVec 8) (rdata : BitVec 64)
    (payload : List Byte) : Appended s (respond u status rdata payload) n v :=
  ⟨h.live, h.length, h.cursor, (respond_field ..).trans h.field, h.below, h.zeros⟩

/-- A field that ends at or below the cursor keeps its value. -/
theorem Appended.field_below {s u : State} {m w k n : Nat} (h : Appended s u m w) (hk : k + n ≤ s.cursor) :
    u.field k n = s.field k n :=
  field_congr fun i hi => h.below (k + i) (by omega)

/-- Two fields laid down one after the other are one field, the first one lowest. -/
theorem Appended.trans {s t u : State} {n v m w : Nat} (h : Appended s t n v) (h' : Appended t u m w) :
    Appended s u (n + m) (v + 2 ^ n * w) where
  live := h'.live.trans h.live
  length := h'.length.trans h.length
  cursor := by rw [h'.cursor, h.cursor, Nat.add_assoc]
  field := by rw [field_add, h'.field_below h.cursor.ge, h.field, ← h.cursor, h'.field]
  below g hg := by rw [h'.below g (by rw [h.cursor]; omega), h.below g hg]
  zeros hs := h'.zeros (h.zeros hs)

/-- Zeros from the end of the field to the end of storage add nothing to its value. -/
theorem Appended.field_to_end {s u : State} {n v : Nat} (h : Appended s u n v) (hs : s.ZeroAhead)
    (hroom : s.cursor + n ≤ 8 * s.length) : u.field s.cursor (8 * s.length - s.cursor) = v := by
  have htail : u.field (s.cursor + n) (8 * s.length - s.cursor - n) = 0 :=
    field_eq_zero fun g hg hend => h.zeros hs g (by rw [h.cursor]; exact hg) (by rw [h.length]; omega)
  rw [show 8 * s.length - s.cursor = n + (8 * s.length - s.cursor - n) by omega, field_add, h.field, htail, Nat.mul_zero,
    Nat.add_zero]

/-- A write with a legal count and room lays down its value; that its field holds it is the stream law. -/
theorem write_appends {i : Instr} {n v : Nat} {s : State} (hv : writtenValue i = some v) (hn : bitsMoved i = some n)
    (hc : CountLegal i) (hlive : s.live = true) (hroom : s.cursor + n ≤ 8 * s.length) :
    ∃ t, Answers i s t statusOk 0 [] ∧ Appended s t n v := by
  obtain ⟨t, hw, he⟩ := writesField_of_write hv hn hc s hlive hroom
  have ha : Answers i s t statusOk 0 [] := ⟨hw.onlyBuffer, he⟩
  obtain ⟨hfield, hcursor⟩ := streamLaw.1 i s t v n 0 [] hv hn ha
  exact ⟨t, ha, by rw [hw.rest], hw.length_eq, hcursor, hfield, hw.below, hw.zeroAhead⟩

/-- Settles O40: the second write is appended to the state the first one leaves, and so keeps all below. -/
theorem adjacentFieldsKeepBothValues : Obligations.AdjacentFieldsKeepBothValues := by
  intro i j s v w n m hv hn hi hw hm hj hlive hroom
  obtain ⟨t, hanswer, hfirst⟩ := write_appends hv hn hi hlive (by omega)
  obtain ⟨u, hanswer', hsecond⟩ := write_appends (s := t) hw hm hj (hfirst.live.trans hlive)
    (by rw [hfirst.cursor, hfirst.length]; exact hroom)
  have hboth := hfirst.trans hsecond
  refine ⟨u, hanswer.1.trans hanswer'.1, ?_, ?_, ?_, ?_, hboth.below⟩
  · rw [execAll_cons hanswer.2, execAll_cons (hanswer'.after_respond statusOk 0 [])]
    rfl
  · rw [hsecond.field_below hfirst.cursor.ge, hfirst.field]
  · rw [← hfirst.cursor, hsecond.field]
  · rw [hboth.cursor, Nat.add_assoc]

/-! ## Writing front to back -/

/-- The stream of a program is its first command's field below the stream of the others. -/
theorem streamOf_cons {i : Instr} {rest : List Instr} {n v : Nat} (h : streamOf (i :: rest) = some (n, v)) :
    ∃ n₁ v₁ m w, bitsMoved i = some n₁ ∧ writtenValue i = some v₁ ∧ streamOf rest = some (m, w) ∧ n = n₁ + m ∧
      v = v₁ + 2 ^ n₁ * w := by
  simp only [streamOf] at h
  split at h
  · cases h
    exact ⟨_, _, _, _, ‹_›, ‹_›, ‹_›, rfl, rfl⟩
  · cases h

/-- Write commands with legal counts lay down their stream, whatever stands ahead of the cursor. -/
theorem execAll_appends (program : List Instr) (s : State) (n v : Nat) (hstream : streamOf program = some (n, v))
    (hlegal : ∀ i ∈ program, CountLegal i) (hlive : s.live = true) (hroom : s.cursor + n ≤ 8 * s.length) :
    ∃ u, execAll program s = .next u ∧ Appended s u n v := by
  induction program generalizing s n v with
  | nil =>
    cases hstream
    exact ⟨s, rfl, .refl s⟩
  | cons i rest ih =>
    obtain ⟨n₁, v₁, m, w, hn, hv, hrest, rfl, rfl⟩ := streamOf_cons hstream
    obtain ⟨hi, hlegalRest⟩ := List.forall_mem_cons.1 hlegal
    obtain ⟨t, ⟨-, hexec⟩, happ⟩ := write_appends hv hn hi hlive (by omega)
    have hfirst := happ.respond statusOk 0 []
    obtain ⟨u, hall, hothers⟩ := ih (respond t statusOk 0 []) m w hrest hlegalRest (hfirst.live.trans hlive)
      (by rw [hfirst.cursor, hfirst.length, Nat.add_assoc]; exact hroom)
    exact ⟨u, (execAll_cons hexec rest).trans hall, hfirst.trans hothers⟩

/-- Settles O41: the program lays down its stream, by induction on the program, and every write keeps the zeros ahead. -/
theorem frontToBackIsConcatenation : Obligations.FrontToBackIsConcatenation := by
  intro program s n v hstream hlegal hlive hroom hzeros
  obtain ⟨u, hall, happ⟩ := execAll_appends program s n v hstream hlegal hlive hroom
  refine ⟨u, hall, happ.cursor, happ.length, happ.field_to_end hzeros hroom, happ.below, fun g hg hend => ?_⟩
  exact happ.zeros hzeros g (by rw [happ.cursor]; exact hg) (by rw [happ.length]; exact hend)

end Sys2Proof.Machine

/-! PROOFS. The statement of 42_bool_codec.md: a bool is one bit, 1 for true (O26). -/

namespace Sys2Proof.Machine

/-- A field of one bit is that bit, as 0 or 1. -/
theorem field_one (s : State) (k : Nat) : s.field k 1 = if s.bit k then 1 else 0 := by
  simp [State.field]

/-- WR_BOOL writes a value of one bit, whose bit 0 is the bool (42_bool_codec.md R131). -/
theorem wrBool_writesField (v : Bool) (s : State) : WritesField (.wrBool v) 1 (fun _ => v) s := by
  have hbits : ∀ j, j < 1 → v.toNat.testBit j = v := by
    intro j hj
    obtain rfl : j = 0 := by omega
    cases v <;> rfl
  exact (writesField_of_write (i := .wrBool v) rfl rfl nofun s).congr hbits

/-- RD_BOOL is a scalar read of one bit that is presented unsigned (42_bool_codec.md R132). -/
theorem rdBool_readsField (s : State) : ReadsField .rdBool 1 (if s.bit s.cursor then 1 else 0) s := by
  have hrdata : presented .rdBool (s.field s.cursor 1) = if s.bit s.cursor then 1 else 0 := by
    rw [field_one]
    cases s.bit s.cursor <;> rfl
  rw [← hrdata]
  exact readsField_of_scalar .rdBool rfl nofun rfl nofun nofun s

/-- Settles O26: WR_BOOL as a write of one bit, RD_BOOL as a scalar read of one. -/
theorem boolIsOneBit : Obligations.BoolIsOneBit := ⟨wrBool_writesField, rdBool_readsField⟩

end Sys2Proof.Machine

/-! PROOFS. The statements of 43_integer_codecs.md: the integer writes (O27, O28), the part-width reads (O31, O32), write, seek
back and read (O42), and commands with one effect (O46). -/

namespace Sys2Proof.Machine

/-! ## Integer writes -/

/-- A write of all `n` bits of a pattern leaves the pattern's own bits. -/
theorem writesField_whole {i : Instr} {n W : Nat} {v : BitVec W} (hv : writtenValue i = some v.toNat)
    (hn : bitsMoved i = some n) (hc : countOperand i = none) (s : State) : WritesField i n v.getLsbD s :=
  (writesField_of_write hv hn (fun _ h => nomatch hc.symm.trans h) s).congr fun j _ => (testBit_whole v j).symm

/-- A write of the low `n` bits of a pattern leaves the pattern's own bits inside the field. -/
theorem writesField_part {i : Instr} {n W : Nat} {v : BitVec W} (hv : writtenValue i = some (v.toNat % 2 ^ n))
    (hn : bitsMoved i = some n) (hc : countOperand i = some (n, W)) (h1 : 1 ≤ n) (hW : n ≤ W) (s : State) :
    WritesField i n v.getLsbD s :=
  (writesField_of_write hv hn (countLegal_of_le hc h1 hW) s).congr fun j hj => (testBit_part v n j hj).symm

/-- Settles O27: eight writes of a whole pattern. -/
theorem fullWidthWrites : Obligations.FullWidthWrites := fun s =>
  ⟨fun _ => writesField_whole rfl rfl rfl s, fun _ => writesField_whole rfl rfl rfl s,
    fun _ => writesField_whole rfl rfl rfl s, fun _ => writesField_whole rfl rfl rfl s,
    fun _ => writesField_whole rfl rfl rfl s, fun _ => writesField_whole rfl rfl rfl s,
    fun _ => writesField_whole rfl rfl rfl s, fun _ => writesField_whole rfl rfl rfl s⟩

/-- Settles O28: for each width, the unsigned and the signed write of a pattern's low bits. -/
theorem partWidthWrites : Obligations.PartWidthWrites := fun _ s h1 =>
  ⟨fun h _ => ⟨writesField_part rfl rfl rfl h1 h s, writesField_part rfl rfl rfl h1 h s⟩,
    fun h _ => ⟨writesField_part rfl rfl rfl h1 h s, writesField_part rfl rfl rfl h1 h s⟩,
    fun h _ => ⟨writesField_part rfl rfl rfl h1 h s, writesField_part rfl rfl rfl h1 h s⟩,
    fun h _ => ⟨writesField_part rfl rfl rfl h1 h s, writesField_part rfl rfl rfl h1 h s⟩⟩

/-! ## Part-width reads -/

/-- A pattern below the type's sign bit denotes itself (43_integer_codecs.md R146). -/
theorem signedOf_eq_self {W b p : Nat} (hb : b < W) (hp : p < 2 ^ b) : signedOf W p = p :=
  if_pos (Nat.lt_of_lt_of_le hp (Nat.pow_le_pow_right Nat.two_pos (Nat.le_sub_one_of_lt hb)))

/-- Settles O31: four scalar reads that are presented unsigned. -/
theorem partWidthUnsignedReads : Obligations.PartWidthUnsignedReads := fun b s h1 =>
  ⟨fun h => readsField_of_scalar (.rdU8Part b) rfl (countLegal_of_le rfl h1 h) rfl nofun nofun s,
    fun h => readsField_of_scalar (.rdU16Part b) rfl (countLegal_of_le rfl h1 h) rfl nofun nofun s,
    fun h => readsField_of_scalar (.rdU32Part b) rfl (countLegal_of_le rfl h1 h) rfl nofun nofun s,
    fun h => readsField_of_scalar (.rdU64Part b) rfl (countLegal_of_le rfl h1 h) rfl nofun nofun s⟩

/-- Settles O32: four scalar reads that are presented as signed at the type's width, whose sign bit a shorter field does not
reach. -/
theorem partWidthSignedReads : Obligations.PartWidthSignedReads := fun b s h1 =>
  ⟨fun h => readsField_of_scalar (.rdI8Part b) rfl (countLegal_of_le rfl h1 h) rfl nofun nofun s,
    fun h => readsField_of_scalar (.rdI16Part b) rfl (countLegal_of_le rfl h1 h) rfl nofun nofun s,
    fun h => readsField_of_scalar (.rdI32Part b) rfl (countLegal_of_le rfl h1 h) rfl nofun nofun s,
    fun h => readsField_of_scalar (.rdI64Part b) rfl (countLegal_of_le rfl h1 h) rfl nofun nofun s,
    fun W hW => by rw [signedOf_eq_self hW (field_lt s s.cursor b.toNat)]; exact Int.natCast_nonneg _⟩

/-! ## Write, seek back, read -/

theorem OnlyBuffer.respond {s u : State} (h : OnlyBuffer s u) (status : BitVec 8) (rdata : BitVec 64) (payload : List Byte) :
    OnlyBuffer (respond s status rdata payload) (respond u status rdata payload) := by
  unfold OnlyBuffer at h
  rw [h]
  rfl

/-- `Answers.after_respond` as an answer again, so that it can be used for one response after another. -/
theorem Answers.respond {i : Instr} {s u : State} {status : BitVec 8} {rdata : BitVec 64} {payload : List Byte}
    (h : Answers i s u status rdata payload) (status' : BitVec 8) (rdata' : BitVec 64) (payload' : List Byte) :
    Answers i (respond s status' rdata' payload') (respond u status' rdata' payload') status rdata payload :=
  ⟨h.1.respond status' rdata' payload', h.after_respond status' rdata' payload'⟩

/-- Three commands in a row send their responses in order. -/
theorem execAll_three {i j k : Instr} {s t u v : State} {c₁ c₂ c₃ : BitVec 8} {d₁ d₂ d₃ : BitVec 64} {p₁ p₂ p₃ : List Byte}
    (hi : Answers i s t c₁ d₁ p₁) (hj : Answers j t u c₂ d₂ p₂) (hk : Answers k u v c₃ d₃ p₃) :
    execAll [i, j, k] s = .next (respond (respond (respond v c₁ d₁ p₁) c₂ d₂ p₂) c₃ d₃ p₃) := by
  rw [execAll_cons hi.2, execAll_cons (hj.after_respond c₁ d₁ p₁),
    execAll_cons ((hk.respond c₁ d₁ p₁).after_respond c₂ d₂ p₂)]
  rfl

@[simp] theorem moveCursor_field (s : State) (offset k n : Nat) : (moveCursor s offset).field k n = s.field k n :=
  field_congr fun _ _ => rfl

/-- A legal write, a SEEK back to its first bit and a read of as many bits: the field read is the field written. -/
theorem roundTrip_of_write {wr rd : Instr} {n v : Nat} (hv : writtenValue wr = some v) (hn : bitsMoved wr = some n)
    (hc : CountLegal wr) (hread : ∀ u : State, ReadsField rd n (presented rd (u.field u.cursor n)) u) :
    RoundTrip wr rd n (presented rd v) := by
  intro s hs hlive hroom
  obtain ⟨t, hwrite, happ⟩ := write_appends hv hn hc hlive hroom
  have hback : (BitVec.ofNat 64 s.cursor).toNat = s.cursor := by
    rw [BitVec.toNat_ofNat, Nat.mod_eq_of_lt hs.cursor_lt]
  have hseek : Answers (.seek (BitVec.ofNat 64 s.cursor)) t (moveCursor t s.cursor) statusOk 0 [] := by
    refine ⟨rfl, ?_⟩
    rw [exec_seek_within (happ.live.trans hlive) (by rw [hback, happ.length]; exact hs.cursorBound), hback]
  have hfield : (moveCursor t s.cursor).field s.cursor n = v := (moveCursor_field ..).trans happ.field
  have hanswer : Answers rd (moveCursor t s.cursor) (advance (moveCursor t s.cursor) n) statusOk (presented rd v) [] := by
    refine ⟨advance_onlyBuffer _ n, ?_⟩
    rw [← hfield]
    exact hread (moveCursor t s.cursor) (happ.live.trans hlive) (by rw [moveCursor_length, happ.length]; exact hroom)
  exact ⟨advance (moveCursor t s.cursor) n, (hwrite.1.trans hseek.1).trans hanswer.1, rfl, execAll_three hwrite hseek hanswer⟩

/-- `signed_W` of a word's pattern is the integer the word denotes. -/
theorem signedOf_toNat {W : Nat} (v : BitVec W) : signedOf W v.toNat = v.toInt := by
  cases W with
  | zero => rw [BitVec.eq_nil v]; rfl
  | succ m =>
    rw [signedOf, BitVec.toInt_eq_toNat_cond, Nat.add_sub_cancel]
    have hdouble : 2 ^ (m + 1) = 2 * 2 ^ m := Nat.pow_succ'
    by_cases hlow : v.toNat < 2 ^ m
    · rw [if_pos hlow, if_pos (by omega)]
    · rw [if_neg hlow, if_neg (by omega), Nat.cast_pow, Nat.cast_ofNat]

/-- Below the type's width a value is got back exactly when the field holds it (43_integer_codecs.md R183). -/
theorem mod_eq_toInt_iff {W b : Nat} (v : BitVec W) :
    ((v.toNat % 2 ^ b : Nat) : Int) = v.toInt ↔ 0 ≤ v.toInt ∧ v.toInt < 2 ^ b := by
  have hlt : ((v.toNat % 2 ^ b : Nat) : Int) < 2 ^ b := by exact_mod_cast mod_lt v.toNat b
  constructor
  · intro h
    omega
  · rintro ⟨hnonneg, hfits⟩
    have hsign : v.msb = false := by
      rw [BitVec.msb_eq_toInt, decide_eq_false_iff_not]
      omega
    rw [BitVec.toInt_eq_toNat_of_msb hsign] at hfits ⊢
    rw [Nat.mod_eq_of_lt (by exact_mod_cast hfits)]

/-- The value of R183 is the value written exactly when the field has the type's width or the value lies in `0 .. 2^b - 1`. -/
theorem signedOf_mod_eq_toInt_iff {W b : Nat} (v : BitVec W) (hb : b ≤ W) :
    signedOf W (v.toNat % 2 ^ b) = v.toInt ↔ b = W ∨ (0 ≤ v.toInt ∧ v.toInt < 2 ^ b) := by
  rcases Nat.eq_or_lt_of_le hb with rfl | hlt
  · rw [Nat.mod_eq_of_lt v.isLt, signedOf_toNat]
    simp
  · rw [signedOf_eq_self hlt (mod_lt v.toNat b), mod_eq_toInt_iff, or_iff_right hlt.ne]

/-- A full-width signed write is read back as the integer its word denotes. -/
theorem signedRoundTrip_of_write {wr rd : Instr} {W : Nat} {v : BitVec W} (hv : writtenValue wr = some v.toNat)
    (hn : bitsMoved wr = some W) (hc : CountLegal wr) (hwidth : signedReadWidth rd = some W)
    (hread : ∀ u : State, ReadsField rd W (presented rd (u.field u.cursor W)) u) :
    RoundTrip wr rd W (BitVec.ofInt 64 v.toInt) := by
  have hrdata : presented rd v.toNat = BitVec.ofInt 64 v.toInt := by rw [presented, hwidth, ← signedOf_toNat]
  exact hrdata ▸ roundTrip_of_write hv hn hc hread

/-- Settles O42: `roundTrip_of_write` with the read of the same type, at full and at part width. -/
theorem integerRoundTrip : Obligations.IntegerRoundTrip :=
  ⟨fun _ => ⟨roundTrip_of_write rfl rfl nofun fun u => (fullWidthUnsignedReads u).1,
      signedRoundTrip_of_write rfl rfl nofun rfl fun u => (fullWidthSignedReads u).1⟩,
    fun _ => ⟨roundTrip_of_write rfl rfl nofun fun u => (fullWidthUnsignedReads u).2.1,
      signedRoundTrip_of_write rfl rfl nofun rfl fun u => (fullWidthSignedReads u).2.1⟩,
    fun _ => ⟨roundTrip_of_write rfl rfl nofun fun u => (fullWidthUnsignedReads u).2.2.1,
      signedRoundTrip_of_write rfl rfl nofun rfl fun u => (fullWidthSignedReads u).2.2.1⟩,
    fun _ => ⟨roundTrip_of_write rfl rfl nofun fun u => (fullWidthUnsignedReads u).2.2.2,
      signedRoundTrip_of_write rfl rfl nofun rfl fun u => (fullWidthSignedReads u).2.2.2⟩,
    fun b h1 =>
      ⟨fun h _ => ⟨roundTrip_of_write rfl rfl (countLegal_of_le rfl h1 h) fun u => (partWidthUnsignedReads b u h1).1 h,
          roundTrip_of_write rfl rfl (countLegal_of_le rfl h1 h) fun u => (partWidthSignedReads b u h1).1 h⟩,
        fun h _ => ⟨roundTrip_of_write rfl rfl (countLegal_of_le rfl h1 h) fun u => (partWidthUnsignedReads b u h1).2.1 h,
          roundTrip_of_write rfl rfl (countLegal_of_le rfl h1 h) fun u => (partWidthSignedReads b u h1).2.1 h⟩,
        fun h _ => ⟨roundTrip_of_write rfl rfl (countLegal_of_le rfl h1 h) fun u => (partWidthUnsignedReads b u h1).2.2.1 h,
          roundTrip_of_write rfl rfl (countLegal_of_le rfl h1 h) fun u => (partWidthSignedReads b u h1).2.2.1 h⟩,
        fun h _ => ⟨roundTrip_of_write rfl rfl (countLegal_of_le rfl h1 h) fun u => (partWidthUnsignedReads b u h1).2.2.2 h,
          roundTrip_of_write rfl rfl (countLegal_of_le rfl h1 h) fun u => (partWidthSignedReads b u h1).2.2.2.1 h⟩⟩,
    fun _ _ v _ hb => signedOf_mod_eq_toInt_iff v hb⟩

/-! ## Commands with one effect -/

/-- Two transfers of one width that agree wherever there is room agree in every state. -/
theorem needBuffer_needRoom_congr {n : Nat} {s : State} {k k' : Out} (h : s.cursor + n ≤ 8 * s.length → k = k') :
    needBuffer s (needRoom n s k) = needBuffer s (needRoom n s k') := by
  rcases transfer_cases n s k with ⟨hl, e⟩ | ⟨hl, hfull, e⟩ | ⟨hl, hroom, e⟩
  · rw [needBuffer_dead hl, needBuffer_dead hl]
  · rw [needRoom_full hfull, needRoom_full hfull]
  · rw [h hroom]

/-- Two transfers of one width and count that agree where the count is legal and there is room agree in every state. -/
theorem needBuffer_needCount_congr {n W : Nat} {s : State} {k k' : Out}
    (h : 1 ≤ n → n ≤ W → s.cursor + n ≤ 8 * s.length → k = k') :
    needBuffer s (needCount n W s (needRoom n s k)) = needBuffer s (needCount n W s (needRoom n s k')) := by
  by_cases hc : n < 1 ∨ n > W
  · rw [needCount_illegal hc, needCount_illegal hc]
  · rw [needCount_legal (by omega) (by omega), needCount_legal (by omega) (by omega)]
    exact needBuffer_needRoom_congr (h (by omega) (by omega))

/-- The type's own width is a legal count, so that the count check of a part-width command at that width drops out. -/
theorem needBuffer_needCount_self {W : Nat} {s : State} {k : Out} (h : 1 ≤ W) :
    needBuffer s (needCount W W s k) = needBuffer s k := by
  rw [needCount_legal h le_rfl]

@[simp] theorem byteAt_zero (v : Byte) : byteAt v 0 = v := by simp [byteAt]

/-- A byte takes one primitive call (43_integer_codecs.md R159). -/
theorem writePart_byte (v : Byte) (b : Nat) (s : State) (h1 : 1 ≤ b) (h8 : b ≤ 8) : writePart v b s = writeBits v b s := by
  have hcount : callCount b = 1 := by unfold callCount; omega
  have hbits : callBits b 0 = b := by unfold callBits; omega
  simp only [writePart, hcount, writeCalls, hbits, byteAt_zero]
  exact bind_pure _

/-- Primitive calls that all move whole bytes write those bytes (43_integer_codecs.md R141, 44_float_codecs.md R200). -/
theorem writeCalls_whole {W : Nat} (v : BitVec W) (b n j : Nat) (s : State) (h : 8 * (j + n) ≤ b) :
    writeCalls v b n j s = writeBytes ((List.range' j n).map (byteAt v)) s := by
  induction n generalizing j s with
  | zero => rfl
  | succ n ih =>
    have hbits : callBits b j = 8 := by unfold callBits; omega
    simp only [writeCalls, hbits, List.range'_succ, List.map_cons, writeBytes, ih (j + 1) _ (by omega)]

/-- `write_uW_part(v, 8n)` writes the first `n` bytes of the value. -/
theorem writePart_whole {W : Nat} (v : BitVec W) (n : Nat) (s : State) : writePart v (8 * n) s = writeBytes (bytesOf n v) s := by
  have hcount : callCount (8 * n) = n := by unfold callCount; omega
  rw [writePart, hcount, writeCalls_whole v (8 * n) n 0 s (by omega), bytesOf, List.range_eq_range']

theorem writeBytes_append (l l' : List Byte) (s : State) : writeBytes (l ++ l') s = writeBytes l s >>= writeBytes l' := by
  induction l generalizing s with
  | nil => rfl
  | cons b l ih => simp only [List.cons_append, writeBytes, ih, bind_assoc]

/-- The bytes of a 64-bit value are those of its low half and then those of its high half (43_integer_codecs.md R143). -/
theorem bytesOf_halves (v : BitVec 64) :
    bytesOf 8 v = bytesOf 4 (v.extractLsb' 0 32) ++ bytesOf 4 (v.extractLsb' 32 32) := by
  have hlow : ∀ j, j < 4 → byteAt (v.extractLsb' 0 32) j = byteAt v j := by
    intro j hj
    ext i hi
    simp [byteAt, show 8 * j + i < 32 by omega]
  have hhigh : ∀ j, j < 4 → byteAt (v.extractLsb' 32 32) j = byteAt v (4 + j) := by
    intro j hj
    ext i hi
    simp [byteAt, show 8 * j + i < 32 by omega, show 32 + (8 * j + i) = 8 * (4 + j) + i by omega]
  simp only [bytesOf, show List.range 8 = List.range 4 ++ (List.range 4).map (4 + ·) from rfl, List.map_append, List.map_map]
  congr 1
  · exact List.map_congr_left fun j hj => (hlow j (List.mem_range.1 hj)).symm
  · exact List.map_congr_left fun j hj => (hhigh j (List.mem_range.1 hj)).symm

/-- `write_u64_part(v, 64)` writes the eight bytes of the value. -/
theorem writePart64_whole (v : BitVec 64) (s : State) : writePart64 v 64 s = writeBytes (bytesOf 8 v) s := by
  have hhigh : writeBytes (bytesOf 4 (v.extractLsb' 32 32)) = writePart (v.extractLsb' 32 32) 32 :=
    funext fun t => (writePart_whole (v.extractLsb' 32 32) 4 t).symm
  rw [bytesOf_halves, writeBytes_append, ← writePart_whole, hhigh]
  rfl

theorem wrU8Part_eq_wrBits (v c : BitVec 8) (s : State) : exec (.wrU8Part v c) s = exec (.wrBits v c) s :=
  needBuffer_needCount_congr fun h1 h8 _ => by rw [writePart_byte v c.toNat s h1 h8]

theorem rdU8Part_eq_rdBits (c : BitVec 8) (s : State) : exec (.rdU8Part c) s = exec (.rdBits c) s :=
  needBuffer_needCount_congr fun h1 h8 hroom => by rw [readPart_eq 8 c.toNat s h1 h8 hroom, readBits_eq c.toNat s h1 h8 hroom]

theorem wrF32_eq_wrU32 (v : BitVec 32) (s : State) : exec (.wrF32 v) s = exec (.wrU32 v) s :=
  needBuffer_needRoom_congr fun _ => by rw [← writePart_whole]

theorem wrF64_eq_wrU64 (v : BitVec 64) (s : State) : exec (.wrF64 v) s = exec (.wrU64 v) s :=
  needBuffer_needRoom_congr fun _ => by rw [writePart64_whole]

theorem rdF32_eq_rdU32 (s : State) : exec .rdF32 s = exec .rdU32 s :=
  needBuffer_needRoom_congr fun hroom => by
    rw [readBytes_eq 4 s hroom, andThen_ok, orBytes_bytesAt 32 s.cursor 4 s rfl, readPart_eq 32 32 s (by omega) le_rfl hroom,
      finishRead_ok, finish_eq]

theorem rdF64_eq_rdU64 (s : State) : exec .rdF64 s = exec .rdU64 s :=
  needBuffer_needRoom_congr fun hroom => by
    rw [readBytes_eq 8 s hroom, andThen_ok, orBytes_bytesAt 64 s.cursor 8 s rfl, readPart64_eq 64 s (by omega) le_rfl hroom,
      finishRead_ok, finish_eq, zext64, BitVec.setWidth_eq]

/-- Settles O46: a signed write is the unsigned one by definition (R146), a part-width command at the type's width passes its
count check, and the others are the lemmas above. -/
theorem sameEffectCommands : Obligations.SameEffectCommands := fun s =>
  ⟨fun _ => rfl, fun _ => rfl, fun _ => rfl, fun _ => rfl, fun _ _ => rfl, fun _ _ => rfl, fun _ _ => rfl, fun _ _ => rfl,
    fun _ => needBuffer_needCount_self (by decide), fun _ => needBuffer_needCount_self (by decide),
    fun _ => needBuffer_needCount_self (by decide), fun _ => needBuffer_needCount_self (by decide),
    ⟨needBuffer_needCount_self (by decide), needBuffer_needCount_self (by decide)⟩,
    ⟨needBuffer_needCount_self (by decide), needBuffer_needCount_self (by decide)⟩,
    ⟨needBuffer_needCount_self (by decide), needBuffer_needCount_self (by decide)⟩,
    ⟨needBuffer_needCount_self (by decide), needBuffer_needCount_self (by decide)⟩,
    fun v c => wrU8Part_eq_wrBits v c s, fun c => rdU8Part_eq_rdBits c s, fun v => wrF32_eq_wrU32 v s,
    fun v => wrF64_eq_wrU64 v s, rdF32_eq_rdU32 s, rdF64_eq_rdU64 s⟩

end Sys2Proof.Machine

/-! PROOFS. The statements of 44_float_codecs.md: the float writes (O33), the float reads (O34), and patterns, bools and raw bits
written, sought back to and read (O43). -/

namespace Sys2Proof.Machine

/-- Settles O33: two writes of a whole pattern. -/
theorem floatWrites : Obligations.FloatWrites := fun s =>
  ⟨fun _ => writesField_whole rfl rfl rfl s, fun _ => writesField_whole rfl rfl rfl s⟩

/-- Settles O34: two scalar reads that are presented unsigned. -/
theorem floatReads : Obligations.FloatReads := fun s =>
  ⟨readsField_of_scalar .rdF32 rfl nofun rfl nofun nofun s, readsField_of_scalar .rdF64 rfl nofun rfl nofun nofun s⟩

/-- A whole pattern is read back as itself, zero-extended, by a read that presents its field unsigned (44_float_codecs.md R205). -/
theorem patternRoundTrip_of_write {wr rd : Instr} {W : Nat} {v : BitVec W} (hv : writtenValue wr = some v.toNat)
    (hn : bitsMoved wr = some W) (hc : CountLegal wr) (hunsigned : signedReadWidth rd = none)
    (hread : ∀ u : State, ReadsField rd W (presented rd (u.field u.cursor W)) u) :
    RoundTrip wr rd W (v.setWidth 64) := by
  have hrdata : presented rd v.toNat = v.setWidth 64 := by rw [presented, hunsigned, BitVec.ofNat_toNat]
  exact hrdata ▸ roundTrip_of_write hv hn hc hread

/-- The bit that WR_BOOL writes is presented by RD_BOOL as 1 for true (42_bool_codec.md R131, R132). -/
theorem boolRoundTrip (v : Bool) : RoundTrip (.wrBool v) .rdBool 1 (if v then 1 else 0) := by
  have hrdata : presented .rdBool v.toNat = if v then 1 else 0 := by cases v <;> rfl
  exact hrdata ▸ roundTrip_of_write rfl rfl nofun (readsField_of_scalar .rdBool rfl nofun rfl nofun nofun)

/-- Settles O43: `roundTrip_of_write` for the two float widths, the bool and the low bits of a byte. -/
theorem patternRoundTrip : Obligations.PatternRoundTrip :=
  ⟨fun _ => patternRoundTrip_of_write rfl rfl nofun rfl fun u => (floatReads u).1,
    fun v => v.setWidth_eq ▸ patternRoundTrip_of_write rfl rfl nofun rfl fun u => (floatReads u).2,
    boolRoundTrip,
    fun _ c h1 h8 => roundTrip_of_write rfl rfl (countLegal_of_le rfl h1 h8) fun u => rdBitsReadsField c u h1 h8⟩

end Sys2Proof.Machine

/-! PROOFS. The statements of 45_bytes_string_codecs.md: valid UTF-8 (O45), WR_BYTES and RD_BYTES (O35, O36), WR_STR and RD_STR
(O37, O38), a text written, sought back to and read (O44), and WR_STR as a count and then bytes (O47). -/

namespace Sys2Proof.Machine

/-! ## One pattern of the table -/

theorem inRange_iff {b : Byte} {r : Nat × Nat} : inRange b r = true ↔ Between r.1 r.2 b := by
  simp [inRange, Between]

theorem afterRow_nil_iff {l rest : List Byte} : afterRow [] l = some rest ↔ l = rest := by
  simp [afterRow]

theorem afterRow_cons_iff {r : Nat × Nat} {row : List (Nat × Nat)} {l rest : List Byte} :
    afterRow (r :: row) l = some rest ↔ ∃ b tail, l = b :: tail ∧ Between r.1 r.2 b ∧ afterRow row tail = some rest := by
  cases l with
  | nil => simp [afterRow]
  | cons b tail => simp [afterRow, inRange_iff]

theorem afterRow_cons {r : Nat × Nat} {row : List (Nat × Nat)} {b : Byte} {l rest : List Byte} (hb : Between r.1 r.2 b)
    (h : afterRow row l = some rest) : afterRow (r :: row) (b :: l) = some rest :=
  afterRow_cons_iff.2 ⟨b, l, rfl, hb, h⟩

/-- Bytes that follow do not change which pattern the front matches. -/
theorem afterRow_append {row : List (Nat × Nat)} {l rest : List Byte} (h : afterRow row l = some rest) (l' : List Byte) :
    afterRow row (l ++ l') = some (rest ++ l') := by
  induction row generalizing l with
  | nil => rw [afterRow_nil_iff] at h ⊢; rw [h]
  | cons r row ih =>
    obtain ⟨b, tail, rfl, hb, htail⟩ := afterRow_cons_iff.1 h
    exact afterRow_cons hb (ih htail)

/-- Every byte is one of the pattern's, in the range of its place, or stands after the pattern. -/
theorem mem_of_afterRow {row : List (Nat × Nat)} {l rest : List Byte} {b : Byte} (h : afterRow row l = some rest)
    (hb : b ∈ l) : (∃ r ∈ row, Between r.1 r.2 b) ∨ b ∈ rest := by
  induction row generalizing l with
  | nil => rw [afterRow_nil_iff] at h; exact .inr (h ▸ hb)
  | cons r row ih =>
    obtain ⟨a, tail, rfl, ha, htail⟩ := afterRow_cons_iff.1 h
    rcases List.mem_cons.1 hb with rfl | hb
    · exact .inl ⟨r, List.mem_cons_self, ha⟩
    · exact (ih htail hb).imp_left fun ⟨r', hr', hin⟩ => ⟨r', List.mem_cons_of_mem r hr', hin⟩

/-! ## The rows of the table

The first byte decides the row: the rows stand in the order of their first bytes, and no two rows share one. -/

/-- Every first byte of `row` is less than every first byte of `row'`. -/
def StartsBelow (row row' : List (Nat × Nat)) : Prop := ∃ r ∈ row.head?, ∃ r' ∈ row'.head?, r.2 < r'.1

theorem utf8Rows_startsBelow : utf8Rows.Pairwise StartsBelow := by
  simp [utf8Rows, StartsBelow]

theorem afterRow_of_startsBelow {row row' : List (Nat × Nat)} {l rest : List Byte} (h : StartsBelow row row')
    (h' : afterRow row' l = some rest) : afterRow row l = none := by
  obtain ⟨r, hr, r', hr', hlt⟩ := h
  obtain ⟨row, rfl⟩ := List.head?_eq_some_iff.1 hr
  obtain ⟨row', rfl⟩ := List.head?_eq_some_iff.1 hr'
  obtain ⟨b, tail, rfl, hb, -⟩ := afterRow_cons_iff.1 h'
  rw [Option.eq_none_iff_forall_ne_some]
  intro rest' hrow
  obtain ⟨c, tail', hcons, hc, -⟩ := afterRow_cons_iff.1 hrow
  cases hcons
  omega

/-- In rows with distinct first bytes a row that matches is the first one that does. -/
theorem afterAny_of_mem {rows : List (List (Nat × Nat))} {row : List (Nat × Nat)} {l rest : List Byte}
    (hrows : rows.Pairwise StartsBelow) (hm : row ∈ rows) (h : afterRow row l = some rest) : afterAny rows l = some rest := by
  induction rows with
  | nil => cases hm
  | cons row' rows ih =>
    obtain ⟨hbelow, hrows⟩ := List.pairwise_cons.1 hrows
    rcases List.mem_cons.1 hm with rfl | hm
    · simp [afterAny, h]
    · simp [afterAny, afterRow_of_startsBelow (hbelow row hm) h, ih hrows hm]

theorem utf8Rows_ne_nil : ∀ row ∈ utf8Rows, row ≠ [] := by decide

/-- A pattern of the table at the front does not decide validity: the bytes after it do. -/
theorem utf8Valid_of_afterRow {row : List (Nat × Nat)} {l rest : List Byte} (hm : row ∈ utf8Rows)
    (h : afterRow row l = some rest) : utf8Valid l = utf8Valid rest := by
  obtain ⟨r, row, rfl⟩ := List.exists_cons_of_ne_nil (utf8Rows_ne_nil row hm)
  obtain ⟨b, tail, rfl, -, -⟩ := afterRow_cons_iff.1 h
  rw [utf8Valid_cons, afterAny_of_mem utf8Rows_startsBelow hm h]

/-- Valid bytes are none, or begin with a pattern of the table. -/
theorem exists_row_of_utf8Valid {b : Byte} {l : List Byte} (h : utf8Valid (b :: l) = true) :
    ∃ r row rest, r :: row ∈ utf8Rows ∧ Between r.1 r.2 b ∧ afterRow row l = some rest ∧ utf8Valid rest = true := by
  rw [utf8Valid_cons] at h
  cases hany : afterAny utf8Rows (b :: l) with
  | none => rw [hany] at h; cases h
  | some rest =>
    rw [hany] at h
    obtain ⟨row, hm, hrow⟩ := afterAny_some hany
    obtain ⟨r, row, rfl⟩ := List.exists_cons_of_ne_nil (utf8Rows_ne_nil row hm)
    obtain ⟨_, _, hcons, hb, htail⟩ := afterRow_cons_iff.1 hrow
    cases hcons
    exact ⟨r, row, rest, hm, hb, htail, h⟩

/-- Induction along the patterns of valid bytes. -/
theorem utf8Valid_induction {P : List Byte → Prop} (nil : P [])
    (pattern : ∀ row ∈ utf8Rows, ∀ l rest, afterRow row l = some rest → P rest → P l) (l : List Byte)
    (h : utf8Valid l = true) : P l := by
  induction hn : l.length using Nat.strong_induction_on generalizing l with
  | _ n ih =>
    cases l with
    | nil => exact nil
    | cons b l =>
      obtain ⟨r, row, rest, hm, hb, htail, hrest⟩ := exists_row_of_utf8Valid h
      obtain ⟨front, hfront, -⟩ := afterRow_some htail
      have hshorter : rest.length < n := by
        rw [← hn, hfront, List.length_cons, List.length_append]
        omega
      exact pattern (r :: row) hm (b :: l) rest (afterRow_cons hb htail) (ih _ hshorter rest hrest rfl)

/-! ## The check and the table -/

/-- A row of the table is a constructor of `Utf8Text`. -/
theorem utf8Text_of_afterRow {row : List (Nat × Nat)} (hm : row ∈ utf8Rows) {l rest : List Byte}
    (h : afterRow row l = some rest) (hrest : Utf8Text rest) : Utf8Text l := by
  simp only [utf8Rows, List.mem_cons, List.not_mem_nil, or_false] at hm
  rcases hm with rfl | rfl | rfl | rfl | rfl | rfl | rfl | rfl | rfl <;>
    simp only [afterRow_cons_iff, afterRow_nil_iff] at h
  · obtain ⟨a, _, rfl, ha, rfl⟩ := h
    exact .row1 ha hrest
  · obtain ⟨a, _, rfl, ha, b, _, rfl, hb, rfl⟩ := h
    exact .row2 ha hb hrest
  · obtain ⟨a, _, rfl, ha, b, _, rfl, hb, c, _, rfl, hc, rfl⟩ := h
    exact .row3 ha hb hc hrest
  · obtain ⟨a, _, rfl, ha, b, _, rfl, hb, c, _, rfl, hc, rfl⟩ := h
    exact .row4 ha hb hc hrest
  · obtain ⟨a, _, rfl, ha, b, _, rfl, hb, c, _, rfl, hc, rfl⟩ := h
    exact .row5 ha hb hc hrest
  · obtain ⟨a, _, rfl, ha, b, _, rfl, hb, c, _, rfl, hc, rfl⟩ := h
    exact .row6 ha hb hc hrest
  · obtain ⟨a, _, rfl, ha, b, _, rfl, hb, c, _, rfl, hc, d, _, rfl, hd, rfl⟩ := h
    exact .row7 ha hb hc hd hrest
  · obtain ⟨a, _, rfl, ha, b, _, rfl, hb, c, _, rfl, hc, d, _, rfl, hd, rfl⟩ := h
    exact .row8 ha hb hc hd hrest
  · obtain ⟨a, _, rfl, ha, b, _, rfl, hb, c, _, rfl, hc, d, _, rfl, hd, rfl⟩ := h
    exact .row9 ha hb hc hd hrest

/-- A pattern in front of valid bytes, its row given by its place in the table. -/
theorem utf8Valid_of_place (k : Nat) {row : List (Nat × Nat)} (hk : utf8Rows[k]? = some row) {l rest : List Byte}
    (h : afterRow row l = some rest) (hrest : utf8Valid rest = true) : utf8Valid l = true :=
  (utf8Valid_of_afterRow (List.mem_of_getElem? hk) h).trans hrest

/-- `utf8_valid` is the table (45_bytes_string_codecs.md R215). -/
theorem utf8Valid_iff {l : List Byte} : utf8Valid l = true ↔ Utf8Text l := by
  refine ⟨utf8Valid_induction .empty (fun _ hm _ _ h hrest => utf8Text_of_afterRow hm h hrest) l, fun h => ?_⟩
  induction h with
  | empty => rfl
  | row1 ha _ ih => exact utf8Valid_of_place 0 rfl (afterRow_cons ha rfl) ih
  | row2 ha hb _ ih => exact utf8Valid_of_place 1 rfl (afterRow_cons ha (afterRow_cons hb rfl)) ih
  | row3 ha hb hc _ ih => exact utf8Valid_of_place 2 rfl (afterRow_cons ha (afterRow_cons hb (afterRow_cons hc rfl))) ih
  | row4 ha hb hc _ ih => exact utf8Valid_of_place 3 rfl (afterRow_cons ha (afterRow_cons hb (afterRow_cons hc rfl))) ih
  | row5 ha hb hc _ ih => exact utf8Valid_of_place 4 rfl (afterRow_cons ha (afterRow_cons hb (afterRow_cons hc rfl))) ih
  | row6 ha hb hc _ ih => exact utf8Valid_of_place 5 rfl (afterRow_cons ha (afterRow_cons hb (afterRow_cons hc rfl))) ih
  | row7 ha hb hc hd _ ih =>
    exact utf8Valid_of_place 6 rfl (afterRow_cons ha (afterRow_cons hb (afterRow_cons hc (afterRow_cons hd rfl)))) ih
  | row8 ha hb hc hd _ ih =>
    exact utf8Valid_of_place 7 rfl (afterRow_cons ha (afterRow_cons hb (afterRow_cons hc (afterRow_cons hd rfl)))) ih
  | row9 ha hb hc hd _ ih =>
    exact utf8Valid_of_place 8 rfl (afterRow_cons ha (afterRow_cons hb (afterRow_cons hc (afterRow_cons hd rfl)))) ih

/-! ## What the table leaves out -/

theorem utf8Valid_append {l : List Byte} (h : utf8Valid l = true) (l' : List Byte) : utf8Valid (l ++ l') = utf8Valid l' :=
  utf8Valid_induction (P := fun l => utf8Valid (l ++ l') = utf8Valid l') rfl
    (fun _ hm _ _ hrow ih => (utf8Valid_of_afterRow hm (afterRow_append hrow l')).trans ih) l h

/-- The ranges of the table stop short of C0 and C1 and of F5 and above. -/
theorem utf8Rows_ranges : ∀ row ∈ utf8Rows, ∀ r ∈ row, r.2 < 0xC0 ∨ 0xC2 ≤ r.1 ∧ r.2 < 0xF5 := by decide

theorem byte_of_utf8Valid {l : List Byte} (h : utf8Valid l = true) :
    ∀ b ∈ l, b.toNat < 0xC0 ∨ 0xC2 ≤ b.toNat ∧ b.toNat < 0xF5 := by
  refine utf8Valid_induction (P := fun l => ∀ b ∈ l, b.toNat < 0xC0 ∨ 0xC2 ≤ b.toNat ∧ b.toNat < 0xF5) nofun
    (fun row hm l rest hrow ih b hb => ?_) l h
  rcases mem_of_afterRow hrow hb with ⟨r, hr, hlow, hhigh⟩ | hb
  · have hrange := utf8Rows_ranges row hm r hr
    omega
  · exact ih b hb

/-- No row begins with a continuation byte. -/
theorem utf8Rows_firstBytes : ∀ row ∈ utf8Rows, ∀ r ∈ row.head?, r.2 < 0x80 ∨ 0xBF < r.1 := by decide

theorem not_utf8Valid_of_continuation {b : Byte} (hb : Between 0x80 0xBF b) (l : List Byte) : utf8Valid (b :: l) = false := by
  rw [Bool.eq_false_iff]
  intro h
  obtain ⟨r, row, _, hm, hin, -, -⟩ := exists_row_of_utf8Valid h
  have hfirst := utf8Rows_firstBytes (r :: row) hm r rfl
  omega

/-- A sequence shorter than every pattern that its first byte begins is cut short. -/
theorem not_utf8Valid_of_short {a : Byte} {l : List Byte} {first n : Nat} (ha : first ≤ a.toNat) (hl : (a :: l).length < n)
    (hrows : ∀ row ∈ utf8Rows, ∀ r ∈ row.head?, first ≤ r.2 → n ≤ row.length) : utf8Valid (a :: l) = false := by
  rw [Bool.eq_false_iff]
  intro h
  obtain ⟨r, row, rest, hm, hin, htail, -⟩ := exists_row_of_utf8Valid h
  obtain ⟨front, rfl, hfront⟩ := afterRow_some htail
  have hlonger := hrows (r :: row) hm r rfl (Nat.le_trans ha hin.2)
  rw [List.length_cons] at hl hlonger
  rw [List.length_append] at hl
  omega

/-- Only one row begins with ED, and its second byte stops below the surrogates. -/
theorem utf8Rows_surrogates : ∀ row ∈ utf8Rows, ∀ r ∈ row.head?, r.1 ≤ 0xED → 0xED ≤ r.2 →
    row = [(0xED, 0xED), (0x80, 0x9F), (0x80, 0xBF)] := by decide

theorem not_utf8Valid_of_surrogate {b : Byte} (hb : Between 0xA0 0xBF b) (l : List Byte) :
    utf8Valid (0xED :: b :: l) = false := by
  rw [Bool.eq_false_iff]
  intro h
  obtain ⟨r, row, rest, hm, hin, htail, -⟩ := exists_row_of_utf8Valid h
  cases utf8Rows_surrogates (r :: row) hm r rfl hin.1 hin.2
  obtain ⟨_, _, hcons, hsecond, -⟩ := afterRow_cons_iff.1 htail
  cases hcons
  omega

/-- Settles O45: the check is the table by `utf8Valid_iff`; what the table leaves out, by the bounds of its ranges; the overlong
forms and the values above U+10FFFF match no row. -/
theorem utf8ValidIsTheTable : Obligations.Utf8ValidIsTheTable := by
  refine ⟨fun _ => utf8Valid_iff, rfl, rfl, fun _ b h => utf8Valid_append h b, fun l b hb hout => ?_,
    fun _ rest hb => not_utf8Valid_of_continuation hb rest, fun _ => ⟨rfl, rfl, rfl, rfl⟩,
    fun _ rest hb => not_utf8Valid_of_surrogate hb rest, fun a b c => ⟨fun h => ?_, fun h => ?_, fun h => ?_⟩⟩
  · rw [Bool.eq_false_iff]
    intro h
    have hrange := byte_of_utf8Valid h b hb
    rcases hout with rfl | rfl | hhigh
    · exact absurd hrange (by decide)
    · exact absurd hrange (by decide)
    · omega
  · exact not_utf8Valid_of_short (n := 2) h.1 (Nat.lt_succ_self _) (by decide)
  · exact not_utf8Valid_of_short (n := 3) h.1 (Nat.lt_succ_self _) (by decide)
  · exact not_utf8Valid_of_short (n := 4) h.1 (Nat.lt_succ_self _) (by decide)

/-! ## Bytes -/

/-- Settles O35: the bits of the field's value are those of the payload. -/
theorem wrBytesWritesPayload : Obligations.WrBytesWritesPayload := fun payload s =>
  (writesField_of_write (i := .wrBytes payload) rfl rfl nofun s).congr fun j _ => bytesValue_testBit payload j

/-- Settles O36: with the checks passed, what `readBytes_eq` says is answered. -/
theorem rdBytesReadsBytes : Obligations.RdBytesReadsBytes := by
  intro len s hlive hroom
  have hchecks : exec (.rdBytes len) s = andThen (readBytes len.toNat s) fun x => finish x.2 0 x.1 :=
    (needBuffer_live hlive).trans (needRoom_fits hroom)
  rw [hchecks, readBytes_eq len.toNat s hroom]
  rfl

/-! ## A string's field: its count below its bytes (45_bytes_string_codecs.md R214) -/

theorem testBit_count_add (n v j : Nat) :
    (n % 2 ^ 32 + 2 ^ 32 * v).testBit j = if j < 32 then n.testBit j else v.testBit (j - 32) := by
  rw [Nat.add_comm, Nat.testBit_two_pow_mul_add v (mod_lt n 32), Nat.testBit_mod_two_pow]
  by_cases hj : j < 32 <;> simp [hj]

/-- Settles O37: the bits of the field's value are those of the count, then those of the payload. -/
theorem wrStrWritesCountAndPayload : Obligations.WrStrWritesCountAndPayload := fun payload s =>
  (writesField_of_write (i := .wrStr payload) rfl rfl nofun s).congr fun j _ => by
    rw [testBit_count_add, bytesValue_testBit]
    rfl

/-- As many bytes of the same value are the same bytes. -/
theorem bytesValue_inj {l l' : List Byte} (hlen : l.length = l'.length) (h : bytesValue l = bytesValue l') : l = l' :=
  bytes_ext hlen fun i _ => by rw [← bytesValue_testBit, ← bytesValue_testBit, h]

/-- A field that holds a count and as many bytes is read as that count and those bytes. -/
theorem text_of_field {s : State} {k : Nat} {payload : List Byte} (hlen : payload.length < 2 ^ 32)
    (h : s.field k (32 + 8 * payload.length) = payload.length % 2 ^ 32 + 2 ^ 32 * bytesValue payload) :
    s.field k 32 = payload.length ∧ bytesAt s (k + 32) payload.length = payload := by
  rw [field_text, Nat.mod_eq_of_lt hlen] at h
  have hlt := field_lt s k 32
  exact ⟨by omega, bytesValue_inj (bytesAt_length ..) (by omega)⟩

/-! ## Reading a text -/

/-- Settles O38: on a live Buffer, with both bounds and the text's validity given, no other case of `execCase_rdStr` is left. -/
theorem rdStrReadsValidText : Obligations.RdStrReadsValidText := by
  rintro s n hlive hcountRoom rfl hroom htext
  cases execCase_rdStr s with
  | readText _ _ _ _ he => rw [he, advance, ← Nat.add_assoc]
  | noBuffer hdead _ _ => cases hdead.symm.trans hlive
  | outOfBounds _ hb _ => rcases outOfBounds_rdStr.1 hb with hfull | hfull <;> omega
  | invalidEncoding _ _ _ hinvalid _ => cases hinvalid.symm.trans (utf8Valid_iff.2 htext)
  | wrote t m v hv _ _ _ _ _ _ _ _ => cases hv
  | answered rdata hb _ _ _ _ => cases hb
  | readScalar m _ _ _ _ hstr _ _ _ _ _ => exact absurd rfl hstr
  | constructionError m hi _ _ | created m hi _ _ | consumed hi _ _ | sought offset hi _ _ _ | readBytes len hi _ _ _ => cases hi

/-! ## Write, seek back, read -/

/-- SEEK back to where `s` had its cursor, from a later state of the same Buffer. -/
theorem answers_seekBack {s t : State} (hs : s.Inv) (hlive : t.live = true) (hlength : t.length = s.length) :
    Answers (.seek (BitVec.ofNat 64 s.cursor)) t (moveCursor t s.cursor) statusOk 0 [] := by
  have hback : (BitVec.ofNat 64 s.cursor).toNat = s.cursor := by
    rw [BitVec.toNat_ofNat, Nat.mod_eq_of_lt hs.cursor_lt]
  refine ⟨rfl, ?_⟩
  rw [exec_seek_within hlive (by rw [hback, hlength]; exact hs.cursorBound), hback]

/-- RD_STR where a valid text and its count stand in storage. -/
theorem answers_rdStr {s : State} {text : List Byte} (hlive : s.live = true)
    (hroom : s.cursor + 32 + 8 * text.length ≤ 8 * s.length) (hcount : s.field s.cursor 32 = text.length)
    (hbytes : bytesAt s (s.cursor + 32) text.length = text) (htext : Utf8Text text) :
    Answers .rdStr s (advance s (32 + 8 * text.length)) statusOk 0 text := by
  refine ⟨advance_onlyBuffer _ _, ?_⟩
  rw [rdStrReadsValidText s text.length hlive (by omega) hcount.symm hroom (hbytes.symm ▸ htext), hbytes, advance,
    Nat.add_assoc]

/-- Settles O44: the field that WR_STR leaves, which SEEK does not touch, is what RD_STR finds. -/
theorem stringRoundTrip : Obligations.StringRoundTrip := by
  intro text s hs hlive htext hroom
  have hrlen : (BitVec.ofNat 32 text.length).toNat = text.length := rlen_toNat hs (by omega)
  have hlen : text.length < 2 ^ 32 := hrlen ▸ (BitVec.ofNat 32 text.length).isLt
  obtain ⟨t, hwrite, happ⟩ :=
    write_appends (i := .wrStr text) rfl rfl nofun hlive (by rw [← Nat.add_assoc]; exact hroom)
  have hseek := answers_seekBack hs (happ.live.trans hlive) happ.length
  obtain ⟨hcount, hbytes⟩ := text_of_field hlen ((moveCursor_field t s.cursor ..).trans happ.field)
  have hread := answers_rdStr (s := moveCursor t s.cursor) (happ.live.trans hlive)
    (by rw [moveCursor_length, happ.length]; exact hroom) hcount hbytes htext
  refine ⟨_, (hwrite.1.trans hseek.1).trans hread.1, ?_, execAll_three hwrite hseek hread, hrlen⟩
  rw [advance_cursor, moveCursor_cursor, Nat.add_assoc]

/-! ## A string as a count and then bytes -/

/-- A write command whose checks pass answers with what its subroutine leaves. -/
theorem answers_of_write {i : Instr} {n : Nat} {s t : State} {r : Except Fault State}
    (he : exec i s = needBuffer s (needRoom n s (finishWrite r))) (hlive : s.live = true)
    (hroom : s.cursor + n ≤ 8 * s.length) (hr : r = .ok t) (ht : OnlyBuffer s t) : Answers i s t statusOk 0 [] := by
  refine ⟨ht, ?_⟩
  rw [he, needBuffer_live hlive, needRoom_fits hroom, hr, finishWrite_ok]

/-- Settles O47: WR_STR calls what WR_U32 and WR_BYTES call, in that order, and a response between them changes nothing. -/
theorem wrStrIsCountThenBytes : Obligations.WrStrIsCountThenBytes := by
  intro payload s hlive hroom
  obtain ⟨t, hcount, hfirst⟩ := writePart_ok (BitVec.ofNat 32 payload.length) 32 s (by omega) (by omega)
  have hroom' : t.cursor + 8 * payload.length ≤ 8 * t.length := by rw [hfirst.cursor_eq, hfirst.length_eq]; exact hroom
  obtain ⟨u, hbytes, hsecond⟩ := writeBytes_ok payload t hroom'
  have hwhole : writeString payload s = .ok u := by rw [writeString, hcount]; exact hbytes
  have hu : OnlyBuffer s u := hfirst.onlyBuffer.trans hsecond.onlyBuffer
  have hstring : Answers (.wrStr payload) s u statusOk 0 [] :=
    answers_of_write rfl hlive (by rw [← Nat.add_assoc]; exact hroom) hwhole hu
  have hanswer : Answers (.wrU32 (BitVec.ofNat 32 payload.length)) s t statusOk 0 [] :=
    answers_of_write rfl hlive (by omega) hcount hfirst.onlyBuffer
  have hanswer' : Answers (.wrBytes payload) t u statusOk 0 [] :=
    answers_of_write rfl (by rw [hfirst.rest]; exact hlive) hroom' hbytes hsecond.onlyBuffer
  refine ⟨u, hu, hstring.2, ?_⟩
  rw [execAll_cons hanswer.2, execAll_cons (hanswer'.after_respond statusOk 0 [])]
  rfl

end Sys2Proof.Machine

/-! PROOFS. The statements of 46_bounds_predicates.md: what the four predicates answer (O22), and that they answer 1 exactly
when a transfer of as many bits passes its bound (O23). -/

namespace Sys2Proof.Machine

/-! ## What a predicate answers -/

theorem answer_fits (s : State) (n : Nat) : answer (fits s n) = if s.cursor + n ≤ 8 * s.length then 1 else 0 := by
  simp [answer, fits]

/-- A predicate over `n` bits, on a live Buffer (46_bounds_predicates.md R231 to R234). -/
theorem exec_predicate {i : Instr} {n : Nat} {s : State} (he : exec i s = needBuffer s (finish s (answer (fits s n)) []))
    (hlive : s.live = true) :
    exec i s = .next (respond s statusOk (if s.cursor + n ≤ 8 * s.length then 1 else 0) []) := by
  rw [he, needBuffer_live hlive, finish_eq, answer_fits]

/-- Settles O22: four predicates by `exec_predicate`; the read and the write predicate of a unit have one definition. -/
theorem predicatesAreExact : Obligations.PredicatesAreExact :=
  ⟨fun _ _ hlive => ⟨exec_predicate rfl hlive, exec_predicate rfl hlive, exec_predicate rfl hlive, exec_predicate rfl hlive⟩,
    fun _ _ => ⟨rfl, rfl⟩⟩

/-- The answer is 1 exactly when the bits fit. -/
theorem predicate_one_iff {i : Instr} {n : Nat} {s : State}
    (he : exec i s = needBuffer s (finish s (answer (fits s n)) [])) (hlive : s.live = true) :
    exec i s = .next (respond s statusOk 1 []) ↔ s.cursor + n ≤ 8 * s.length := by
  rw [exec_predicate he hlive]
  by_cases hroom : s.cursor + n ≤ 8 * s.length
  · exact iff_of_true (by rw [if_pos hroom]) hroom
  · rw [if_neg hroom]
    refine iff_of_false (fun h => ?_) hroom
    obtain ⟨-, -, hrdata, -⟩ := respond_inj (s := s) (u := s) (v := s) rfl rfl (Host.Outcome.next.inj h)
    exact absurd hrdata (by decide)

/-! ## The bits of a command as an operand -/

/-- A count is a byte; LEN is 32 bits wide, and so is the length of a payload that can be presented. -/
theorem bitsMoved_lt {i : Instr} {n : Nat} (hi : i.WellFormed) (hn : bitsMoved i = some n) : n < 2 ^ 64 := by
  cases i with
  | wrBytes payload | wrStr payload =>
    have hpayload : payload.length < 2 ^ 32 := hi
    cases hn
    omega
  | rdBytes len =>
    have hlen := len.isLt
    cases hn
    omega
  | wrBits _ c | rdBits c | wrU8Part _ c | wrI8Part _ c | wrU16Part _ c | wrI16Part _ c | wrU32Part _ c | wrI32Part _ c
      | wrU64Part _ c | wrI64Part _ c | rdU8Part c | rdI8Part c | rdU16Part c | rdI16Part c | rdU32Part c | rdI32Part c
      | rdU64Part c | rdI64Part c =>
    have hcount := c.isLt
    cases hn
    omega
  | _ => cases hn <;> decide

/-! ## When a transfer succeeds -/

/-- The checks of a command that moves `n` bits (46_bounds_predicates.md R237): the bound the predicates answer, the count, and
for RD_STR the body inside storage and valid. -/
def ChecksPass (i : Instr) (n : Nat) (s : State) : Prop :=
  s.cursor + n ≤ 8 * s.length ∧ CountLegal i ∧
    (i = .rdStr → s.cursor + 32 + 8 * s.field s.cursor 32 ≤ 8 * s.length ∧
      Utf8Text (bytesAt s (s.cursor + 32) (s.field s.cursor 32)))

theorem ChecksPass.not_outOfBounds {i : Instr} {n : Nat} {s : State} (h : ChecksPass i n s) (hn : bitsMoved i = some n) :
    ¬ OutOfBoundsCondition i s := by
  obtain ⟨hroom, hcount, htext⟩ := h
  by_cases hstr : i = .rdStr
  · obtain ⟨hbody, -⟩ := htext hstr
    subst hstr
    rw [outOfBounds_rdStr]
    omega
  · exact not_outOfBounds_of_room hn hcount hstr hroom

/-- A transfer answers OK exactly when its checks pass: it raises an error in two cases of `exec_cases`, each of which one of
the checks rules out, and in the others it has passed them. -/
theorem answersOk_iff_checksPass {i : Instr} {n : Nat} {s : State} (hlive : s.live = true) (hn : bitsMoved i = some n) :
    (∃ u rdata payload, Answers i s u statusOk rdata payload) ↔ ChecksPass i n s := by
  cases exec_cases i s with
  | noBuffer hdead _ _ => cases hdead.symm.trans hlive
  | outOfBounds _ hb he => exact iff_of_false (fun ⟨_, _, _, h⟩ => h.not_raise he) fun h => h.not_outOfBounds hn hb
  | invalidEncoding hi _ _ hinvalid he =>
    refine iff_of_false (fun ⟨_, _, _, h⟩ => h.not_raise he) fun ⟨_, _, htext⟩ => ?_
    cases hinvalid.symm.trans (utf8Valid_iff.2 (htext hi).2)
  | wrote t m v hv hm hcount _ _ hroom _ hw he =>
    cases hm.symm.trans hn
    exact iff_of_true ⟨t, 0, [], hw.onlyBuffer, he⟩ ⟨hroom, hcount, by rintro rfl; cases hv⟩
  | readScalar m _ hm hcount _ hstr _ _ _ hroom he =>
    cases hm.symm.trans hn
    exact iff_of_true ⟨_, _, _, advance_onlyBuffer _ _, he⟩ ⟨hroom, hcount, fun h => absurd h hstr⟩
  | readBytes len hi _ hroom he =>
    subst hi
    cases hn
    exact iff_of_true ⟨_, _, _, advance_onlyBuffer _ _, he⟩ ⟨hroom, nofun, nofun⟩
  | readText hi _ hroom hvalid he =>
    subst hi
    cases hn
    exact iff_of_true ⟨_, _, _, advance_onlyBuffer _ _, he⟩ ⟨by omega, nofun, fun _ => ⟨hroom, utf8Valid_iff.1 hvalid⟩⟩
  | answered rdata hb _ _ _ _ => cases hb.symm.trans hn
  | constructionError m hi _ _ | created m hi _ _ | consumed hi _ _ | sought offset hi _ _ _ => subst hi; cases hn

/-- Settles O23: `n` is exact as the 64-bit operand of both predicates, which answer 1 for the first of the checks. -/
theorem predicatesAgreeWithCommands : Obligations.PredicatesAgreeWithCommands := by
  intro i n s hi hlive hn
  have hoperand : (BitVec.ofNat 64 n).toNat = n := by rw [BitVec.toNat_ofNat, Nat.mod_eq_of_lt (bitsMoved_lt hi hn)]
  have hwrite := predicate_one_iff (i := .canWrBits (BitVec.ofNat 64 n)) rfl hlive
  have hread := predicate_one_iff (i := .canRdBits (BitVec.ofNat 64 n)) rfl hlive
  refine ⟨?_, hwrite.trans hread.symm⟩
  rw [hwrite, hoperand]
  exact answersOk_iff_checksPass hlive hn

end Sys2Proof.Machine

/-! PROOFS. The statements of 60_exceptions.md: what raises each error (O48 to O51), that none is sticky (O53), that a block with
nothing offered idles (O4), and that the block never halts (O8). -/

namespace Sys2Proof.Machine

/-! ## A step answers or stays quiet -/

theorem cmdReady_iff {s : State} : cmdReady s = true ↔ s.rst = false ∧ s.inFlight = none := by
  simp [cmdReady]

/-- Whether the block accepts a command word does not depend on the Buffer or on what has been answered. -/
theorem cmdReady_respond {s u : State} (h : OnlyBuffer s u) (status : BitVec 8) (rdata : BitVec 64)
    (payload : List Byte) : cmdReady (respond u status rdata payload) = cmdReady s := by
  rw [h]
  rfl

/-- Every command the block has taken is answered, whether it decodes or not. -/
theorem runCommand_answers (c : Command) (s : State) :
    ∃ u status rdata payload, OnlyBuffer s u ∧ runCommand c s = .next (respond u status rdata payload) := by
  by_cases hdecoded : ∃ i, decode c = .ok i
  · obtain ⟨i, hi⟩ := hdecoded
    obtain ⟨u, status, rdata, payload, hu, he⟩ := exec_leaves i s
    exact ⟨u, status, rdata, payload, hu.onlyBuffer, (runCommand_decoded s hi).trans he⟩
  · exact ⟨s, ErrorKind.illegalCommand.code, 0, [], rfl, runCommand_undecoded s (not_exists.1 hdecoded)⟩

/-- What a look at the channels finds: nothing to answer, or a command, and then nothing is in flight any more. -/
theorem fetch_quiet_or_ready (s : State) :
    (∃ t, fetch s = .quiet t ∧ t.rsp = s.rsp) ∨ ∃ c t, fetch s = .command c t ∧ cmdReady t = true := by
  rcases fetch_cases s with ⟨t, hf, ht⟩ | ⟨c, t, n, hf, hrst, ht⟩
  · refine .inl ⟨t, hf, ?_⟩
    rcases ht with ⟨-, rfl⟩ | ⟨-, rfl⟩ | ⟨-, w, got, r, rfl, rfl | ⟨rest, rfl⟩, -⟩ <;> rfl
  · refine .inr ⟨c, t, hf, ?_⟩
    rcases ht with rfl | ⟨rest, rfl⟩ <;> exact cmdReady_iff.2 ⟨hrst, rfl⟩

/-- Every step reaches a next state, in which nothing has been answered or the next command word is accepted. -/
theorem step_quiet_or_ready (s : State) : ∃ t, step s = .next t ∧ (t.rsp = s.rsp ∨ cmdReady t = true) := by
  rcases fetch_quiet_or_ready s with ⟨t, hf, hrsp⟩ | ⟨c, t, hf, hready⟩
  · exact ⟨t, step_quiet hf, .inl hrsp⟩
  · obtain ⟨u, status, rdata, payload, hu, hrun⟩ := runCommand_answers c t
    exact ⟨respond u status rdata payload, (step_command hf).trans hrun,
      .inr ((cmdReady_respond hu status rdata payload).trans hready)⟩

/-- Settles O8, both clauses by `step_quiet_or_ready`. -/
theorem blockNeverHalts : Obligations.BlockNeverHalts := by
  refine ⟨fun s => (step_quiet_or_ready s).imp fun _ h => h.1, fun s t hstep hanswered => ?_⟩
  obtain ⟨u, hu, hquiet | hready⟩ := step_quiet_or_ready s
  all_goals cases hstep.symm.trans hu
  · exact absurd hquiet hanswered
  · exact hready

/-- Settles O4. -/
theorem idleStepKeepsState : Obligations.IdleStepKeepsState := fun _ hrst hflight hcmd =>
  step_quiet (fetch_idle hrst hflight hcmd)

/-! ## The cause of each error -/

/-- RD_STR passes both of its bounds checks and finds bytes that are not text (60_exceptions.md R242). -/
def TextInvalid (s : State) : Prop :=
  s.cursor + 32 ≤ 8 * s.length ∧ s.cursor + 32 + 8 * s.field s.cursor 32 ≤ 8 * s.length ∧
    ¬ Utf8Text (bytesAt s (s.cursor + 32) (s.field s.cursor 32))

/-- The condition under which a command raises an error (60_exceptions.md R241 to R247). No command raises ILLEGAL_COMMAND: a
word that is not a command's does (R246). -/
def ErrorCause (i : Instr) (s : State) : ErrorKind → Prop
  | .outOfBounds => s.live = true ∧ OutOfBoundsCondition i s
  | .invalidEncoding => i = .rdStr ∧ s.live = true ∧ TextInvalid s
  | .constructionError => ∃ n, i = .create n ∧ n.toNat > s.maxBytes
  | .noBuffer => s.live = false ∧ ∀ n, i ≠ .create n
  | .illegalCommand => False

theorem TextInvalid.not_outOfBounds {s : State} (h : TextInvalid s) : ¬ OutOfBoundsCondition .rdStr s := by
  obtain ⟨hcountFits, hbodyFits, -⟩ := h
  rw [outOfBounds_rdStr]
  omega

section
variable {i : Instr} {s : State}

/-- Only SEEK and the transfers have an OutOfBounds condition. -/
theorem not_outOfBounds_of_moves_nothing (hb : bitsMoved i = none) (hseek : ∀ n, i ≠ .seek n) : ¬ OutOfBoundsCondition i s := by
  intro h
  rcases h.seek_or_moves with ⟨n, hi⟩ | ⟨n, hn⟩
  · exact hseek n hi
  · cases hb.symm.trans hn

/-- CREATE's one cause to fail, whether or not a Buffer exists. -/
theorem errorCause_create_iff {n : BitVec 64} {e : ErrorKind} :
    ErrorCause (.create n) s e ↔ e = .constructionError ∧ n.toNat > s.maxBytes := by
  have hbounds : ¬ OutOfBoundsCondition (.create n) s := not_outOfBounds_of_moves_nothing (i := .create n) rfl nofun
  cases e <;> simp [ErrorCause, hbounds]

/-- Without a Buffer every other command has one cause to fail, its operands unseen (60_exceptions.md R248). -/
theorem errorCause_dead_iff (hdead : s.live = false) (hcreate : ∀ n, i ≠ .create n) {e : ErrorKind} :
    ErrorCause i s e ↔ e = .noBuffer := by
  cases e <;> simp [ErrorCause, hdead, hcreate]

theorem errorCause_live_iff (hlive : s.live = true) (hcreate : ∀ n, i ≠ .create n) {e : ErrorKind} :
    ErrorCause i s e ↔ e = .outOfBounds ∧ OutOfBoundsCondition i s ∨ e = .invalidEncoding ∧ i = .rdStr ∧ TextInvalid s := by
  cases e <;> simp [ErrorCause, hlive, hcreate]

/-- A command that has passed its bounds and its check of the text has no cause to fail. -/
theorem no_errorCause_live (hlive : s.live = true) (hcreate : ∀ n, i ≠ .create n) (hbounds : ¬ OutOfBoundsCondition i s)
    (htext : i = .rdStr → ¬ TextInvalid s) {e : ErrorKind} : ¬ ErrorCause i s e := by
  rw [errorCause_live_iff hlive hcreate]
  rintro (⟨-, hb⟩ | ⟨-, hi, hinvalid⟩)
  · exact hbounds hb
  · exact htext hi hinvalid

/-- A transfer with room and a legal count has no cause to fail; RD_STR reads a text besides. -/
theorem no_errorCause_transfer {n : Nat} (hn : bitsMoved i = some n) (hcount : CountLegal i) (hstr : i ≠ .rdStr)
    (hlive : s.live = true) (hroom : s.cursor + n ≤ 8 * s.length) {e : ErrorKind} : ¬ ErrorCause i s e :=
  no_errorCause_live hlive (by rintro m rfl; cases hn) (not_outOfBounds_of_room hn hcount hstr hroom)
    fun hi => absurd hi hstr

/-! ## A command raises an error exactly for its cause -/

theorem raises_iff_of_raise {e₀ e : ErrorKind} (he : exec i s = raise e₀ s) : Raises i e s ↔ e = e₀ := by
  refine ⟨fun h => ?_, fun h => h ▸ he⟩
  obtain ⟨-, hcode, -, -⟩ := answers_unique (raises_answers.1 h) (raises_answers.1 he)
  exact errorCode_inj hcode

theorem raises_iff_of_ok {u : State} {rdata : BitVec 64} {payload : List Byte} {e : ErrorKind}
    (he : exec i s = .next (respond u statusOk rdata payload)) (hu : OnlyBuffer s u) (hno : ¬ ErrorCause i s e) :
    Raises i e s ↔ ErrorCause i s e :=
  have hok : Answers i s u statusOk rdata payload := ⟨hu, he⟩
  iff_of_false (fun h => hok.not_raise h) hno

end

/-- The table of errors (60_exceptions.md R241 to R247): the cases of `exec_cases` that raise an error are those that have its
cause, and no other. -/
theorem raises_iff_errorCause (i : Instr) (s : State) (e : ErrorKind) : Raises i e s ↔ ErrorCause i s e := by
  cases exec_cases i s with
  | noBuffer hdead hcreate he => exact (raises_iff_of_raise he).trans (errorCause_dead_iff hdead hcreate).symm
  | outOfBounds hlive hb he =>
    have hcreate : ∀ n, i ≠ .create n := by
      rintro n rfl
      exact not_outOfBounds_of_moves_nothing (i := .create n) rfl nofun hb
    have htext : ¬ (i = .rdStr ∧ TextInvalid s) := by
      rintro ⟨rfl, hinvalid⟩
      exact hinvalid.not_outOfBounds hb
    rw [raises_iff_of_raise he, errorCause_live_iff hlive hcreate]
    simp [hb, htext]
  | invalidEncoding hi hlive hroom hinvalid he =>
    subst hi
    have htext : TextInvalid s := ⟨by omega, hroom, fun h => by cases hinvalid.symm.trans (utf8Valid_iff.2 h)⟩
    rw [raises_iff_of_raise he, errorCause_live_iff (i := .rdStr) hlive nofun]
    simp [htext, htext.not_outOfBounds]
  | constructionError n hi habove he =>
    subst hi
    rw [raises_iff_of_raise he, errorCause_create_iff, and_iff_left habove]
  | created n hi hn he =>
    subst hi
    refine raises_iff_of_ok he rfl fun h => ?_
    obtain ⟨-, habove⟩ := errorCause_create_iff.1 h
    omega
  | consumed hi hlive he =>
    subst hi
    exact raises_iff_of_ok he rfl
      (no_errorCause_live (i := .intoBytes) hlive nofun (not_outOfBounds_of_moves_nothing rfl nofun) nofun)
  | sought offset hi hlive hoffset he =>
    subst hi
    exact raises_iff_of_ok he rfl (no_errorCause_live (i := .seek offset) hlive nofun (Nat.not_lt.2 hoffset) nofun)
  | answered rdata hb hstorage hseek hlive he =>
    refine raises_iff_of_ok he rfl (no_errorCause_live hlive ?_ (not_outOfBounds_of_moves_nothing hb hseek) ?_)
    · rintro n rfl
      cases hstorage
    · rintro rfl
      cases hb
  | wrote t n v hv hn hcount _ hlive hroom _ hw he =>
    exact raises_iff_of_ok he hw.onlyBuffer (no_errorCause_transfer hn hcount (by rintro rfl; cases hv) hlive hroom)
  | readScalar n _ hn hcount _ hstr _ _ hlive hroom he =>
    exact raises_iff_of_ok he rfl (no_errorCause_transfer hn hcount hstr hlive hroom)
  | readBytes len hi hlive hroom he =>
    subst hi
    exact raises_iff_of_ok he rfl (no_errorCause_transfer (i := .rdBytes len) rfl nofun nofun hlive hroom)
  | readText hi hlive hroom hvalid he =>
    subst hi
    have hbounds : ¬ OutOfBoundsCondition .rdStr s := by
      rw [outOfBounds_rdStr]
      omega
    have htext : ¬ TextInvalid s := fun ⟨_, _, hinvalid⟩ => hinvalid (utf8Valid_iff.1 hvalid)
    exact raises_iff_of_ok he rfl (no_errorCause_live (i := .rdStr) hlive nofun hbounds fun _ => htext)

/-- Settles O48, by the table of errors. -/
theorem outOfBoundsExactly : Obligations.OutOfBoundsExactly := fun i s => raises_iff_errorCause i s .outOfBounds

/-- Settles O49, by the table of errors. -/
theorem invalidEncodingExactly : Obligations.InvalidEncodingExactly := fun i s => raises_iff_errorCause i s .invalidEncoding

/-- Settles O50, by the table of errors. -/
theorem constructionErrorExactly : Obligations.ConstructionErrorExactly := fun i s =>
  raises_iff_errorCause i s .constructionError

/-! ## When a Buffer comes and goes -/

/-- Only a legal CREATE leaves a Buffer where there was none. -/
theorem Leaves.created_of_live {i : Instr} {s u : State} {status : BitVec 8} (h : Leaves i s u status)
    (hdead : s.live = false) (hlive : u.live = true) : ∃ n, i = .create n ∧ n.toNat ≤ s.maxBytes := by
  cases h with
  | created n hi hn => exact ⟨n, hi, hn⟩
  | consumed _ => cases hlive
  | wrote t n f _ _ hl _ _ _ => cases hdead.symm.trans hl
  | _ => cases hdead.symm.trans hlive

/-- Only INTO_BYTES leaves no Buffer where there was one. -/
theorem Leaves.consumed_of_dead {i : Instr} {s u : State} {status : BitVec 8} (h : Leaves i s u status)
    (hlive : s.live = true) (hdead : u.live = false) : i = .intoBytes := by
  cases h with
  | created n _ _ => cases hdead
  | consumed hi => exact hi
  | wrote t n f _ _ _ _ hw _ =>
    rw [hw.rest] at hdead
    cases hdead.symm.trans hlive
  | _ => cases hdead.symm.trans hlive

theorem intoBytes_leaves_dead {s t : State} (h : exec .intoBytes s = .next t) : t.live = false := by
  cases hlive : s.live with
  | true =>
    cases h.symm.trans (intoBytesReturnsStorage s hlive)
    rfl
  | false =>
    cases h.symm.trans ((raises_iff_errorCause .intoBytes s .noBuffer).2 ⟨hlive, nofun⟩)
    exact hlive

/-- Settles O51: the table of errors, and which commands change `live`. -/
theorem noBufferExactly : Obligations.NoBufferExactly := by
  refine ⟨fun i s => raises_iff_errorCause i s .noBuffer, fun _ => rfl, fun _ _ => intoBytes_leaves_dead,
    fun i s t he hdead hlive => ?_, fun i s t he hlive hdead => ?_⟩
  all_goals obtain ⟨u, status, rdata, payload, hu, rfl⟩ := leaves_of_exec he
  · exact hu.created_of_live hdead hlive
  · exact hu.consumed_of_dead hlive hdead

/-! ## No error is sticky -/

/-- Settles O53: a failed command leaves its response alone, which the next command does not see. -/
theorem errorsAreNotSticky : Obligations.ErrorsAreNotSticky := by
  intro i j e s hfailed
  obtain ⟨u, status, rdata, payload, hu, he⟩ := exec_leaves j s
  have hanswer : Answers j s u status rdata payload := ⟨hu.onlyBuffer, he⟩
  refine ⟨u, status, rdata, payload, hanswer, ?_⟩
  rw [execAll_cons hfailed, execAll_cons (hanswer.after_respond e.code 0 [])]
  rfl

end Sys2Proof.Machine

/-! PROOFS. The statements on the reset input (O3, 70_reset_and_hazards.md) and on a payload still arriving (O5,
30_encoding.md). -/

namespace Sys2Proof.Machine

/-- Settles O3: the block `resetBlock` leaves, whose two inputs are not ready while `rst` is high. -/
theorem resetInputStep : Obligations.ResetInputStep := fun s hrst =>
  ⟨step_quiet (fetch_reset hrst), by simp [cmdReady, hrst], by simp [wpReady, hrst]⟩

/-- Settles O5: too few bytes are offered for a word just taken, or for one in flight. -/
theorem shortPayloadWaits : Obligations.ShortPayloadWaits :=
  ⟨fun _ _ _ hrst hflight hcmd hshort =>
      step_quiet ((fetch_next hrst hflight hcmd).trans (collect_short (got := []) hshort)),
    fun _ _ hrst hflight hshort => step_quiet ((fetch_inFlight hrst hflight).trans (collect_short hshort))⟩

end Sys2Proof.Machine
